-- ==== Sys2Proof/Word.lean ====
section
/-! DEFINITION. The two word sizes of the hardware: the byte of every register, memory cell and bus access, and the
16-bit word of the program counter and the CPU address bus (00_scope R6, 20_memory R73). -/

namespace Sys2Proof

/-- A register, a memory cell, the unit of every bus access. -/
abbrev Byte := BitVec 8

/-- A CPU address, the program counter. -/
abbrev Word := BitVec 16

end Sys2Proof
end

