-- ==== Sys2Proof/Syntax.lean ====
section
/-! DEFINITION. The instructions: one constructor for each of the 151 rows of spec/opcode_table.json (30_encoding R126).
An operand is what R122 says it is: `v` an immediate byte (`imm8`), `z` a zero-page address (`zp8`), `a` a 16-bit
address (`addr16`), `d` a signed displacement (`rel8`), an integer that `WellFormed` keeps within -128 and 127. -/

namespace Sys2Proof

/-- The documented instructions, one constructor per opcode. -/
inductive Instr where
  -- 40_load_store
  /-- `LDA #$nn`, 0xA9, R201. -/
  | ldaImm (v : Byte)
  /-- `LDA $nn`, 0xA5, R201. -/
  | ldaZp (z : Byte)
  /-- `LDA $nn,X`, 0xB5, R201. -/
  | ldaZpx (z : Byte)
  /-- `LDA $nnnn`, 0xAD, R201. -/
  | ldaAbs (a : Word)
  /-- `LDA $nnnn,X`, 0xBD, R201. -/
  | ldaAbsx (a : Word)
  /-- `LDA $nnnn,Y`, 0xB9, R201. -/
  | ldaAbsy (a : Word)
  /-- `LDA ($nn,X)`, 0xA1, R201. -/
  | ldaIzx (z : Byte)
  /-- `LDA ($nn),Y`, 0xB1, R201. -/
  | ldaIzy (z : Byte)
  /-- `LDX #$nn`, 0xA2, R202. -/
  | ldxImm (v : Byte)
  /-- `LDX $nn`, 0xA6, R202. -/
  | ldxZp (z : Byte)
  /-- `LDX $nn,Y`, 0xB6, R202. -/
  | ldxZpy (z : Byte)
  /-- `LDX $nnnn`, 0xAE, R202. -/
  | ldxAbs (a : Word)
  /-- `LDX $nnnn,Y`, 0xBE, R202. -/
  | ldxAbsy (a : Word)
  /-- `LDY #$nn`, 0xA0, R203. -/
  | ldyImm (v : Byte)
  /-- `LDY $nn`, 0xA4, R203. -/
  | ldyZp (z : Byte)
  /-- `LDY $nn,X`, 0xB4, R203. -/
  | ldyZpx (z : Byte)
  /-- `LDY $nnnn`, 0xAC, R203. -/
  | ldyAbs (a : Word)
  /-- `LDY $nnnn,X`, 0xBC, R203. -/
  | ldyAbsx (a : Word)
  /-- `STA $nn`, 0x85, R204. -/
  | staZp (z : Byte)
  /-- `STA $nn,X`, 0x95, R204. -/
  | staZpx (z : Byte)
  /-- `STA $nnnn`, 0x8D, R204. -/
  | staAbs (a : Word)
  /-- `STA $nnnn,X`, 0x9D, R204. -/
  | staAbsx (a : Word)
  /-- `STA $nnnn,Y`, 0x99, R204. -/
  | staAbsy (a : Word)
  /-- `STA ($nn,X)`, 0x81, R204. -/
  | staIzx (z : Byte)
  /-- `STA ($nn),Y`, 0x91, R204. -/
  | staIzy (z : Byte)
  /-- `STX $nn`, 0x86, R205. -/
  | stxZp (z : Byte)
  /-- `STX $nn,Y`, 0x96, R205. -/
  | stxZpy (z : Byte)
  /-- `STX $nnnn`, 0x8E, R205. -/
  | stxAbs (a : Word)
  /-- `STY $nn`, 0x84, R206. -/
  | styZp (z : Byte)
  /-- `STY $nn,X`, 0x94, R206. -/
  | styZpx (z : Byte)
  /-- `STY $nnnn`, 0x8C, R206. -/
  | styAbs (a : Word)
  -- 41_transfer_stack
  /-- `TAX`, 0xAA, R231. -/
  | tax
  /-- `TAY`, 0xA8, R232. -/
  | tay
  /-- `TXA`, 0x8A, R233. -/
  | txa
  /-- `TYA`, 0x98, R234. -/
  | tya
  /-- `TSX`, 0xBA, R235. -/
  | tsx
  /-- `TXS`, 0x9A, R236. -/
  | txs
  /-- `PHA`, 0x48, R237. -/
  | pha
  /-- `PHP`, 0x08, R238. -/
  | php
  /-- `PLA`, 0x68, R239. -/
  | pla
  /-- `PLP`, 0x28, R240. -/
  | plp
  -- 42_arithmetic_logic
  /-- `ADC #$nn`, 0x69, R261. -/
  | adcImm (v : Byte)
  /-- `ADC $nn`, 0x65, R261. -/
  | adcZp (z : Byte)
  /-- `ADC $nn,X`, 0x75, R261. -/
  | adcZpx (z : Byte)
  /-- `ADC $nnnn`, 0x6D, R261. -/
  | adcAbs (a : Word)
  /-- `ADC $nnnn,X`, 0x7D, R261. -/
  | adcAbsx (a : Word)
  /-- `ADC $nnnn,Y`, 0x79, R261. -/
  | adcAbsy (a : Word)
  /-- `ADC ($nn,X)`, 0x61, R261. -/
  | adcIzx (z : Byte)
  /-- `ADC ($nn),Y`, 0x71, R261. -/
  | adcIzy (z : Byte)
  /-- `SBC #$nn`, 0xE9, R262. -/
  | sbcImm (v : Byte)
  /-- `SBC $nn`, 0xE5, R262. -/
  | sbcZp (z : Byte)
  /-- `SBC $nn,X`, 0xF5, R262. -/
  | sbcZpx (z : Byte)
  /-- `SBC $nnnn`, 0xED, R262. -/
  | sbcAbs (a : Word)
  /-- `SBC $nnnn,X`, 0xFD, R262. -/
  | sbcAbsx (a : Word)
  /-- `SBC $nnnn,Y`, 0xF9, R262. -/
  | sbcAbsy (a : Word)
  /-- `SBC ($nn,X)`, 0xE1, R262. -/
  | sbcIzx (z : Byte)
  /-- `SBC ($nn),Y`, 0xF1, R262. -/
  | sbcIzy (z : Byte)
  /-- `AND #$nn`, 0x29, R263. -/
  | andImm (v : Byte)
  /-- `AND $nn`, 0x25, R263. -/
  | andZp (z : Byte)
  /-- `AND $nn,X`, 0x35, R263. -/
  | andZpx (z : Byte)
  /-- `AND $nnnn`, 0x2D, R263. -/
  | andAbs (a : Word)
  /-- `AND $nnnn,X`, 0x3D, R263. -/
  | andAbsx (a : Word)
  /-- `AND $nnnn,Y`, 0x39, R263. -/
  | andAbsy (a : Word)
  /-- `AND ($nn,X)`, 0x21, R263. -/
  | andIzx (z : Byte)
  /-- `AND ($nn),Y`, 0x31, R263. -/
  | andIzy (z : Byte)
  /-- `ORA #$nn`, 0x09, R264. -/
  | oraImm (v : Byte)
  /-- `ORA $nn`, 0x05, R264. -/
  | oraZp (z : Byte)
  /-- `ORA $nn,X`, 0x15, R264. -/
  | oraZpx (z : Byte)
  /-- `ORA $nnnn`, 0x0D, R264. -/
  | oraAbs (a : Word)
  /-- `ORA $nnnn,X`, 0x1D, R264. -/
  | oraAbsx (a : Word)
  /-- `ORA $nnnn,Y`, 0x19, R264. -/
  | oraAbsy (a : Word)
  /-- `ORA ($nn,X)`, 0x01, R264. -/
  | oraIzx (z : Byte)
  /-- `ORA ($nn),Y`, 0x11, R264. -/
  | oraIzy (z : Byte)
  /-- `EOR #$nn`, 0x49, R265. -/
  | eorImm (v : Byte)
  /-- `EOR $nn`, 0x45, R265. -/
  | eorZp (z : Byte)
  /-- `EOR $nn,X`, 0x55, R265. -/
  | eorZpx (z : Byte)
  /-- `EOR $nnnn`, 0x4D, R265. -/
  | eorAbs (a : Word)
  /-- `EOR $nnnn,X`, 0x5D, R265. -/
  | eorAbsx (a : Word)
  /-- `EOR $nnnn,Y`, 0x59, R265. -/
  | eorAbsy (a : Word)
  /-- `EOR ($nn,X)`, 0x41, R265. -/
  | eorIzx (z : Byte)
  /-- `EOR ($nn),Y`, 0x51, R265. -/
  | eorIzy (z : Byte)
  /-- `BIT $nn`, 0x24, R266. -/
  | bitZp (z : Byte)
  /-- `BIT $nnnn`, 0x2C, R266. -/
  | bitAbs (a : Word)
  /-- `CMP #$nn`, 0xC9, R267. -/
  | cmpImm (v : Byte)
  /-- `CMP $nn`, 0xC5, R267. -/
  | cmpZp (z : Byte)
  /-- `CMP $nn,X`, 0xD5, R267. -/
  | cmpZpx (z : Byte)
  /-- `CMP $nnnn`, 0xCD, R267. -/
  | cmpAbs (a : Word)
  /-- `CMP $nnnn,X`, 0xDD, R267. -/
  | cmpAbsx (a : Word)
  /-- `CMP $nnnn,Y`, 0xD9, R267. -/
  | cmpAbsy (a : Word)
  /-- `CMP ($nn,X)`, 0xC1, R267. -/
  | cmpIzx (z : Byte)
  /-- `CMP ($nn),Y`, 0xD1, R267. -/
  | cmpIzy (z : Byte)
  /-- `CPX #$nn`, 0xE0, R268. -/
  | cpxImm (v : Byte)
  /-- `CPX $nn`, 0xE4, R268. -/
  | cpxZp (z : Byte)
  /-- `CPX $nnnn`, 0xEC, R268. -/
  | cpxAbs (a : Word)
  /-- `CPY #$nn`, 0xC0, R269. -/
  | cpyImm (v : Byte)
  /-- `CPY $nn`, 0xC4, R269. -/
  | cpyZp (z : Byte)
  /-- `CPY $nnnn`, 0xCC, R269. -/
  | cpyAbs (a : Word)
  -- 43_inc_dec_shift
  /-- `INC $nn`, 0xE6, R301. -/
  | incZp (z : Byte)
  /-- `INC $nn,X`, 0xF6, R301. -/
  | incZpx (z : Byte)
  /-- `INC $nnnn`, 0xEE, R301. -/
  | incAbs (a : Word)
  /-- `INC $nnnn,X`, 0xFE, R301. -/
  | incAbsx (a : Word)
  /-- `DEC $nn`, 0xC6, R302. -/
  | decZp (z : Byte)
  /-- `DEC $nn,X`, 0xD6, R302. -/
  | decZpx (z : Byte)
  /-- `DEC $nnnn`, 0xCE, R302. -/
  | decAbs (a : Word)
  /-- `DEC $nnnn,X`, 0xDE, R302. -/
  | decAbsx (a : Word)
  /-- `INX`, 0xE8, R303. -/
  | inx
  /-- `INY`, 0xC8, R304. -/
  | iny
  /-- `DEX`, 0xCA, R305. -/
  | dex
  /-- `DEY`, 0x88, R306. -/
  | dey
  /-- `ASL A`, 0x0A, R307. -/
  | aslAcc
  /-- `ASL $nn`, 0x06, R307. -/
  | aslZp (z : Byte)
  /-- `ASL $nn,X`, 0x16, R307. -/
  | aslZpx (z : Byte)
  /-- `ASL $nnnn`, 0x0E, R307. -/
  | aslAbs (a : Word)
  /-- `ASL $nnnn,X`, 0x1E, R307. -/
  | aslAbsx (a : Word)
  /-- `LSR A`, 0x4A, R308. -/
  | lsrAcc
  /-- `LSR $nn`, 0x46, R308. -/
  | lsrZp (z : Byte)
  /-- `LSR $nn,X`, 0x56, R308. -/
  | lsrZpx (z : Byte)
  /-- `LSR $nnnn`, 0x4E, R308. -/
  | lsrAbs (a : Word)
  /-- `LSR $nnnn,X`, 0x5E, R308. -/
  | lsrAbsx (a : Word)
  /-- `ROL A`, 0x2A, R309. -/
  | rolAcc
  /-- `ROL $nn`, 0x26, R309. -/
  | rolZp (z : Byte)
  /-- `ROL $nn,X`, 0x36, R309. -/
  | rolZpx (z : Byte)
  /-- `ROL $nnnn`, 0x2E, R309. -/
  | rolAbs (a : Word)
  /-- `ROL $nnnn,X`, 0x3E, R309. -/
  | rolAbsx (a : Word)
  /-- `ROR A`, 0x6A, R310. -/
  | rorAcc
  /-- `ROR $nn`, 0x66, R310. -/
  | rorZp (z : Byte)
  /-- `ROR $nn,X`, 0x76, R310. -/
  | rorZpx (z : Byte)
  /-- `ROR $nnnn`, 0x6E, R310. -/
  | rorAbs (a : Word)
  /-- `ROR $nnnn,X`, 0x7E, R310. -/
  | rorAbsx (a : Word)
  -- 44_control_flow
  /-- `JMP $nnnn`, 0x4C, R331. -/
  | jmpAbs (a : Word)
  /-- `JMP ($nnnn)`, 0x6C, R331. -/
  | jmpInd (a : Word)
  /-- `JSR $nnnn`, 0x20, R332. -/
  | jsr (a : Word)
  /-- `RTS`, 0x60, R333. -/
  | rts
  /-- `BCC label`, 0x90, R334. -/
  | bcc (d : Int)
  /-- `BCS label`, 0xB0, R335. -/
  | bcs (d : Int)
  /-- `BEQ label`, 0xF0, R336. -/
  | beq (d : Int)
  /-- `BMI label`, 0x30, R337. -/
  | bmi (d : Int)
  /-- `BNE label`, 0xD0, R338. -/
  | bne (d : Int)
  /-- `BPL label`, 0x10, R339. -/
  | bpl (d : Int)
  /-- `BVC label`, 0x50, R340. -/
  | bvc (d : Int)
  /-- `BVS label`, 0x70, R341. -/
  | bvs (d : Int)
  -- 45_flags_system
  /-- `CLC`, 0x18, R371. -/
  | clc
  /-- `SEC`, 0x38, R372. -/
  | sec
  /-- `CLI`, 0x58, R373. -/
  | cli
  /-- `SEI`, 0x78, R374. -/
  | sei
  /-- `CLD`, 0xD8, R375. -/
  | cld
  /-- `SED`, 0xF8, R376. -/
  | sed
  /-- `CLV`, 0xB8, R377. -/
  | clv
  /-- `BRK`, 0x00, R378. -/
  | brk
  /-- `RTI`, 0x40, R379. -/
  | rti
  /-- `NOP`, 0xEA, R380. -/
  | nop
  deriving DecidableEq, Repr

end Sys2Proof
end

