-- ==== Sys2Proof/Decode.lean ====
section
/-! DEFINITION. Decoding (30_encoding R120-R126) and, after it, encoding. The opcode map stands as R126 prints it: sixteen rows for
the high nibble of the opcode byte, sixteen columns for the low one. The opcode alone decides the length (R120), and
all 8 bits of it are matched (R121). The encoder is written from R126's per-opcode table, not from the map. -/

namespace Sys2Proof

/-- `hi ++ lo`: a 16-bit quantity from its two bytes, the low one first in memory (20_memory R72). -/
def wordOf (lo hi : Byte) : Word := hi ++ lo

/-- Bits 7..0 of a word: the byte at the lower address (20_memory R72). -/
def loByte (w : Word) : Byte := w.extractLsb 7 0

/-- Bits 15..8 of a word: the byte at the higher address (20_memory R72). -/
def hiByte (w : Word) : Byte := w.extractLsb 15 8

/-- `rel8` as the signed number it stands for (R122). -/
def relOfByte (b : Byte) : Int := b.toInt

/-- The byte of a displacement: `rr = u8(label - next)` (R143). -/
def byteOfRel (d : Int) : Byte := BitVec.ofInt 8 d

/-- What one cell of the opcode map says: the format (R120) and how the operand bytes make the instruction. -/
inductive OpcodeCell where
  /-- An undocumented opcode byte (R124). -/
  | illegal
  /-- Format F1: the opcode alone. -/
  | f1 (i : Instr)
  /-- Format F2: one operand byte. -/
  | f2 (f : Byte → Instr)
  /-- Format F3: a 16-bit operand, low byte first. -/
  | f3 (f : Word → Instr)

/-- A branch cell: format F2 with a signed displacement (R122, R141). -/
def OpcodeCell.rel (f : Int → Instr) : OpcodeCell := .f2 fun b => f (relOfByte b)

/-- Row 0 of the opcode map (R126). -/
def opcodeRow0 : List OpcodeCell :=
  [.f1 .brk, .f2 .oraIzx, .illegal, .illegal,
   .illegal, .f2 .oraZp, .f2 .aslZp, .illegal,
   .f1 .php, .f2 .oraImm, .f1 .aslAcc, .illegal,
   .illegal, .f3 .oraAbs, .f3 .aslAbs, .illegal]

/-- Row 1 of the opcode map (R126). -/
def opcodeRow1 : List OpcodeCell :=
  [.rel .bpl, .f2 .oraIzy, .illegal, .illegal,
   .illegal, .f2 .oraZpx, .f2 .aslZpx, .illegal,
   .f1 .clc, .f3 .oraAbsy, .illegal, .illegal,
   .illegal, .f3 .oraAbsx, .f3 .aslAbsx, .illegal]

/-- Row 2 of the opcode map (R126). -/
def opcodeRow2 : List OpcodeCell :=
  [.f3 .jsr, .f2 .andIzx, .illegal, .illegal,
   .f2 .bitZp, .f2 .andZp, .f2 .rolZp, .illegal,
   .f1 .plp, .f2 .andImm, .f1 .rolAcc, .illegal,
   .f3 .bitAbs, .f3 .andAbs, .f3 .rolAbs, .illegal]

/-- Row 3 of the opcode map (R126). -/
def opcodeRow3 : List OpcodeCell :=
  [.rel .bmi, .f2 .andIzy, .illegal, .illegal,
   .illegal, .f2 .andZpx, .f2 .rolZpx, .illegal,
   .f1 .sec, .f3 .andAbsy, .illegal, .illegal,
   .illegal, .f3 .andAbsx, .f3 .rolAbsx, .illegal]

/-- Row 4 of the opcode map (R126). -/
def opcodeRow4 : List OpcodeCell :=
  [.f1 .rti, .f2 .eorIzx, .illegal, .illegal,
   .illegal, .f2 .eorZp, .f2 .lsrZp, .illegal,
   .f1 .pha, .f2 .eorImm, .f1 .lsrAcc, .illegal,
   .f3 .jmpAbs, .f3 .eorAbs, .f3 .lsrAbs, .illegal]

/-- Row 5 of the opcode map (R126). -/
def opcodeRow5 : List OpcodeCell :=
  [.rel .bvc, .f2 .eorIzy, .illegal, .illegal,
   .illegal, .f2 .eorZpx, .f2 .lsrZpx, .illegal,
   .f1 .cli, .f3 .eorAbsy, .illegal, .illegal,
   .illegal, .f3 .eorAbsx, .f3 .lsrAbsx, .illegal]

/-- Row 6 of the opcode map (R126). -/
def opcodeRow6 : List OpcodeCell :=
  [.f1 .rts, .f2 .adcIzx, .illegal, .illegal,
   .illegal, .f2 .adcZp, .f2 .rorZp, .illegal,
   .f1 .pla, .f2 .adcImm, .f1 .rorAcc, .illegal,
   .f3 .jmpInd, .f3 .adcAbs, .f3 .rorAbs, .illegal]

/-- Row 7 of the opcode map (R126). -/
def opcodeRow7 : List OpcodeCell :=
  [.rel .bvs, .f2 .adcIzy, .illegal, .illegal,
   .illegal, .f2 .adcZpx, .f2 .rorZpx, .illegal,
   .f1 .sei, .f3 .adcAbsy, .illegal, .illegal,
   .illegal, .f3 .adcAbsx, .f3 .rorAbsx, .illegal]

/-- Row 8 of the opcode map (R126). -/
def opcodeRow8 : List OpcodeCell :=
  [.illegal, .f2 .staIzx, .illegal, .illegal,
   .f2 .styZp, .f2 .staZp, .f2 .stxZp, .illegal,
   .f1 .dey, .illegal, .f1 .txa, .illegal,
   .f3 .styAbs, .f3 .staAbs, .f3 .stxAbs, .illegal]

/-- Row 9 of the opcode map (R126). -/
def opcodeRow9 : List OpcodeCell :=
  [.rel .bcc, .f2 .staIzy, .illegal, .illegal,
   .f2 .styZpx, .f2 .staZpx, .f2 .stxZpy, .illegal,
   .f1 .tya, .f3 .staAbsy, .f1 .txs, .illegal,
   .illegal, .f3 .staAbsx, .illegal, .illegal]

/-- Row A of the opcode map (R126). -/
def opcodeRowA : List OpcodeCell :=
  [.f2 .ldyImm, .f2 .ldaIzx, .f2 .ldxImm, .illegal,
   .f2 .ldyZp, .f2 .ldaZp, .f2 .ldxZp, .illegal,
   .f1 .tay, .f2 .ldaImm, .f1 .tax, .illegal,
   .f3 .ldyAbs, .f3 .ldaAbs, .f3 .ldxAbs, .illegal]

/-- Row B of the opcode map (R126). -/
def opcodeRowB : List OpcodeCell :=
  [.rel .bcs, .f2 .ldaIzy, .illegal, .illegal,
   .f2 .ldyZpx, .f2 .ldaZpx, .f2 .ldxZpy, .illegal,
   .f1 .clv, .f3 .ldaAbsy, .f1 .tsx, .illegal,
   .f3 .ldyAbsx, .f3 .ldaAbsx, .f3 .ldxAbsy, .illegal]

/-- Row C of the opcode map (R126). -/
def opcodeRowC : List OpcodeCell :=
  [.f2 .cpyImm, .f2 .cmpIzx, .illegal, .illegal,
   .f2 .cpyZp, .f2 .cmpZp, .f2 .decZp, .illegal,
   .f1 .iny, .f2 .cmpImm, .f1 .dex, .illegal,
   .f3 .cpyAbs, .f3 .cmpAbs, .f3 .decAbs, .illegal]

/-- Row D of the opcode map (R126). -/
def opcodeRowD : List OpcodeCell :=
  [.rel .bne, .f2 .cmpIzy, .illegal, .illegal,
   .illegal, .f2 .cmpZpx, .f2 .decZpx, .illegal,
   .f1 .cld, .f3 .cmpAbsy, .illegal, .illegal,
   .illegal, .f3 .cmpAbsx, .f3 .decAbsx, .illegal]

/-- Row E of the opcode map (R126). -/
def opcodeRowE : List OpcodeCell :=
  [.f2 .cpxImm, .f2 .sbcIzx, .illegal, .illegal,
   .f2 .cpxZp, .f2 .sbcZp, .f2 .incZp, .illegal,
   .f1 .inx, .f2 .sbcImm, .f1 .nop, .illegal,
   .f3 .cpxAbs, .f3 .sbcAbs, .f3 .incAbs, .illegal]

/-- Row F of the opcode map (R126). -/
def opcodeRowF : List OpcodeCell :=
  [.rel .beq, .f2 .sbcIzy, .illegal, .illegal,
   .illegal, .f2 .sbcZpx, .f2 .incZpx, .illegal,
   .f1 .sed, .f3 .sbcAbsy, .illegal, .illegal,
   .illegal, .f3 .sbcAbsx, .f3 .incAbsx, .illegal]

/-- The opcode map of R126, by high nibble and then low nibble. -/
def opcodeMap : List (List OpcodeCell) :=
  [opcodeRow0, opcodeRow1, opcodeRow2, opcodeRow3, opcodeRow4, opcodeRow5, opcodeRow6, opcodeRow7,
   opcodeRow8, opcodeRow9, opcodeRowA, opcodeRowB, opcodeRowC, opcodeRowD, opcodeRowE, opcodeRowF]

/-- `decode(op)` of R123: the row of the opcode table whose eight bits are `op`, or illegal. -/
def opcodeCell (op : Byte) : OpcodeCell :=
  ((opcodeMap[op.toNat / 16]?).getD [])[op.toNat % 16]?.getD .illegal

/-- The number of bytes of an instruction that begins with this opcode (R120); none for an undocumented byte. -/
def opcodeLength (op : Byte) : Option Nat :=
  match opcodeCell op with
  | .illegal => none
  | .f1 _ => some 1
  | .f2 _ => some 2
  | .f3 _ => some 3

/-- The decoder, total on any bytes: the first instruction and the bytes after it. It answers none for an
undocumented opcode and for bytes that end inside an instruction. -/
def decode : List Byte → Option (Instr × List Byte)
  | [] => none
  | op :: rest =>
    match opcodeCell op with
    | .illegal => none
    | .f1 i => some (i, rest)
    | .f2 f =>
      match rest with
      | b1 :: rest => some (f b1, rest)
      | [] => none
    | .f3 f =>
      match rest with
      | b1 :: b2 :: rest => some (f (wordOf b1 b2), rest)
      | _ => none

/-- Why bytes do not decode. -/
inductive DecodeReject where
  /-- No bytes. -/
  | empty
  /-- An undocumented opcode byte (R124). -/
  | illegalOpcode (op : Byte)
  /-- The bytes end inside the instruction. -/
  | missingOperand (op : Byte)
  deriving DecidableEq, Repr

/-- The decoder's answer with a reason by name where it rejects. -/
def decodeNamed (bytes : List Byte) : Except DecodeReject (Instr × List Byte) :=
  match bytes with
  | [] => .error .empty
  | op :: rest =>
    match opcodeLength op with
    | none => .error (.illegalOpcode op)
    | some _ =>
      match decode (op :: rest) with
      | none => .error (.missingOperand op)
      | some r => .ok r

/-- A 16-bit operand as the two bytes that follow the opcode, low byte first (R122). -/
def addr16Bytes (a : Word) : List Byte := [loByte a, hiByte a]

/-- The bytes of an instruction, from the per-opcode table of R126 and the operand fields of R122. -/
def encode : Instr → List Byte
  | .ldaImm v => [0xA9, v]
  | .ldaZp z => [0xA5, z]
  | .ldaZpx z => [0xB5, z]
  | .ldaAbs a => 0xAD :: addr16Bytes a
  | .ldaAbsx a => 0xBD :: addr16Bytes a
  | .ldaAbsy a => 0xB9 :: addr16Bytes a
  | .ldaIzx z => [0xA1, z]
  | .ldaIzy z => [0xB1, z]
  | .ldxImm v => [0xA2, v]
  | .ldxZp z => [0xA6, z]
  | .ldxZpy z => [0xB6, z]
  | .ldxAbs a => 0xAE :: addr16Bytes a
  | .ldxAbsy a => 0xBE :: addr16Bytes a
  | .ldyImm v => [0xA0, v]
  | .ldyZp z => [0xA4, z]
  | .ldyZpx z => [0xB4, z]
  | .ldyAbs a => 0xAC :: addr16Bytes a
  | .ldyAbsx a => 0xBC :: addr16Bytes a
  | .staZp z => [0x85, z]
  | .staZpx z => [0x95, z]
  | .staAbs a => 0x8D :: addr16Bytes a
  | .staAbsx a => 0x9D :: addr16Bytes a
  | .staAbsy a => 0x99 :: addr16Bytes a
  | .staIzx z => [0x81, z]
  | .staIzy z => [0x91, z]
  | .stxZp z => [0x86, z]
  | .stxZpy z => [0x96, z]
  | .stxAbs a => 0x8E :: addr16Bytes a
  | .styZp z => [0x84, z]
  | .styZpx z => [0x94, z]
  | .styAbs a => 0x8C :: addr16Bytes a
  | .tax => [0xAA]
  | .tay => [0xA8]
  | .txa => [0x8A]
  | .tya => [0x98]
  | .tsx => [0xBA]
  | .txs => [0x9A]
  | .pha => [0x48]
  | .php => [0x08]
  | .pla => [0x68]
  | .plp => [0x28]
  | .adcImm v => [0x69, v]
  | .adcZp z => [0x65, z]
  | .adcZpx z => [0x75, z]
  | .adcAbs a => 0x6D :: addr16Bytes a
  | .adcAbsx a => 0x7D :: addr16Bytes a
  | .adcAbsy a => 0x79 :: addr16Bytes a
  | .adcIzx z => [0x61, z]
  | .adcIzy z => [0x71, z]
  | .sbcImm v => [0xE9, v]
  | .sbcZp z => [0xE5, z]
  | .sbcZpx z => [0xF5, z]
  | .sbcAbs a => 0xED :: addr16Bytes a
  | .sbcAbsx a => 0xFD :: addr16Bytes a
  | .sbcAbsy a => 0xF9 :: addr16Bytes a
  | .sbcIzx z => [0xE1, z]
  | .sbcIzy z => [0xF1, z]
  | .andImm v => [0x29, v]
  | .andZp z => [0x25, z]
  | .andZpx z => [0x35, z]
  | .andAbs a => 0x2D :: addr16Bytes a
  | .andAbsx a => 0x3D :: addr16Bytes a
  | .andAbsy a => 0x39 :: addr16Bytes a
  | .andIzx z => [0x21, z]
  | .andIzy z => [0x31, z]
  | .oraImm v => [0x09, v]
  | .oraZp z => [0x05, z]
  | .oraZpx z => [0x15, z]
  | .oraAbs a => 0x0D :: addr16Bytes a
  | .oraAbsx a => 0x1D :: addr16Bytes a
  | .oraAbsy a => 0x19 :: addr16Bytes a
  | .oraIzx z => [0x01, z]
  | .oraIzy z => [0x11, z]
  | .eorImm v => [0x49, v]
  | .eorZp z => [0x45, z]
  | .eorZpx z => [0x55, z]
  | .eorAbs a => 0x4D :: addr16Bytes a
  | .eorAbsx a => 0x5D :: addr16Bytes a
  | .eorAbsy a => 0x59 :: addr16Bytes a
  | .eorIzx z => [0x41, z]
  | .eorIzy z => [0x51, z]
  | .bitZp z => [0x24, z]
  | .bitAbs a => 0x2C :: addr16Bytes a
  | .cmpImm v => [0xC9, v]
  | .cmpZp z => [0xC5, z]
  | .cmpZpx z => [0xD5, z]
  | .cmpAbs a => 0xCD :: addr16Bytes a
  | .cmpAbsx a => 0xDD :: addr16Bytes a
  | .cmpAbsy a => 0xD9 :: addr16Bytes a
  | .cmpIzx z => [0xC1, z]
  | .cmpIzy z => [0xD1, z]
  | .cpxImm v => [0xE0, v]
  | .cpxZp z => [0xE4, z]
  | .cpxAbs a => 0xEC :: addr16Bytes a
  | .cpyImm v => [0xC0, v]
  | .cpyZp z => [0xC4, z]
  | .cpyAbs a => 0xCC :: addr16Bytes a
  | .incZp z => [0xE6, z]
  | .incZpx z => [0xF6, z]
  | .incAbs a => 0xEE :: addr16Bytes a
  | .incAbsx a => 0xFE :: addr16Bytes a
  | .decZp z => [0xC6, z]
  | .decZpx z => [0xD6, z]
  | .decAbs a => 0xCE :: addr16Bytes a
  | .decAbsx a => 0xDE :: addr16Bytes a
  | .inx => [0xE8]
  | .iny => [0xC8]
  | .dex => [0xCA]
  | .dey => [0x88]
  | .aslAcc => [0x0A]
  | .aslZp z => [0x06, z]
  | .aslZpx z => [0x16, z]
  | .aslAbs a => 0x0E :: addr16Bytes a
  | .aslAbsx a => 0x1E :: addr16Bytes a
  | .lsrAcc => [0x4A]
  | .lsrZp z => [0x46, z]
  | .lsrZpx z => [0x56, z]
  | .lsrAbs a => 0x4E :: addr16Bytes a
  | .lsrAbsx a => 0x5E :: addr16Bytes a
  | .rolAcc => [0x2A]
  | .rolZp z => [0x26, z]
  | .rolZpx z => [0x36, z]
  | .rolAbs a => 0x2E :: addr16Bytes a
  | .rolAbsx a => 0x3E :: addr16Bytes a
  | .rorAcc => [0x6A]
  | .rorZp z => [0x66, z]
  | .rorZpx z => [0x76, z]
  | .rorAbs a => 0x6E :: addr16Bytes a
  | .rorAbsx a => 0x7E :: addr16Bytes a
  | .jmpAbs a => 0x4C :: addr16Bytes a
  | .jmpInd a => 0x6C :: addr16Bytes a
  | .jsr a => 0x20 :: addr16Bytes a
  | .rts => [0x60]
  | .bcc d => [0x90, byteOfRel d]
  | .bcs d => [0xB0, byteOfRel d]
  | .beq d => [0xF0, byteOfRel d]
  | .bmi d => [0x30, byteOfRel d]
  | .bne d => [0xD0, byteOfRel d]
  | .bpl d => [0x10, byteOfRel d]
  | .bvc d => [0x50, byteOfRel d]
  | .bvs d => [0x70, byteOfRel d]
  | .clc => [0x18]
  | .sec => [0x38]
  | .cli => [0x58]
  | .sei => [0x78]
  | .cld => [0xD8]
  | .sed => [0xF8]
  | .clv => [0xB8]
  | .brk => [0x00]
  | .rti => [0x40]
  | .nop => [0xEA]

/-- The first three bytes of a number whose bit 0 is the least significant bit of the first byte. -/
def bytesOfNat (w : Nat) : List Byte :=
  [BitVec.ofNat 8 w, BitVec.ofNat 8 (w / 256), BitVec.ofNat 8 (w / 65536)]

/-- The instruction that the decoder reads from `nbits` bits numbered as spec/opcode_table.json numbers them; every
bit above them is 0. -/
def decodeTableWord (nbits w : Nat) : Option Instr :=
  (decode (bytesOfNat (w % 2 ^ nbits))).map Prod.fst

end Sys2Proof
end

