-- ==== Sys2Proof/Config.lean ====
section
/-! DEFINITION. What the hardware fixes once (00_scope R6), and the values the spec leaves OPEN. An OPEN value is an
opaque constant: no proof can see what it is, so whatever is proved holds for every value of it. -/

namespace Sys2Proof

/-- One resolved pixel of the framebuffer (65_ppu R488). -/
structure Rgb where
  r : Byte
  g : Byte
  b : Byte
  deriving DecidableEq, Repr, Inhabited

namespace Config

/-- `OPEN_BUS` (00_scope R6, 92_eei_decisions D12): the value of the `n`-th undriven read, at address `addr`.
A free value: the spec says any byte, drawn afresh at each read. -/
opaque openBus (addr : Word) (n : Nat) : Byte

/-- `PALETTE_RGB` (00_scope R6, D51): the colour of a palette index. A free value. -/
opaque paletteRgb (idx : BitVec 6) : Rgb

/-- `SAVE_TAG` (67_io_scheduler_host R592, 93 I3): the format tag of a snapshot. A free value. -/
opaque saveTag : Nat

/-- One of the two free naturals behind `SAMPLE_RATE`. -/
opaque sampleRateNum : Nat

/-- One of the two free naturals behind `SAMPLE_RATE`. -/
opaque sampleRateGap : Nat

/-- `CPU_HZ`, CPU cycles per second (00_scope R6); it only paces the audio samples. -/
def cpuHz : Rat := 39375000 / 22

/-- `SAMPLE_RATE` (00_scope R6, D52): "a positive rational below CPU_HZ". As the two free naturals range over all
naturals, this ranges over exactly those rationals (assumption log, entry 7). -/
def sampleRate : Rat :=
  cpuHz * ((sampleRateNum + 1 : Nat) : Rat) / ((sampleRateNum + sampleRateGap + 2 : Nat) : Rat)

/-- `DMC_STALL_CYCLES` (00_scope R6, D11). -/
def dmcStallCycles : Nat := 4

end Config
end Sys2Proof
end

