-- ==== Sys2Proof/Machine/State.lean ====
section
/-! DEFINITION. The state of the machine as plain data: every register and memory of 10_state, 20_memory, 65_ppu R462,
66_apu R520 and 67_io_scheduler_host R580, each under the spec's own name; the reasons a step can stop; and the state
right after power-on and its reset sequence (70_reset_and_hazards R611). -/

namespace Sys2Proof.Machine

/-- A byte memory as data: the addresses that do not read as `blankByte`, rising, each with its byte. -/
abbrev Memory := List Host.Cell

/-- What an address that a memory does not list reads as. The spec calls the contents of every memory after power-on
a draw (92_eei_decisions D25). DESIGN CHOICE 0 (assumption log, entry 4). -/
def blankByte : Byte := 0

/-- The stored status flags (10_state R36); B and bit 5 are not stored. -/
structure Flags where
  /-- Carry (R37). -/
  c : Bool
  /-- Zero (R38). -/
  z : Bool
  /-- Interrupt disable (R39). -/
  i : Bool
  /-- Decimal, stored and unused (R40). -/
  d : Bool
  /-- Overflow (R42). -/
  v : Bool
  /-- Negative (R43). -/
  n : Bool
  deriving DecidableEq, Repr

/-- The CPU state record (10_state R30, R48). -/
structure Cpu where
  a : Byte
  x : Byte
  y : Byte
  sp : Byte
  pc : Word
  p : Flags
  /-- The cumulative cycle counter (R46); it never wraps. -/
  cycles : Nat
  /-- The NMI edge latch (R48). -/
  nmiPending : Bool
  /-- CPU cycles owed to DMA, not yet applied (R48). -/
  stall : Nat
  /-- Set by a `DecodeError` (60_exceptions R410). -/
  halted : Bool
  /-- A write to 0x4014 happened in the current step (R48). -/
  oamDmaStarted : Bool
  faultPc : Word
  faultOpcode : Byte
  deriving DecidableEq, Repr

/-- The two PRG sizes of Mapper 0 (20_memory R77). -/
inductive PrgSize where
  | k16
  | k32
  deriving DecidableEq, Repr

/-- The two nametable arrangements (20_memory R80, 65_ppu R464). -/
inductive Mirroring where
  | horizontal
  | vertical
  deriving DecidableEq, Repr

/-- The Mapper-0 cartridge (20_memory R77-R80). -/
structure Cartridge where
  prgSize : PrgSize
  prg : Memory
  chr : Memory
  chrIsRam : Bool
  mirroring : Mirroring
  deriving DecidableEq, Repr

/-- One sprite of the current line (65_ppu R462, R484). -/
structure SpriteUnit where
  lo : Byte
  hi : Byte
  attr : Byte
  xpos : Byte
  valid : Bool
  deriving DecidableEq, Repr

/-- 256 × 240 pixels, `screen[s][px]` (65_ppu R488). -/
abbrev Screen := Vector (Vector Rgb 256) 240

/-- The PPU state (65_ppu R462). -/
structure Ppu where
  ctrl : Byte
  mask : Byte
  vblank : Bool
  sprite0 : Bool
  overflow : Bool
  oamaddr : Byte
  v : BitVec 15
  t : BitVec 15
  x : BitVec 3
  w : Bool
  readBuffer : Byte
  vram : Memory
  palette : Vector (BitVec 6) 32
  oam : Memory
  soam : Vector Byte 32
  soamCount : Nat
  sprite0Next : Bool
  units : Vector SpriteUnit 8
  sprite0Line : Bool
  ntLatch : Byte
  atLatch : BitVec 2
  ptLoLatch : Byte
  ptHiLatch : Byte
  bgLo : BitVec 16
  bgHi : BitVec 16
  atLo : BitVec 16
  atHi : BitVec 16
  scanline : Nat
  dot : Nat
  framebuffer : Screen
  frameOut : Screen
  frameComplete : Bool
  deriving DecidableEq, Repr

/-- The envelope of a pulse or noise channel (66_apu R520, R542). -/
structure Envelope where
  start : Bool
  div : BitVec 4
  decay : BitVec 4
  deriving DecidableEq, Repr

/-- A pulse channel (66_apu R520). -/
structure Pulse where
  duty : BitVec 2
  halt : Bool
  const : Bool
  vol : BitVec 4
  sweepEn : Bool
  sweepPer : BitVec 3
  sweepNeg : Bool
  sweepShift : BitVec 3
  sweepReload : Bool
  sweepDiv : BitVec 3
  timerPer : BitVec 11
  timer : BitVec 11
  seq : BitVec 3
  env : Envelope
  length : Nat
  enabled : Bool
  deriving DecidableEq, Repr

/-- The triangle channel (66_apu R520). -/
structure Triangle where
  ctrlHalt : Bool
  linReloadVal : BitVec 7
  lin : BitVec 7
  linReload : Bool
  timerPer : BitVec 11
  timer : BitVec 11
  seq : BitVec 5
  length : Nat
  enabled : Bool
  deriving DecidableEq, Repr

/-- The noise channel (66_apu R520). -/
structure Noise where
  halt : Bool
  const : Bool
  vol : BitVec 4
  env : Envelope
  mode : Bool
  perIdx : BitVec 4
  timer : BitVec 12
  lfsr : BitVec 15
  length : Nat
  enabled : Bool
  deriving DecidableEq, Repr

/-- The delta-modulation channel (66_apu R520). -/
structure Dmc where
  irqEn : Bool
  loop : Bool
  rateIdx : BitVec 4
  level : BitVec 7
  sampleAddr : Word
  sampleLen : BitVec 12
  curAddr : Word
  remaining : BitVec 12
  buffer : Byte
  bufferFull : Bool
  shift : Byte
  bitsLeft : Nat
  silence : Bool
  timer : BitVec 9
  deriving DecidableEq, Repr

/-- The APU state (66_apu R520). -/
structure Apu where
  pulse1 : Pulse
  pulse2 : Pulse
  triangle : Triangle
  noise : Noise
  dmc : Dmc
  frameIrq : Bool
  dmcIrq : Bool
  /-- 0 (false): 4-step; 1 (true): 5-step. -/
  fsMode : Bool
  fsInhibit : Bool
  fsCycle : Nat
  phase : Bool
  sampleAcc : Rat
  samples : List Rat
  deriving DecidableEq, Repr

/-- The controller ports (67_io_scheduler_host R580). -/
structure Pads where
  strobe : Bool
  shift1 : Byte
  shift2 : Byte
  buttons1 : Byte
  buttons2 : Byte
  deriving DecidableEq, Repr

/-- The whole machine. -/
structure State where
  cpu : Cpu
  /-- 2 KiB of internal RAM (20_memory R71). -/
  ram : Memory
  cart : Cartridge
  ppu : Ppu
  apu : Apu
  pads : Pads
  /-- The MODEL's own field: how many undriven reads were made, so that each reads a fresh free value
  (20_memory R76; assumption log, entry 2). -/
  openBusReads : Nat
  deriving DecidableEq, Repr

/-- Why the machine stops. -/
inductive Fault where
  /-- `DecodeError` (60_exceptions R410): the opcode byte fetched at `pc` is one of the 105 undocumented ones. Raised by
  the fetch (`cpuStep`), and again by every later step of a halted machine. It is the spec's own fault: safe. -/
  | decodeError (pc : Word) (opcode : Byte)
  deriving DecidableEq, Repr

/-- Why a step has no meaning. The spec has no refusal (00_scope R9). -/
inductive Refusal where
  /-- An instruction without a meaning in this model. No arm of `exec` answers it: every instruction is modelled. -/
  | notModelled (mnemonic : String)
  deriving DecidableEq, Repr

/-- What the hardware draws at power-on (00_scope R6 `DRAW`, 92 D7 and D25): any values. -/
structure Draw where
  a : Byte
  x : Byte
  y : Byte
  sp : Byte
  c : Bool
  z : Bool
  d : Bool
  v : Bool
  n : Bool
  ram : Memory
  chrRam : Memory
  vram : Memory
  palette : Vector (BitVec 6) 32
  oam : Memory
  framebuffer : Screen
  frameOut : Screen
  deriving DecidableEq, Repr

/-- A black screen. -/
def Screen.black : Screen := Vector.replicate 240 (Vector.replicate 256 ⟨0, 0, 0⟩)

/-- The draws that `State.reset` takes: zero everywhere. DESIGN CHOICE (assumption log, entries 3 and 4). -/
def Draw.zero : Draw where
  a := 0
  x := 0
  y := 0
  sp := 0
  c := false
  z := false
  d := false
  v := false
  n := false
  ram := []
  chrRam := []
  vram := []
  palette := Vector.replicate 32 0
  oam := []
  framebuffer := Screen.black
  frameOut := Screen.black

/-- The cartridge of `State.reset`: no ROM file is loaded, so its memories list nothing. DESIGN CHOICE of the 32 KiB
layout, CHR RAM and vertical mirroring (assumption log, entry 5). -/
def Cartridge.blank : Cartridge where
  prgSize := .k32
  prg := []
  chr := []
  chrIsRam := true
  mirroring := .vertical

/-- An empty sprite unit. -/
def SpriteUnit.empty : SpriteUnit := ⟨0, 0, 0, 0, false⟩

/-- The PPU at power-on (65_ppu R461). -/
def Ppu.powerOn (draw : Draw) : Ppu where
  ctrl := 0
  mask := 0
  vblank := false
  sprite0 := false
  overflow := false
  oamaddr := 0
  v := 0
  t := 0
  x := 0
  w := false
  readBuffer := 0
  vram := draw.vram
  palette := draw.palette
  oam := draw.oam
  soam := Vector.replicate 32 0
  soamCount := 0
  sprite0Next := false
  units := Vector.replicate 8 SpriteUnit.empty
  sprite0Line := false
  ntLatch := 0
  atLatch := 0
  ptLoLatch := 0
  ptHiLatch := 0
  bgLo := 0
  bgHi := 0
  atLo := 0
  atHi := 0
  scanline := 0
  dot := 0
  framebuffer := draw.framebuffer
  frameOut := draw.frameOut
  frameComplete := false

/-- An envelope at power-on. -/
def Envelope.powerOn : Envelope := ⟨false, 0, 0⟩

/-- A pulse channel at power-on (66_apu R520). -/
def Pulse.powerOn : Pulse where
  duty := 0
  halt := false
  const := false
  vol := 0
  sweepEn := false
  sweepPer := 0
  sweepNeg := false
  sweepShift := 0
  sweepReload := false
  sweepDiv := 0
  timerPer := 0
  timer := 0
  seq := 0
  env := Envelope.powerOn
  length := 0
  enabled := false

/-- The APU at power-on (66_apu R520, 92 D40). -/
def Apu.powerOn : Apu where
  pulse1 := Pulse.powerOn
  pulse2 := Pulse.powerOn
  triangle :=
    { ctrlHalt := false, linReloadVal := 0, lin := 0, linReload := false, timerPer := 0, timer := 0, seq := 0,
      length := 0, enabled := false }
  noise :=
    { halt := false, const := false, vol := 0, env := Envelope.powerOn, mode := false, perIdx := 0, timer := 0,
      lfsr := 1, length := 0, enabled := false }
  dmc :=
    { irqEn := false, loop := false, rateIdx := 0, level := 0, sampleAddr := 0xC000, sampleLen := 1,
      curAddr := 0x8000, remaining := 0, buffer := 0, bufferFull := false, shift := 0, bitsLeft := 8,
      silence := true, timer := 0 }
  frameIrq := false
  dmcIrq := false
  fsMode := false
  fsInhibit := false
  fsCycle := 0
  phase := false
  sampleAcc := 0
  samples := []

/-- The controllers at power-on (67_io_scheduler_host R580). -/
def Pads.powerOn : Pads := ⟨false, 0, 0, 0, 0⟩

/-- The machine right after power-on and its reset sequence (R611), with the draws and the blank cartridge named
above: the vector read from the blank ROM is 0x0000, and SP is `u8(0 - 3)`. -/
def State.reset : State where
  cpu :=
    { a := 0, x := 0, y := 0, sp := 0xFD, pc := 0x0000,
      p := { c := false, z := false, i := false, d := false, v := false, n := false },
      cycles := 7, nmiPending := false, stall := 0, halted := false, oamDmaStarted := false, faultPc := 0,
      faultOpcode := 0 }
  ram := []
  cart := Cartridge.blank
  ppu := Ppu.powerOn Draw.zero
  apu := Apu.powerOn
  pads := Pads.powerOn
  openBusReads := 0

end Sys2Proof.Machine
end

