-- ==== Sys2Proof/Machine/Bits.lean ====
section
/-! DEFINITION. Bit-field helpers in the spec's notation (00_scope R7): `v[hi:lo]` is `v.extractLsb hi lo`, `a ++ b` is
concatenation with `a` in the high bits. -/

namespace Sys2Proof.Machine

/-- A flag as a one-bit field. -/
def bit1 (b : Bool) : BitVec 1 := BitVec.ofBool b

/-- `page(a)`: the 256-byte page of an address (R7). -/
def page (a : Word) : Byte := a.extractLsb 15 8

/-- `zext_16` of a byte: an address in the zero page (R7, 30_encoding R134). -/
def zeroPage (z : Byte) : Word := wordOf z 0

/-- `sext_16` of a displacement (R7, 30_encoding R141): an integer modulo 2^16. -/
def displacement (d : Int) : Word := BitVec.ofInt 16 d

/-- `0x0100 + SP`: the stack address (10_state R34). -/
def stackAddr (sp : Byte) : Word := wordOf sp 1

/-- `reverse8` (65_ppu R484): the bits of a byte in the other order. -/
def reverse8 (b : Byte) : Byte :=
  b.extractLsb 0 0 ++ b.extractLsb 1 1 ++ b.extractLsb 2 2 ++ b.extractLsb 3 3 ++ b.extractLsb 4 4 ++
    b.extractLsb 5 5 ++ b.extractLsb 6 6 ++ b.extractLsb 7 7

end Sys2Proof.Machine
end

