-- ==== Sys2Proof/Machine/ApuUnits.lean ====
section
/-! DEFINITION. The APU's tables (66_apu R534), its envelope, sweep, length and linear units (R542-R544), and the
quarter-frame and half-frame clocks that drive them (R541). -/

namespace Sys2Proof.Machine

/-- `LENGTH_TABLE` (R534). -/
def lengthTable : List Nat :=
  [10, 254, 20, 2, 40, 4, 80, 6, 160, 8, 60, 10, 14, 12, 26, 14,
   12, 16, 24, 18, 48, 20, 96, 22, 192, 24, 72, 26, 16, 28, 32, 30]

/-- `NOISE_PERIOD` in CPU cycles (R534). -/
def noisePeriod : List Nat :=
  [4, 8, 16, 32, 64, 96, 128, 160, 202, 254, 380, 508, 762, 1016, 2034, 4068]

/-- `DMC_RATE` in CPU cycles (R534). -/
def dmcRate : List Nat :=
  [428, 380, 340, 320, 286, 254, 226, 214, 190, 160, 142, 128, 106, 84, 72, 54]

/-- `DUTY` (R534). -/
def dutyTable : List (List Nat) :=
  [[0, 1, 0, 0, 0, 0, 0, 0], [0, 1, 1, 0, 0, 0, 0, 0],
   [0, 1, 1, 1, 1, 0, 0, 0], [1, 0, 0, 1, 1, 1, 1, 1]]

/-- `TRI_SEQ` (R534). -/
def triSeq : List Nat :=
  [15, 14, 13, 12, 11, 10, 9, 8, 7, 6, 5, 4, 3, 2, 1, 0,
   0, 1, 2, 3, 4, 5, 6, 7, 8, 9, 10, 11, 12, 13, 14, 15]

/-- An entry of a table. -/
def entry (table : List Nat) (i : Nat) : Nat := table[i]?.getD 0

/-- `LENGTH_TABLE[d[7:3]]`, the length a channel loads (R524, R527, R530). -/
def loadedLength (d : Byte) : Nat := entry lengthTable (d.extractLsb 7 3).toNat

/-- `envelope_clock()` (R542). -/
def Envelope.clock (vol : BitVec 4) (loop : Bool) (e : Envelope) : Envelope :=
  if e.start then { start := false, decay := 15, div := vol }
  else if e.div = 0 then
    { e with
      div := vol
      decay := if e.decay ≠ 0 then e.decay - 1 else if loop then 15 else 0 }
  else { e with div := e.div - 1 }

/-- `envelope_out` (R542). -/
def envelopeOut (const : Bool) (vol : BitVec 4) (e : Envelope) : Nat :=
  if const then vol.toNat else e.decay.toNat

/-- `length_clock()` of one channel (R544). -/
def lengthClock (halt : Bool) (length : Nat) : Nat := if halt then length else length - 1

/-- The sweep's `target`, over the integers; pulse 1 subtracts one more (R543). -/
def Pulse.sweepTarget (isPulse1 : Bool) (p : Pulse) : Int :=
  if p.sweepNeg then
    (p.timerPer.toNat : Int) - (p.timerPer >>> p.sweepShift.toNat).toNat - (if isPulse1 then 1 else 0)
  else (p.timerPer.toNat : Int) + (p.timerPer >>> p.sweepShift.toNat).toNat

/-- The sweep's `muted` (R543). -/
def Pulse.muted (isPulse1 : Bool) (p : Pulse) : Bool :=
  decide (p.timerPer.toNat < 8) || decide (0x7FF < p.sweepTarget isPulse1)

/-- The period after the sweep's first line (R543). -/
def Pulse.sweptPeriod (isPulse1 : Bool) (p : Pulse) : BitVec 11 :=
  if p.sweepDiv = 0 ∧ p.sweepEn = true ∧ p.sweepShift ≠ 0 ∧ p.muted isPulse1 = false then
    BitVec.ofInt 11 (p.sweepTarget isPulse1)
  else p.timerPer

/-- `sweep_clock()` (R543). -/
def Pulse.sweepClock (isPulse1 : Bool) (p : Pulse) : Pulse :=
  if p.sweepDiv = 0 ∨ p.sweepReload = true then
    { p with timerPer := p.sweptPeriod isPulse1, sweepDiv := p.sweepPer, sweepReload := false }
  else { p with timerPer := p.sweptPeriod isPulse1, sweepDiv := p.sweepDiv - 1 }

/-- `linear_clock()` (R544): the counter, then the reload flag. -/
def Triangle.linearClock (t : Triangle) : Triangle :=
  { t with
    lin := if t.linReload then t.linReloadVal else if t.lin ≠ 0 then t.lin - 1 else 0
    linReload := t.linReload && t.ctrlHalt }

/-- A pulse channel at a quarter-frame clock. -/
def Pulse.quarter (p : Pulse) : Pulse := { p with env := p.env.clock p.vol p.halt }

/-- The noise channel at a quarter-frame clock. -/
def Noise.quarter (n : Noise) : Noise := { n with env := n.env.clock n.vol n.halt }

/-- A pulse channel at a half-frame clock. -/
def Pulse.half (isPulse1 : Bool) (p : Pulse) : Pulse :=
  Pulse.sweepClock isPulse1 { p with length := lengthClock p.halt p.length }

/-- `quarter_frame()` (R541). -/
def Apu.quarterFrame (u : Apu) : Apu :=
  { u with
    pulse1 := u.pulse1.quarter
    pulse2 := u.pulse2.quarter
    noise := u.noise.quarter
    triangle := u.triangle.linearClock }

/-- `half_frame()` (R541). -/
def Apu.halfFrame (u : Apu) : Apu :=
  { u with
    pulse1 := u.pulse1.half true
    pulse2 := u.pulse2.half false
    triangle := { u.triangle with length := lengthClock u.triangle.ctrlHalt u.triangle.length }
    noise := { u.noise with length := lengthClock u.noise.halt u.noise.length } }

end Sys2Proof.Machine
end

