-- ==== Sys2Proof/Machine/ApuRegs.lean ====
section
/-! DEFINITION. The writes of the APU's registers, 0x4000 to 0x4013, 0x4015 and 0x4017 (66_apu R521-R533), and the status
byte of 0x4015. -/

namespace Sys2Proof.Machine

/-- 0x4000 and 0x4004 (R521). -/
def Pulse.writeVolume (d : Byte) (p : Pulse) : Pulse :=
  { p with duty := d.extractLsb 7 6, halt := d.getLsbD 5, const := d.getLsbD 4, vol := d.extractLsb 3 0 }

/-- 0x4001 and 0x4005 (R522). -/
def Pulse.writeSweep (d : Byte) (p : Pulse) : Pulse :=
  { p with
    sweepEn := d.getLsbD 7
    sweepPer := d.extractLsb 6 4
    sweepNeg := d.getLsbD 3
    sweepShift := d.extractLsb 2 0
    sweepReload := true }

/-- 0x4002 and 0x4006 (R523): `timer_per[7:0]`. -/
def Pulse.writeTimerLow (d : Byte) (p : Pulse) : Pulse :=
  { p with timerPer := p.timerPer.extractLsb 10 8 ++ d }

/-- 0x4003 and 0x4007 (R524). -/
def Pulse.writeTimerHigh (d : Byte) (p : Pulse) : Pulse :=
  { p with
    timerPer := d.extractLsb 2 0 ++ p.timerPer.extractLsb 7 0
    length := if p.enabled then loadedLength d else p.length
    seq := 0
    env := { p.env with start := true } }

/-- 0x4008 (R525). -/
def Triangle.writeLinear (d : Byte) (t : Triangle) : Triangle :=
  { t with ctrlHalt := d.getLsbD 7, linReloadVal := d.extractLsb 6 0 }

/-- 0x400A (R526). -/
def Triangle.writeTimerLow (d : Byte) (t : Triangle) : Triangle :=
  { t with timerPer := t.timerPer.extractLsb 10 8 ++ d }

/-- 0x400B (R527). -/
def Triangle.writeTimerHigh (d : Byte) (t : Triangle) : Triangle :=
  { t with
    timerPer := d.extractLsb 2 0 ++ t.timerPer.extractLsb 7 0
    length := if t.enabled then loadedLength d else t.length
    linReload := true }

/-- 0x400C (R528). -/
def Noise.writeVolume (d : Byte) (n : Noise) : Noise :=
  { n with halt := d.getLsbD 5, const := d.getLsbD 4, vol := d.extractLsb 3 0 }

/-- 0x400E (R529). -/
def Noise.writePeriod (d : Byte) (n : Noise) : Noise :=
  { n with mode := d.getLsbD 7, perIdx := d.extractLsb 3 0 }

/-- 0x400F (R530): both effects of its one-line `if enabled`; a disabled channel ignores the write. -/
def Noise.writeLength (d : Byte) (n : Noise) : Noise :=
  { n with
    length := if n.enabled then loadedLength d else n.length
    env := if n.enabled then { n.env with start := true } else n.env }

/-- 0x4010 on the channel (R531). -/
def Dmc.writeControl (d : Byte) (c : Dmc) : Dmc :=
  { c with irqEn := d.getLsbD 7, loop := d.getLsbD 6, rateIdx := d.extractLsb 3 0 }

/-- 0x4011 (R531). -/
def Dmc.writeLevel (d : Byte) (c : Dmc) : Dmc := { c with level := d.extractLsb 6 0 }

/-- 0x4012 (R531): `0xC000 + 64 * d`. -/
def Dmc.writeAddr (d : Byte) (c : Dmc) : Dmc := { c with sampleAddr := BitVec.ofNat 16 (0xC000 + 64 * d.toNat) }

/-- 0x4013 (R531): `16 * d + 1`. -/
def Dmc.writeLen (d : Byte) (c : Dmc) : Dmc := { c with sampleLen := BitVec.ofNat 12 (16 * d.toNat + 1) }

/-- A write of the channel register 0x4000 + r (R521-R531); 0x4009 and 0x400D are unused and ignore it. -/
def Apu.writeReg (r : Nat) (d : Byte) (u : Apu) : Apu :=
  match r with
  | 0x00 => { u with pulse1 := u.pulse1.writeVolume d }
  | 0x01 => { u with pulse1 := u.pulse1.writeSweep d }
  | 0x02 => { u with pulse1 := u.pulse1.writeTimerLow d }
  | 0x03 => { u with pulse1 := u.pulse1.writeTimerHigh d }
  | 0x04 => { u with pulse2 := u.pulse2.writeVolume d }
  | 0x05 => { u with pulse2 := u.pulse2.writeSweep d }
  | 0x06 => { u with pulse2 := u.pulse2.writeTimerLow d }
  | 0x07 => { u with pulse2 := u.pulse2.writeTimerHigh d }
  | 0x08 => { u with triangle := u.triangle.writeLinear d }
  | 0x0A => { u with triangle := u.triangle.writeTimerLow d }
  | 0x0B => { u with triangle := u.triangle.writeTimerHigh d }
  | 0x0C => { u with noise := u.noise.writeVolume d }
  | 0x0E => { u with noise := u.noise.writePeriod d }
  | 0x0F => { u with noise := u.noise.writeLength d }
  | 0x10 => { u with dmc := u.dmc.writeControl d, dmcIrq := u.dmcIrq && d.getLsbD 7 }
  | 0x11 => { u with dmc := u.dmc.writeLevel d }
  | 0x12 => { u with dmc := u.dmc.writeAddr d }
  | 0x13 => { u with dmc := u.dmc.writeLen d }
  | _ => u

/-- The DMC's part of a 0x4015 write (R532). -/
def Dmc.enable (on : Bool) (c : Dmc) : Dmc :=
  if on then
    if c.remaining = 0 then { c with curAddr := c.sampleAddr, remaining := c.sampleLen } else c
  else { c with remaining := 0 }

/-- The length a channel keeps when its enable bit is written: 0 when it is cleared (R532). -/
def keptLength (on : Bool) (length : Nat) : Nat := if on then length else 0

/-- A write of 0x4015 (R532). -/
def Apu.writeStatus (d : Byte) (u : Apu) : Apu :=
  { u with
    pulse1 := { u.pulse1 with enabled := d.getLsbD 0, length := keptLength (d.getLsbD 0) u.pulse1.length }
    pulse2 := { u.pulse2 with enabled := d.getLsbD 1, length := keptLength (d.getLsbD 1) u.pulse2.length }
    triangle := { u.triangle with enabled := d.getLsbD 2, length := keptLength (d.getLsbD 2) u.triangle.length }
    noise := { u.noise with enabled := d.getLsbD 3, length := keptLength (d.getLsbD 3) u.noise.length }
    dmc := u.dmc.enable (d.getLsbD 4)
    dmcIrq := false }

/-- The byte a read of 0x4015 gives, bit 5 of it undriven (R532). -/
def Apu.statusByte (ob : Byte) (u : Apu) : Byte :=
  Machine.bit1 u.dmcIrq ++ Machine.bit1 u.frameIrq ++ ob.extractLsb 5 5 ++
    Machine.bit1 (decide (u.dmc.remaining ≠ 0)) ++ Machine.bit1 (decide (0 < u.noise.length)) ++
    Machine.bit1 (decide (0 < u.triangle.length)) ++ Machine.bit1 (decide (0 < u.pulse2.length)) ++
    Machine.bit1 (decide (0 < u.pulse1.length))

/-- The effect of a read of 0x4015 (R532). -/
def Apu.afterStatusRead (u : Apu) : Apu := { u with frameIrq := false }

/-- The fields a 0x4017 write sets (R533). -/
def Apu.setFrameCounter (d : Byte) (u : Apu) : Apu :=
  { u with
    fsMode := d.getLsbD 7
    fsInhibit := d.getLsbD 6
    frameIrq := u.frameIrq && !d.getLsbD 6
    fsCycle := 0 }

/-- A write of 0x4017 (R533): in 5-step mode both clocks run at once. -/
def Apu.writeFrameCounter (d : Byte) (u : Apu) : Apu :=
  if d.getLsbD 7 then (u.setFrameCounter d).quarterFrame.halfFrame else u.setFrameCounter d

/-- `irq_request()` (R545): a level. -/
def Apu.irqRequest (u : Apu) : Bool := u.frameIrq || u.dmcIrq

end Sys2Proof.Machine
end

