-- ==== Sys2Proof/Machine/Flags.lean ====
section
/-! DEFINITION. The status register: its pushed and pulled forms (10_state R44, R45) and every flag computation
(42_arithmetic_logic R260-R270, 43_inc_dec_shift R307-R310). -/

namespace Sys2Proof.Machine

/-- `PackP(b)` (R44): N, V, 1, b, D, I, Z, C from bit 7 down. -/
def packP (b : Bool) (p : Flags) : Byte :=
  bit1 p.n ++ bit1 p.v ++ bit1 true ++ bit1 b ++ bit1 p.d ++ bit1 p.i ++ bit1 p.z ++ bit1 p.c

/-- The flags pulled from a byte (R45); bits 5 and 4 are ignored. -/
def unpackP (v : Byte) : Flags where
  c := v.getLsbD 0
  z := v.getLsbD 1
  i := v.getLsbD 2
  d := v.getLsbD 3
  v := v.getLsbD 6
  n := v.getLsbD 7

/-- `SetNZ(v)` (R260). -/
def Flags.setNZ (r : Byte) (p : Flags) : Flags := { p with n := r.getLsbD 7, z := decide (r = 0) }

/-- The exact sum of ADC (R261): A + m + C over the integers, 0 to 511. -/
def adcSum (a m : Byte) (c : Bool) : Nat := a.toNat + m.toNat + c.toNat

/-- The byte of the sum. -/
def adcResult (a m : Byte) (c : Bool) : Byte := BitVec.ofNat 8 (adcSum a m c)

/-- The carry out of the sum: `sum > 255` (R261). -/
def adcCarry (a m : Byte) (c : Bool) : Bool := decide (255 < adcSum a m c)

/-- The signed overflow of the sum: operands of equal sign, result of the other (R261). -/
def adcOverflow (a m : Byte) (c : Bool) : Bool :=
  (~~~(a ^^^ m) &&& (a ^^^ adcResult a m c)).getLsbD 7

/-- The flags after ADC (R261). D is unused (10_state R40). -/
def Flags.adc (a m : Byte) (p : Flags) : Flags :=
  Flags.setNZ (adcResult a m p.c) { p with c := adcCarry a m p.c, v := adcOverflow a m p.c }

/-- `Compare(r, m)` (R270). -/
def Flags.compare (r m : Byte) (p : Flags) : Flags :=
  { p with c := decide (m.toNat ≤ r.toNat), z := decide (r = m), n := (r - m).getLsbD 7 }

/-- BIT (R266): Z from `A & m`, N and V from bits 7 and 6 of `m`. -/
def Flags.bitTest (a m : Byte) (p : Flags) : Flags :=
  { p with z := decide (a &&& m = 0), n := m.getLsbD 7, v := m.getLsbD 6 }

/-- Carry and SetNZ of a shift or rotate (R307-R310): `c` is the bit shifted out. -/
def Flags.shifted (c : Bool) (r : Byte) (p : Flags) : Flags := Flags.setNZ r { p with c := c }

end Sys2Proof.Machine
end

