-- ==== Sys2Proof/Machine/Pads.lean ====
section
/-! DEFINITION. The controller ports (67_io_scheduler_host R580-R582). -/

namespace Sys2Proof.Machine

/-- A write to 0x4016 (R580): the strobe, and while it is 1 both shift registers reload. -/
def Pads.write (d : Byte) (k : Pads) : Pads :=
  if d.getLsbD 0 then { k with strobe := true, shift1 := k.buttons1, shift2 := k.buttons2 }
  else { k with strobe := false }

/-- The bit a read of a port gives: button A while the strobe is 1, else bit 0 of the shift register (R581). -/
def padBit (strobe : Bool) (buttons shift : Byte) : Bool :=
  if strobe then buttons.getLsbD 0 else shift.getLsbD 0

/-- The shift register after a read: reloaded while the strobe is 1, else shifted with a 1 entering (R581). -/
def padShift (strobe : Bool) (buttons shift : Byte) : Byte :=
  if strobe then buttons else shift >>> 1 ||| 0x80

/-- The bit of a port 1 read. -/
def Pads.bit1 (k : Pads) : Bool := padBit k.strobe k.buttons1 k.shift1

/-- The bit of a port 2 read. -/
def Pads.bit2 (k : Pads) : Bool := padBit k.strobe k.buttons2 k.shift2

/-- The effect of a port 1 read. -/
def Pads.afterRead1 (k : Pads) : Pads := { k with shift1 := padShift k.strobe k.buttons1 k.shift1 }

/-- The effect of a port 2 read. -/
def Pads.afterRead2 (k : Pads) : Pads := { k with shift2 := padShift k.strobe k.buttons2 k.shift2 }

/-- `OPEN_BUS(addr)[7:1] ++ bit`: the byte of a port read (R581). -/
def padByte (ob : Byte) (b : Bool) : Byte := ob.extractLsb 7 1 ++ Machine.bit1 b

end Sys2Proof.Machine
end

