-- ==== Sys2Proof/Machine/Memory.lean ====
section
/-! DEFINITION. Reading and writing a memory (a canonical list of cells), and the undriven read. -/

namespace Sys2Proof.Machine

/-- The byte at an address; an address that is not listed reads as `blankByte`. -/
def Memory.read : Memory → Nat → Byte
  | [], _ => blankByte
  | (k, u) :: rest, a => if k = a then u else Memory.read rest a

/-- Put a byte at the head of a list of cells, unless it is what an unlisted address reads as. -/
def Memory.cons (a : Nat) (v : Byte) (m : Memory) : Memory :=
  if v = blankByte then m else (a, v) :: m

/-- Store a byte, keeping the cells canonical: addresses rising, none equal to `blankByte`. -/
def Memory.write : Memory → Nat → Byte → Memory
  | [], a, v => Memory.cons a v []
  | (k, u) :: rest, a, v =>
    if a < k then Memory.cons a v ((k, u) :: rest)
    else if a = k then Memory.cons a v rest
    else (k, u) :: Memory.write rest a v

/-- The memory that holds these bytes from address `base` on. -/
def Memory.ofBytes (base : Nat) : List Byte → Memory
  | [] => []
  | v :: rest => Memory.cons base v (Memory.ofBytes (base + 1) rest)

/-- The canonical form: addresses strictly rising, and no cell equal to what an unlisted address reads as. -/
abbrev Memory.wf (m : Memory) : Prop :=
  m.Pairwise (fun c d => c.1 < d.1) ∧ ∀ c ∈ m, c.2 ≠ blankByte

/-- Every listed address is below `n`: the memory's size. -/
abbrev Memory.below (n : Nat) (m : Memory) : Prop := ∀ c ∈ m, c.1 < n

/-- One undriven read (20_memory R76): a fresh free value, and the count of such reads goes up. -/
def undrivenRead (addr : Word) (s : State) : Byte × State :=
  (Config.openBus addr s.openBusReads, { s with openBusReads := s.openBusReads + 1 })

end Sys2Proof.Machine
end

