-- ==== Sys2Proof/Machine/PpuRegs.lean ====
section
/-! DEFINITION. The PPU's own address space (65_ppu R463-R466) and the effects of its eight CPU-visible registers on the
PPU (R450-R459). Undriven bits are arguments here; the bus draws them (Ops.lean). -/

namespace Sys2Proof.Machine

/-- The registers at 0x2000 to 0x2007 (R450). -/
inductive PpuReg where
  | ppuctrl
  | ppumask
  | ppustatus
  | oamaddr
  | oamdata
  | ppuscroll
  | ppuaddr
  | ppudata
  deriving DecidableEq, Repr

/-- The register that `addr & 7` selects (R450). -/
def ppuRegOf : Nat → PpuReg
  | 0 => .ppuctrl
  | 1 => .ppumask
  | 2 => .ppustatus
  | 3 => .oamaddr
  | 4 => .oamdata
  | 5 => .ppuscroll
  | 6 => .ppuaddr
  | _ => .ppudata

/-! ### Fields of PPUCTRL and PPUMASK (R451, R452) -/

def Ppu.inc32 (p : Ppu) : Bool := p.ctrl.getLsbD 2
def Ppu.spTable (p : Ppu) : Bool := p.ctrl.getLsbD 3
def Ppu.bgTable (p : Ppu) : Bool := p.ctrl.getLsbD 4
def Ppu.spSize (p : Ppu) : Bool := p.ctrl.getLsbD 5
def Ppu.nmiEnable (p : Ppu) : Bool := p.ctrl.getLsbD 7
def Ppu.grey (p : Ppu) : Bool := p.mask.getLsbD 0
def Ppu.bgLeft (p : Ppu) : Bool := p.mask.getLsbD 1
def Ppu.spLeft (p : Ppu) : Bool := p.mask.getLsbD 2
def Ppu.showBg (p : Ppu) : Bool := p.mask.getLsbD 3
def Ppu.showSp (p : Ppu) : Bool := p.mask.getLsbD 4

/-- `rendering` (R452). -/
def Ppu.rendering (p : Ppu) : Bool := p.showBg || p.showSp

/-! ### The PPU address space -/

/-- `nt_index(a)` (R464). -/
def ntIndex (m : Mirroring) (a : Nat) : Nat :=
  match m with
  | .vertical => (a - 0x2000) % 0x1000 / 0x400 % 2 * 0x400 + (a - 0x2000) % 0x400
  | .horizontal => (a - 0x2000) % 0x1000 / 0x400 / 2 * 0x400 + (a - 0x2000) % 0x400

/-- `pal_index(a)` (R465): 0x10, 0x14, 0x18 and 0x1C are the cells 0x00, 0x04, 0x08 and 0x0C. -/
def palIndex (a : Nat) : Nat :=
  if 0x10 ≤ a % 0x20 ∧ a % 4 = 0 then a % 0x20 - 0x10 else a % 0x20

/-- A palette cell. -/
def Ppu.color (p : Ppu) (a : Nat) : BitVec 6 := (p.palette[palIndex a]?).getD 0

/-- `PpuRead(a)` (R463). -/
def ppuRead (c : Cartridge) (p : Ppu) (a : BitVec 14) : Byte :=
  if a.toNat ≤ 0x1FFF then c.chr.read a.toNat
  else if a.toNat ≤ 0x3EFF then p.vram.read (ntIndex c.mirroring a.toNat)
  else (p.color a.toNat).setWidth 8

/-- `PpuWrite(a, d)` (R463): into CHR RAM, the nametables or the palette; ignored for CHR ROM (20_memory R79). -/
def ppuWrite (a : BitVec 14) (d : Byte) (s : State) : State :=
  if a.toNat ≤ 0x1FFF then
    if s.cart.chrIsRam then { s with cart := { s.cart with chr := s.cart.chr.write a.toNat d } } else s
  else if a.toNat ≤ 0x3EFF then
    { s with ppu := { s.ppu with vram := s.ppu.vram.write (ntIndex s.cart.mirroring a.toNat) d } }
  else
    { s with ppu := { s.ppu with palette := s.ppu.palette.setIfInBounds (palIndex a.toNat) (d.extractLsb 5 0) } }

/-! ### Register writes -/

/-- PPUCTRL without its NMI effect: the byte, and `t[11:10]` (R451). -/
def Ppu.writeCtrl (d : Byte) (p : Ppu) : Ppu :=
  { p with ctrl := d, t := p.t.extractLsb 14 12 ++ d.extractLsb 1 0 ++ p.t.extractLsb 9 0 }

/-- Whether a PPUCTRL write raises NMI: bit 7 goes from 0 to 1 during VBlank (R451, 92 D20). -/
def Ppu.ctrlRaisesNmi (d : Byte) (p : Ppu) : Bool := !p.nmiEnable && d.getLsbD 7 && p.vblank

/-- PPUMASK (R452). -/
def Ppu.writeMask (d : Byte) (p : Ppu) : Ppu := { p with mask := d }

/-- OAMADDR (R454). -/
def Ppu.writeOamAddr (d : Byte) (p : Ppu) : Ppu := { p with oamaddr := d }

/-- OAMDATA (R455): store, and increment the index modulo 256. -/
def Ppu.writeOamData (d : Byte) (p : Ppu) : Ppu :=
  { p with oam := p.oam.write p.oamaddr.toNat d, oamaddr := p.oamaddr + 1 }

/-- PPUSCROLL (R456): the two-write protocol on `t`, `x` and `w`. -/
def Ppu.writeScroll (d : Byte) (p : Ppu) : Ppu :=
  if p.w then
    { p with
      t := d.extractLsb 2 0 ++ p.t.extractLsb 11 10 ++ d.extractLsb 7 3 ++ p.t.extractLsb 4 0
      w := false }
  else { p with t := p.t.extractLsb 14 5 ++ d.extractLsb 7 3, x := d.extractLsb 2 0, w := true }

/-- PPUADDR (R457): the two-write protocol on `t`, `v` and `w`. -/
def Ppu.writeAddr (d : Byte) (p : Ppu) : Ppu :=
  if p.w then
    { p with t := p.t.extractLsb 14 8 ++ d, v := p.t.extractLsb 14 8 ++ d, w := false }
  else { p with t := bit1 false ++ d.extractLsb 5 0 ++ p.t.extractLsb 7 0, w := true }

/-- The address a PPUDATA access uses: `v[13:0]` (R458, R459). -/
def Ppu.dataAddr (p : Ppu) : BitVec 14 := p.v.extractLsb 13 0

/-- The increment of `v` after a PPUDATA access, modulo 2^15 (R458). -/
def Ppu.bumpV (p : Ppu) : Ppu := { p with v := p.v + (if p.inc32 then 32 else 1) }

/-! ### Register reads -/

/-- The byte a PPUSTATUS read gives, `ob` its undriven bits (R453). -/
def Ppu.statusByte (ob : Byte) (p : Ppu) : Byte :=
  bit1 p.vblank ++ bit1 p.sprite0 ++ bit1 p.overflow ++ ob.extractLsb 4 0

/-- The effect of a PPUSTATUS read (R453). -/
def Ppu.afterStatusRead (p : Ppu) : Ppu := { p with vblank := false, w := false }

/-- The byte an OAMDATA read gives (R455). -/
def Ppu.oamDataByte (p : Ppu) : Byte := p.oam.read p.oamaddr.toNat

/-- Whether PPUDATA addresses the palette (R458). -/
def Ppu.dataIsPalette (p : Ppu) : Bool := decide (0x3F00 ≤ p.dataAddr.toNat)

/-- The byte a PPUDATA read of a palette address gives, `ob` its undriven bits (R458). -/
def Ppu.paletteByte (c : Cartridge) (ob : Byte) (p : Ppu) : Byte :=
  ob.extractLsb 7 6 ++ (ppuRead c p p.dataAddr).extractLsb 5 0

/-- The read buffer after a PPUDATA read: for a palette address, the nametable byte under the palette (R458). -/
def Ppu.dataRefill (c : Cartridge) (p : Ppu) : Byte :=
  if p.dataIsPalette then ppuRead c p (p.dataAddr - 0x1000) else ppuRead c p p.dataAddr

/-- The effect of a PPUDATA read (R458). -/
def Ppu.afterDataRead (c : Cartridge) (p : Ppu) : Ppu :=
  Ppu.bumpV { p with readBuffer := p.dataRefill c }

end Sys2Proof.Machine
end

