-- ==== Sys2Proof/Machine/Ops.lean ====
section
/-! DEFINITION. The named operations: register updates, the CPU bus with its one decoder (20_memory R70-R78), OAM DMA
(65_ppu R470), the stack (10_state R34), taking an exception (60_exceptions R402, R403, 45 R378) and the return from
one (45 R379). Every CPU access goes through `busRead` and `busWrite`. -/

namespace Sys2Proof.Machine

/-! ### Register updates -/

def Cpu.setA (v : Byte) (c : Cpu) : Cpu := { c with a := v }
def Cpu.setX (v : Byte) (c : Cpu) : Cpu := { c with x := v }
def Cpu.setY (v : Byte) (c : Cpu) : Cpu := { c with y := v }
def Cpu.setSp (v : Byte) (c : Cpu) : Cpu := { c with sp := v }
def Cpu.setPc (v : Word) (c : Cpu) : Cpu := { c with pc := v }
def Cpu.setP (v : Flags) (c : Cpu) : Cpu := { c with p := v }

/-- An update of the CPU record alone. -/
def State.mapCpu (f : Cpu → Cpu) (s : State) : State := { s with cpu := f s.cpu }

/-- An update of the PPU record alone. -/
def State.mapPpu (f : Ppu → Ppu) (s : State) : State := { s with ppu := f s.ppu }

/-- An update of the APU record alone. -/
def State.mapApu (f : Apu → Apu) (s : State) : State := { s with apu := f s.apu }

/-- An update of the controller ports alone. -/
def State.mapPads (f : Pads → Pads) (s : State) : State := { s with pads := f s.pads }

/-- `PC <- u16(PC + length)` (35_execution R174). -/
def advancePc (len : Nat) (s : State) : State := s.mapCpu fun c => c.setPc (c.pc + BitVec.ofNat 16 len)

/-- `cycles <- cycles + c` (35_execution R170, R176). -/
def spend (cost : Nat) (s : State) : State := s.mapCpu fun c => { c with cycles := c.cycles + cost }

/-! ### The CPU bus -/

/-- What an address selects (20_memory R70). -/
inductive BusTarget where
  /-- 0x0000-0x1FFF: internal RAM, mirrored every 0x0800. -/
  | ram (offset : Nat)
  /-- 0x2000-0x3FFF: a PPU register, mirrored every 8 bytes. -/
  | ppu (r : PpuReg)
  /-- 0x4000-0x4013: the APU channel register 0x4000 + r. -/
  | apu (r : Nat)
  /-- 0x4014. -/
  | oamDma
  /-- 0x4015. -/
  | apuStatus
  /-- 0x4016. -/
  | port1
  /-- 0x4017: port 2 for a read, the frame counter for a write (90_conflicts C5). -/
  | port2
  /-- 0x4018-0x7FFF: nothing is there. -/
  | unmapped
  /-- 0x8000-0xFFFF: PRG ROM, at this offset of the window. -/
  | prg (offset : Nat)
  deriving DecidableEq, Repr

/-- The bus decoder (20_memory R70). -/
def busTarget (addr : Word) : BusTarget :=
  if addr.toNat < 0x2000 then .ram (addr.toNat % 0x800)
  else if addr.toNat < 0x4000 then .ppu (ppuRegOf (addr.toNat % 8))
  else if addr.toNat < 0x4014 then .apu (addr.toNat - 0x4000)
  else if addr.toNat = 0x4014 then .oamDma
  else if addr.toNat = 0x4015 then .apuStatus
  else if addr.toNat = 0x4016 then .port1
  else if addr.toNat = 0x4017 then .port2
  else if addr.toNat < 0x8000 then .unmapped
  else .prg (addr.toNat - 0x8000)

/-- The number of bytes of a PRG size (20_memory R77). -/
def PrgSize.bytes : PrgSize → Nat
  | .k16 => 0x4000
  | .k32 => 0x8000

/-- A PRG ROM byte: `prg[(addr - 0x8000) mod PRG_SIZE]` (20_memory R77). -/
def Cartridge.prgByte (c : Cartridge) (offset : Nat) : Byte := c.prg.read (offset % c.prgSize.bytes)

/-- A CPU read of a PPU register (65_ppu R450-R458). -/
def ppuRegRead (r : PpuReg) (addr : Word) (s : State) : Byte × State :=
  match r with
  | .ppustatus =>
    let ob := undrivenRead 0x2002 s
    (s.ppu.statusByte ob.1, ob.2.mapPpu Ppu.afterStatusRead)
  | .oamdata => (s.ppu.oamDataByte, s)
  | .ppudata =>
    if s.ppu.dataIsPalette then
      let ob := undrivenRead 0x2007 s
      (s.ppu.paletteByte s.cart ob.1, ob.2.mapPpu (Ppu.afterDataRead s.cart))
    else (s.ppu.readBuffer, s.mapPpu (Ppu.afterDataRead s.cart))
  | .ppuctrl | .ppumask | .oamaddr | .ppuscroll | .ppuaddr => undrivenRead addr s

/-- `MemRead(addr, 1)` (00_scope R8): the byte, and the state with the read's side effect (20_memory R70, R75). -/
def busRead (addr : Word) (s : State) : Byte × State :=
  match busTarget addr with
  | .ram offset => (s.ram.read offset, s)
  | .ppu r => ppuRegRead r addr s
  | .apu _ | .oamDma | .unmapped => undrivenRead addr s
  | .apuStatus =>
    let ob := undrivenRead addr s
    (s.apu.statusByte ob.1, ob.2.mapApu Apu.afterStatusRead)
  | .port1 =>
    let ob := undrivenRead addr s
    (padByte ob.1 s.pads.bit1, ob.2.mapPads Pads.afterRead1)
  | .port2 =>
    let ob := undrivenRead addr s
    (padByte ob.1 s.pads.bit2, ob.2.mapPads Pads.afterRead2)
  | .prg offset => (s.cart.prgByte offset, s)

/-- `MemRead16(addr)` (00_scope R8): two byte reads, low byte first. -/
def busRead16 (addr : Word) (s : State) : Word × State :=
  let lo := busRead addr s
  let hi := busRead (addr + 1) lo.2
  (wordOf lo.1 hi.1, hi.2)

/-- One byte of an OAM DMA: `oam[u8(oamaddr + i)] <- MemRead((d ++ 0x00) + i, 1)` (65_ppu R470). -/
def oamDmaByte (d : Byte) (s : State) (i : Nat) : State :=
  let r := busRead (wordOf (BitVec.ofNat 8 i) d) s
  r.2.mapPpu fun p => { p with oam := p.oam.write (p.oamaddr + BitVec.ofNat 8 i).toNat r.1 }

/-- A write of `d` to 0x4014 (65_ppu R470): the copy, and the mark from which the step's end takes the stall. -/
def oamDma (d : Byte) (s : State) : State :=
  ((List.range 256).foldl (oamDmaByte d) s).mapCpu fun c => { c with oamDmaStarted := true }

/-- A CPU write of a PPU register (65_ppu R450-R459). A PPUCTRL write may raise NMI; a PPUSTATUS write is ignored. -/
def ppuRegWrite (r : PpuReg) (d : Byte) (s : State) : State :=
  match r with
  | .ppuctrl =>
    (s.mapPpu (Ppu.writeCtrl d)).mapCpu fun c => { c with nmiPending := c.nmiPending || s.ppu.ctrlRaisesNmi d }
  | .ppumask => s.mapPpu (Ppu.writeMask d)
  | .ppustatus => s
  | .oamaddr => s.mapPpu (Ppu.writeOamAddr d)
  | .oamdata => s.mapPpu (Ppu.writeOamData d)
  | .ppuscroll => s.mapPpu (Ppu.writeScroll d)
  | .ppuaddr => s.mapPpu (Ppu.writeAddr d)
  | .ppudata => (ppuWrite s.ppu.dataAddr d s).mapPpu Ppu.bumpV

/-- `MemWrite(addr, 1, d)` (00_scope R8), with the write's side effect (20_memory R70, R75). Writes to PRG ROM and to
unmapped addresses are ignored (R76, R78). -/
def busWrite (addr : Word) (d : Byte) (s : State) : State :=
  match busTarget addr with
  | .ram offset => { s with ram := s.ram.write offset d }
  | .ppu r => ppuRegWrite r d s
  | .apu r => s.mapApu (Apu.writeReg r d)
  | .oamDma => oamDma d s
  | .apuStatus => s.mapApu (Apu.writeStatus d)
  | .port1 => s.mapPads (Pads.write d)
  | .port2 => s.mapApu (Apu.writeFrameCounter d)
  | .unmapped => s
  | .prg _ => s

/-! ### The stack -/

/-- `Push(v)` (10_state R34). -/
def push (v : Byte) (s : State) : State :=
  (busWrite (stackAddr s.cpu.sp) v s).mapCpu fun c => c.setSp (c.sp - 1)

/-- `Pull()` (10_state R34). -/
def pull (s : State) : Byte × State :=
  let s' := s.mapCpu fun c => c.setSp (c.sp + 1)
  busRead (stackAddr s'.cpu.sp) s'

/-- Push a 16-bit quantity: high byte first, so the low byte lies at the lower address (20_memory R72). -/
def pushWord (w : Word) (s : State) : State := push (loByte w) (push (hiByte w) s)

/-- Pull a 16-bit quantity: low byte first. -/
def pullWord (s : State) : Word × State :=
  let lo := pull s
  let hi := pull lo.2
  (wordOf lo.1 hi.1, hi.2)

/-! ### Exceptions -/

/-- Taking an exception (60_exceptions R402, 45_flags_system R378): push the return address and P (with B = `b`), set I,
and load PC from the vector. -/
def enterException (vector : Word) (b : Bool) (ret : Word) (s : State) : State :=
  let saved := push (packP b s.cpu.p) (pushWord ret s)
  let target := busRead16 vector saved
  target.2.mapCpu fun c => (c.setP { c.p with i := true }).setPc target.1

/-- The vectors (60_exceptions R401). -/
def nmiVector : Word := 0xFFFA
def resetVector : Word := 0xFFFC
def irqVector : Word := 0xFFFE

/-- NMI entry (60_exceptions R403): clear the edge, then enter. It costs 7 cycles. -/
def enterNmi (s : State) : State :=
  spend 7 (enterException nmiVector false s.cpu.pc (s.mapCpu fun c => { c with nmiPending := false }))

/-- IRQ entry (60_exceptions R402). It costs 7 cycles and does not clear the request. -/
def enterIrq (s : State) : State := spend 7 (enterException irqVector false s.cpu.pc s)

/-- Pull P (10_state R45). -/
def pullP (s : State) : State :=
  let v := pull s
  v.2.mapCpu (Cpu.setP (unpackP v.1))

/-- The return from an exception (45_flags_system R379): pull P, then PC, without adding 1. -/
def returnFromException (s : State) : State :=
  let ret := pullWord (pullP s)
  ret.2.mapCpu (Cpu.setPc ret.1)

end Sys2Proof.Machine
end

