-- ==== Sys2Proof/Machine/ApuCycle.lean ====
section
/-! DEFINITION. The APU's cycle (66_apu R540): the frame sequencer (R541), the channel timers (R546-R549), the DMC's memory
reader and its stall (R560), the mixer (R565) and the sample stream (R566). -/

namespace Sys2Proof.Machine

/-! ### The frame sequencer (R541) -/

/-- The sequencer's events in 4-step mode. -/
def Apu.fourStep (u : Apu) : Apu :=
  if u.fsCycle = 7457 then u.quarterFrame
  else if u.fsCycle = 14913 then u.quarterFrame.halfFrame
  else if u.fsCycle = 22371 then u.quarterFrame
  else if u.fsCycle = 29829 then
    { u.quarterFrame.halfFrame with frameIrq := u.frameIrq || !u.fsInhibit }
  else if u.fsCycle = 29830 then { u with fsCycle := 0 }
  else u

/-- The sequencer's events in 5-step mode. -/
def Apu.fiveStep (u : Apu) : Apu :=
  if u.fsCycle = 7457 then u.quarterFrame
  else if u.fsCycle = 14913 then u.quarterFrame.halfFrame
  else if u.fsCycle = 22371 then u.quarterFrame
  else if u.fsCycle = 37281 then u.quarterFrame.halfFrame
  else if u.fsCycle = 37282 then { u with fsCycle := 0 }
  else u

/-- One cycle counted. -/
def Apu.countCycle (u : Apu) : Apu := { u with fsCycle := u.fsCycle + 1 }

/-- `frame_sequencer_tick()`. -/
def Apu.sequencerTick (u : Apu) : Apu :=
  if u.fsMode then u.countCycle.fiveStep else u.countCycle.fourStep

/-! ### Channels -/

/-- `triangle_timer_tick()` (R547). -/
def Triangle.tick (t : Triangle) : Triangle :=
  if t.timer = 0 then
    { t with
      timer := t.timerPer
      seq := if t.lin ≠ 0 ∧ 0 < t.length then t.seq + 1 else t.seq }
  else { t with timer := t.timer - 1 }

/-- `pulse_timer_tick(p)` (R546). -/
def Pulse.tick (p : Pulse) : Pulse :=
  if p.timer = 0 then { p with timer := p.timerPer, seq := p.seq - 1 } else { p with timer := p.timer - 1 }

/-- The feedback bit of the noise register (R548). -/
def Noise.feedback (n : Noise) : Bool :=
  Bool.xor (n.lfsr.getLsbD 0) (if n.mode then n.lfsr.getLsbD 6 else n.lfsr.getLsbD 1)

/-- `noise_timer_tick()` (R548). -/
def Noise.tick (n : Noise) : Noise :=
  if n.timer = 0 then
    { n with
      timer := BitVec.ofNat 12 (entry noisePeriod n.perIdx.toNat - 1)
      lfsr := bit1 n.feedback ++ n.lfsr.extractLsb 14 1 }
  else { n with timer := n.timer - 1 }

/-- The DMC's level after one output bit (R549). -/
def Dmc.nextLevel (c : Dmc) : BitVec 7 :=
  if c.silence then c.level
  else if c.shift.getLsbD 0 then if c.level.toNat ≤ 125 then c.level + 2 else c.level
  else if 2 ≤ c.level.toNat then c.level - 2 else c.level

/-- One output bit of the DMC (R549). -/
def Dmc.outputClock (c : Dmc) : Dmc :=
  let c' := { c with level := c.nextLevel, shift := c.shift >>> 1, bitsLeft := c.bitsLeft - 1 }
  if c'.bitsLeft = 0 then
    if c.bufferFull then { c' with bitsLeft := 8, shift := c.buffer, bufferFull := false, silence := false }
    else { c' with bitsLeft := 8, silence := true }
  else c'

/-- `dmc_timer_tick()` (R549). -/
def Dmc.tick (c : Dmc) : Dmc :=
  if c.timer = 0 then
    Dmc.outputClock { c with timer := BitVec.ofNat 9 (entry dmcRate c.rateIdx.toNat - 1) }
  else { c with timer := c.timer - 1 }

/-! ### Outputs and mixer -/

/-- `pulse_out(p)` (R546). -/
def Pulse.out (isPulse1 : Bool) (p : Pulse) : Nat :=
  if p.length = 0 ∨ entry ((dutyTable[p.duty.toNat]?).getD []) p.seq.toNat = 0 ∨ p.muted isPulse1 = true then 0
  else envelopeOut p.const p.vol p.env

/-- `triangle_out` (R547). -/
def Triangle.out (t : Triangle) : Nat := entry triSeq t.seq.toNat

/-- `noise_out` (R548). -/
def Noise.out (n : Noise) : Nat :=
  if n.length = 0 ∨ n.lfsr.getLsbD 0 = true then 0 else envelopeOut n.const n.vol n.env

/-- `pulse_mix` (R565). -/
def pulseMix (p1 p2 : Nat) : Rat :=
  if p1 + p2 = 0 then 0 else (9588 / 100 : Rat) / (8128 / ((p1 + p2 : Nat) : Rat) + 100)

/-- `tnd_mix` (R565). -/
def tndMix (t n d : Nat) : Rat :=
  if t = 0 ∧ n = 0 ∧ d = 0 then 0
  else (15979 / 100 : Rat) / (1 / ((t : Rat) / 8227 + (n : Rat) / 12241 + (d : Rat) / 22638) + 100)

/-- `mix()` (R565), exact over the rationals. -/
def Apu.mix (u : Apu) : Rat :=
  pulseMix (u.pulse1.out true) (u.pulse2.out false) + tndMix u.triangle.out u.noise.out u.dmc.level.toNat

/-- Whether the accumulator reaches `CPU_HZ` in this cycle, so that a sample is due (R566). -/
def Apu.sampleDue (u : Apu) : Bool := decide (Config.cpuHz ≤ u.sampleAcc + Config.sampleRate)

/-- `sample_tick()` (R566). Only the accumulator and the samples depend on the sample rate, a free value. -/
def Apu.sampleTick (u : Apu) : Apu :=
  { u with
    sampleAcc := u.sampleAcc + Config.sampleRate - (if u.sampleDue then Config.cpuHz else 0)
    samples := if u.sampleDue then u.samples ++ [u.mix] else u.samples }

/-! ### The DMC's memory reader (R560) -/

/-- The channel after it took the byte `b`: the address and the count step, and a looping sample restarts. -/
def Dmc.take (b : Byte) (c : Dmc) : Dmc :=
  if c.remaining = 1 ∧ c.loop = true then
    { c with buffer := b, bufferFull := true, curAddr := c.sampleAddr, remaining := c.sampleLen }
  else
    { c with
      buffer := b
      bufferFull := true
      curAddr := if c.curAddr = 0xFFFF then 0x8000 else c.curAddr + 1
      remaining := c.remaining - 1 }

/-- Whether taking a byte ends the sample with an interrupt. -/
def Dmc.endsWithIrq (c : Dmc) : Bool := decide (c.remaining = 1) && !c.loop && c.irqEn

/-- `dmc_reader_tick()`: a fetch through the CPU decoder, and its stall. -/
def dmcReaderTick (s : State) : State :=
  if s.apu.dmc.bufferFull = false ∧ s.apu.dmc.remaining ≠ 0 then
    let r := busRead s.apu.dmc.curAddr (s.mapCpu fun c => { c with stall := c.stall + Config.dmcStallCycles })
    r.2.mapApu fun u =>
      { u with dmc := s.apu.dmc.take r.1, dmcIrq := u.dmcIrq || s.apu.dmc.endsWithIrq }
  else s

/-! ### The cycle -/

/-- The channel timers of one cycle, in the order of R540. -/
def Apu.timersTick (u : Apu) : Apu :=
  { u with
    triangle := u.triangle.tick
    pulse1 := if u.phase then u.pulse1 else u.pulse1.tick
    pulse2 := if u.phase then u.pulse2 else u.pulse2.tick
    noise := u.noise.tick
    dmc := u.dmc.tick }

/-- The end of a cycle: the sample, then the other phase. -/
def Apu.cycleEnd (u : Apu) : Apu := { u.sampleTick with phase := !u.phase }

/-- `step_cycle()` (R540). -/
def stepCycle (s : State) : State :=
  (dmcReaderTick (s.mapApu fun u => u.sequencerTick.timersTick)).mapApu Apu.cycleEnd

end Sys2Proof.Machine
end

