-- ==== Sys2Proof/Machine/Operands.lean ====
section
/-! DEFINITION. The addressing modes with an effective address (30_encoding R134-R141), and the instruction classes that
use them (R142) with their cost (35_execution R176). A class is written once; an instruction gives it its mode, its
length, its base cost from the per-opcode table of R126, and its effect. All run with the operand bytes already
fetched and PC still at the opcode. -/

namespace Sys2Proof.Machine

/-- The answer of every meaning. -/
abbrev Result := Host.Outcome State Fault Refusal

/-- The addressing modes that give an effective address for data. -/
inductive Mode where
  | zp (z : Byte)
  | zpx (z : Byte)
  | zpy (z : Byte)
  | abs (a : Word)
  | absx (a : Word)
  | absy (a : Word)
  | izx (z : Byte)
  | izy (z : Byte)
  deriving DecidableEq, Repr

/-- An effective address: `EA`, `cross`, and the state after the pointer reads. -/
structure Located where
  ea : Word
  cross : Bool
  st : State

/-- An indexed 16-bit address and its page-crossing indicator (R137, R140). -/
def indexed (base : Word) (index : Byte) (s : State) : Located where
  ea := base + zeroPage index
  cross := decide (page base ≠ page (base + zeroPage index))
  st := s

/-- A pointer in the zero page, low byte first; the high byte's address wraps in the zero page (R139, R140). -/
def zeroPagePointer (z : Byte) (s : State) : Word × State :=
  let lo := busRead (zeroPage z) s
  let hi := busRead (zeroPage (z + 1)) lo.2
  (wordOf lo.1 hi.1, hi.2)

/-- The effective address of a mode (R134-R137, R139, R140). -/
def locate (m : Mode) (s : State) : Located :=
  match m with
  | .zp z => ⟨zeroPage z, false, s⟩
  | .zpx z => ⟨zeroPage (z + s.cpu.x), false, s⟩
  | .zpy z => ⟨zeroPage (z + s.cpu.y), false, s⟩
  | .abs a => ⟨a, false, s⟩
  | .absx a => indexed a s.cpu.x s
  | .absy a => indexed a s.cpu.y s
  | .izx z =>
    let ptr := zeroPagePointer (z + s.cpu.x) s
    ⟨ptr.1, false, ptr.2⟩
  | .izy z =>
    let ptr := zeroPagePointer z s
    indexed ptr.1 s.cpu.y ptr.2

/-- The target of `JMP (ind)` (R138): the pointer's high byte comes from the same page as its low byte. -/
def indirectTarget (ptr : Word) (s : State) : Word × State :=
  let lo := busRead ptr s
  let hi := busRead (wordOf (loByte ptr + 1) (page ptr)) lo.2
  (wordOf lo.1 hi.1, hi.2)

/-- `target = u16(next + sext_16(b1))` (R141). -/
def branchTarget (next : Word) (d : Int) : Word := next + displacement d

/-- The one cycle that a read-class access pays for a page crossing (35_execution R176). -/
def crossCost (cross : Bool) : Nat := if cross then 1 else 0

/-- An implied or accumulator instruction: no operand bytes, an effect on the CPU registers (R131, R132). -/
def impliedClass (cost : Nat) (f : Cpu → Cpu) (s : State) : Result :=
  .next (spend cost ((advancePc 1 s).mapCpu f))

/-- An immediate instruction: the operand is the byte itself (R133). -/
def immediateClass (cost : Nat) (f : Byte → Cpu → Cpu) (v : Byte) (s : State) : Result :=
  .next (spend cost ((advancePc 2 s).mapCpu (f v)))

/-- A read-class instruction: one read at `EA`, and the page-crossing penalty (R142, R176). -/
def readClass (m : Mode) (len base : Nat) (f : Byte → Cpu → Cpu) (s : State) : Result :=
  let at_ := locate m (advancePc len s)
  let r := busRead at_.ea at_.st
  .next (spend (base + crossCost at_.cross) (r.2.mapCpu (f r.1)))

/-- A write-class instruction: one write at `EA` of a register (R142). -/
def writeClass (m : Mode) (len cost : Nat) (reg : Cpu → Byte) (s : State) : Result :=
  let at_ := locate m (advancePc len s)
  .next (spend cost (busWrite at_.ea (reg at_.st.cpu) at_.st))

/-- What a read-modify-write makes of the byte it read: the byte to write and the flags. -/
structure Modified where
  r : Byte
  p : Flags

/-- A read-modify-write instruction: one read, then one write, at `EA`, then the flags (R142, 43_inc_dec_shift R300). -/
def rmwClass (m : Mode) (len cost : Nat) (f : Byte → Flags → Modified) (s : State) : Result :=
  let at_ := locate m (advancePc len s)
  let r := busRead at_.ea at_.st
  let out := f r.1 r.2.cpu.p
  .next (spend cost ((busWrite at_.ea out.r r.2).mapCpu (Cpu.setP out.p)))

/-- A shift or rotate in accumulator mode (R132): the operand is A and the result is written to A. -/
def accumulatorClass (cost : Nat) (f : Byte → Flags → Modified) (s : State) : Result :=
  impliedClass cost (fun c => (c.setA (f c.a c.p).r).setP (f c.a c.p).p) s

/-- A conditional branch (44_control_flow R330). -/
def branchClass (taken : Flags → Bool) (d : Int) (s : State) : Result :=
  let next := (advancePc 2 s).cpu.pc
  if taken s.cpu.p then
    .next (spend (2 + (if page next ≠ page (branchTarget next d) then 2 else 1))
      (s.mapCpu (Cpu.setPc (branchTarget next d))))
  else .next (spend 2 (advancePc 2 s))

end Sys2Proof.Machine
end

