-- ==== Sys2Proof/Machine/LoadStore.lean ====
section
/-! DEFINITION. Loads and stores (40_load_store R200-R206).
One meaning per opcode, over the shared classes of Operands.lean; base costs from 30_encoding R126. -/

namespace Sys2Proof.Machine

/-! ### Effects -/

/-- `A <- m; SetNZ(m)` (R201, R239). -/
def loadA (m : Byte) (c : Cpu) : Cpu := (c.setA m).setP (Flags.setNZ m c.p)

/-- `X <- m; SetNZ(m)` (R202). -/
def loadX (m : Byte) (c : Cpu) : Cpu := (c.setX m).setP (Flags.setNZ m c.p)

/-- `Y <- m; SetNZ(m)` (R203). -/
def loadY (m : Byte) (c : Cpu) : Cpu := (c.setY m).setP (Flags.setNZ m c.p)

/-! ### Meanings -/

/-- `LDA #$nn` (R201). -/
def execLdaImm (v : Byte) (s : State) : Result :=
  immediateClass 2 loadA v s

/-- `LDA $nn` (R201). -/
def execLdaZp (z : Byte) (s : State) : Result :=
  readClass (.zp z) 2 3 loadA s

/-- `LDA $nn,X` (R201). -/
def execLdaZpx (z : Byte) (s : State) : Result :=
  readClass (.zpx z) 2 4 loadA s

/-- `LDA $nnnn` (R201). -/
def execLdaAbs (a : Word) (s : State) : Result :=
  readClass (.abs a) 3 4 loadA s

/-- `LDA $nnnn,X` (R201). -/
def execLdaAbsx (a : Word) (s : State) : Result :=
  readClass (.absx a) 3 4 loadA s

/-- `LDA $nnnn,Y` (R201). -/
def execLdaAbsy (a : Word) (s : State) : Result :=
  readClass (.absy a) 3 4 loadA s

/-- `LDA ($nn,X)` (R201). -/
def execLdaIzx (z : Byte) (s : State) : Result :=
  readClass (.izx z) 2 6 loadA s

/-- `LDA ($nn),Y` (R201). -/
def execLdaIzy (z : Byte) (s : State) : Result :=
  readClass (.izy z) 2 5 loadA s

/-- `LDX #$nn` (R202). -/
def execLdxImm (v : Byte) (s : State) : Result :=
  immediateClass 2 loadX v s

/-- `LDX $nn` (R202). -/
def execLdxZp (z : Byte) (s : State) : Result :=
  readClass (.zp z) 2 3 loadX s

/-- `LDX $nn,Y` (R202). -/
def execLdxZpy (z : Byte) (s : State) : Result :=
  readClass (.zpy z) 2 4 loadX s

/-- `LDX $nnnn` (R202). -/
def execLdxAbs (a : Word) (s : State) : Result :=
  readClass (.abs a) 3 4 loadX s

/-- `LDX $nnnn,Y` (R202). -/
def execLdxAbsy (a : Word) (s : State) : Result :=
  readClass (.absy a) 3 4 loadX s

/-- `LDY #$nn` (R203). -/
def execLdyImm (v : Byte) (s : State) : Result :=
  immediateClass 2 loadY v s

/-- `LDY $nn` (R203). -/
def execLdyZp (z : Byte) (s : State) : Result :=
  readClass (.zp z) 2 3 loadY s

/-- `LDY $nn,X` (R203). -/
def execLdyZpx (z : Byte) (s : State) : Result :=
  readClass (.zpx z) 2 4 loadY s

/-- `LDY $nnnn` (R203). -/
def execLdyAbs (a : Word) (s : State) : Result :=
  readClass (.abs a) 3 4 loadY s

/-- `LDY $nnnn,X` (R203). -/
def execLdyAbsx (a : Word) (s : State) : Result :=
  readClass (.absx a) 3 4 loadY s

/-- `STA $nn` (R204). -/
def execStaZp (z : Byte) (s : State) : Result :=
  writeClass (.zp z) 2 3 Cpu.a s

/-- `STA $nn,X` (R204). -/
def execStaZpx (z : Byte) (s : State) : Result :=
  writeClass (.zpx z) 2 4 Cpu.a s

/-- `STA $nnnn` (R204). -/
def execStaAbs (a : Word) (s : State) : Result :=
  writeClass (.abs a) 3 4 Cpu.a s

/-- `STA $nnnn,X` (R204). -/
def execStaAbsx (a : Word) (s : State) : Result :=
  writeClass (.absx a) 3 5 Cpu.a s

/-- `STA $nnnn,Y` (R204). -/
def execStaAbsy (a : Word) (s : State) : Result :=
  writeClass (.absy a) 3 5 Cpu.a s

/-- `STA ($nn,X)` (R204). -/
def execStaIzx (z : Byte) (s : State) : Result :=
  writeClass (.izx z) 2 6 Cpu.a s

/-- `STA ($nn),Y` (R204). -/
def execStaIzy (z : Byte) (s : State) : Result :=
  writeClass (.izy z) 2 6 Cpu.a s

/-- `STX $nn` (R205). -/
def execStxZp (z : Byte) (s : State) : Result :=
  writeClass (.zp z) 2 3 Cpu.x s

/-- `STX $nn,Y` (R205). -/
def execStxZpy (z : Byte) (s : State) : Result :=
  writeClass (.zpy z) 2 4 Cpu.x s

/-- `STX $nnnn` (R205). -/
def execStxAbs (a : Word) (s : State) : Result :=
  writeClass (.abs a) 3 4 Cpu.x s

/-- `STY $nn` (R206). -/
def execStyZp (z : Byte) (s : State) : Result :=
  writeClass (.zp z) 2 3 Cpu.y s

/-- `STY $nn,X` (R206). -/
def execStyZpx (z : Byte) (s : State) : Result :=
  writeClass (.zpx z) 2 4 Cpu.y s

/-- `STY $nnnn` (R206). -/
def execStyAbs (a : Word) (s : State) : Result :=
  writeClass (.abs a) 3 4 Cpu.y s

end Sys2Proof.Machine
end

