-- ==== Sys2Proof/Machine/ArithLogic.lean ====
section
/-! DEFINITION. Arithmetic, logic and compare (42_arithmetic_logic R260-R271).
One meaning per opcode, over the shared classes of Operands.lean; base costs from 30_encoding R126. -/

namespace Sys2Proof.Machine

/-! ### Effects -/

/-- ADC (R261), binary whatever D holds. -/
def addA (m : Byte) (c : Cpu) : Cpu := (c.setA (adcResult c.a m c.p.c)).setP (Flags.adc c.a m c.p)

/-- SBC (R262): ADC of the complement of the operand. -/
def subA (m : Byte) (c : Cpu) : Cpu := addA (~~~m) c

/-- AND (R263). -/
def andA (m : Byte) (c : Cpu) : Cpu := loadA (c.a &&& m) c

/-- ORA (R264). -/
def orA (m : Byte) (c : Cpu) : Cpu := loadA (c.a ||| m) c

/-- EOR (R265). -/
def eorA (m : Byte) (c : Cpu) : Cpu := loadA (c.a ^^^ m) c

/-- BIT (R266). -/
def bitA (m : Byte) (c : Cpu) : Cpu := c.setP (Flags.bitTest c.a m c.p)

/-- CMP (R267). -/
def cmpA (m : Byte) (c : Cpu) : Cpu := c.setP (Flags.compare c.a m c.p)

/-- CPX (R268). -/
def cmpX (m : Byte) (c : Cpu) : Cpu := c.setP (Flags.compare c.x m c.p)

/-- CPY (R269). -/
def cmpY (m : Byte) (c : Cpu) : Cpu := c.setP (Flags.compare c.y m c.p)

/-! ### Meanings -/

/-- `ADC #$nn` (R261). -/
def execAdcImm (v : Byte) (s : State) : Result :=
  immediateClass 2 addA v s

/-- `ADC $nn` (R261). -/
def execAdcZp (z : Byte) (s : State) : Result :=
  readClass (.zp z) 2 3 addA s

/-- `ADC $nn,X` (R261). -/
def execAdcZpx (z : Byte) (s : State) : Result :=
  readClass (.zpx z) 2 4 addA s

/-- `ADC $nnnn` (R261). -/
def execAdcAbs (a : Word) (s : State) : Result :=
  readClass (.abs a) 3 4 addA s

/-- `ADC $nnnn,X` (R261). -/
def execAdcAbsx (a : Word) (s : State) : Result :=
  readClass (.absx a) 3 4 addA s

/-- `ADC $nnnn,Y` (R261). -/
def execAdcAbsy (a : Word) (s : State) : Result :=
  readClass (.absy a) 3 4 addA s

/-- `ADC ($nn,X)` (R261). -/
def execAdcIzx (z : Byte) (s : State) : Result :=
  readClass (.izx z) 2 6 addA s

/-- `ADC ($nn),Y` (R261). -/
def execAdcIzy (z : Byte) (s : State) : Result :=
  readClass (.izy z) 2 5 addA s

/-- `SBC #$nn` (R262). -/
def execSbcImm (v : Byte) (s : State) : Result :=
  immediateClass 2 subA v s

/-- `SBC $nn` (R262). -/
def execSbcZp (z : Byte) (s : State) : Result :=
  readClass (.zp z) 2 3 subA s

/-- `SBC $nn,X` (R262). -/
def execSbcZpx (z : Byte) (s : State) : Result :=
  readClass (.zpx z) 2 4 subA s

/-- `SBC $nnnn` (R262). -/
def execSbcAbs (a : Word) (s : State) : Result :=
  readClass (.abs a) 3 4 subA s

/-- `SBC $nnnn,X` (R262). -/
def execSbcAbsx (a : Word) (s : State) : Result :=
  readClass (.absx a) 3 4 subA s

/-- `SBC $nnnn,Y` (R262). -/
def execSbcAbsy (a : Word) (s : State) : Result :=
  readClass (.absy a) 3 4 subA s

/-- `SBC ($nn,X)` (R262). -/
def execSbcIzx (z : Byte) (s : State) : Result :=
  readClass (.izx z) 2 6 subA s

/-- `SBC ($nn),Y` (R262). -/
def execSbcIzy (z : Byte) (s : State) : Result :=
  readClass (.izy z) 2 5 subA s

/-- `AND #$nn` (R263). -/
def execAndImm (v : Byte) (s : State) : Result :=
  immediateClass 2 andA v s

/-- `AND $nn` (R263). -/
def execAndZp (z : Byte) (s : State) : Result :=
  readClass (.zp z) 2 3 andA s

/-- `AND $nn,X` (R263). -/
def execAndZpx (z : Byte) (s : State) : Result :=
  readClass (.zpx z) 2 4 andA s

/-- `AND $nnnn` (R263). -/
def execAndAbs (a : Word) (s : State) : Result :=
  readClass (.abs a) 3 4 andA s

/-- `AND $nnnn,X` (R263). -/
def execAndAbsx (a : Word) (s : State) : Result :=
  readClass (.absx a) 3 4 andA s

/-- `AND $nnnn,Y` (R263). -/
def execAndAbsy (a : Word) (s : State) : Result :=
  readClass (.absy a) 3 4 andA s

/-- `AND ($nn,X)` (R263). -/
def execAndIzx (z : Byte) (s : State) : Result :=
  readClass (.izx z) 2 6 andA s

/-- `AND ($nn),Y` (R263). -/
def execAndIzy (z : Byte) (s : State) : Result :=
  readClass (.izy z) 2 5 andA s

/-- `ORA #$nn` (R264). -/
def execOraImm (v : Byte) (s : State) : Result :=
  immediateClass 2 orA v s

/-- `ORA $nn` (R264). -/
def execOraZp (z : Byte) (s : State) : Result :=
  readClass (.zp z) 2 3 orA s

/-- `ORA $nn,X` (R264). -/
def execOraZpx (z : Byte) (s : State) : Result :=
  readClass (.zpx z) 2 4 orA s

/-- `ORA $nnnn` (R264). -/
def execOraAbs (a : Word) (s : State) : Result :=
  readClass (.abs a) 3 4 orA s

/-- `ORA $nnnn,X` (R264). -/
def execOraAbsx (a : Word) (s : State) : Result :=
  readClass (.absx a) 3 4 orA s

/-- `ORA $nnnn,Y` (R264). -/
def execOraAbsy (a : Word) (s : State) : Result :=
  readClass (.absy a) 3 4 orA s

/-- `ORA ($nn,X)` (R264). -/
def execOraIzx (z : Byte) (s : State) : Result :=
  readClass (.izx z) 2 6 orA s

/-- `ORA ($nn),Y` (R264). -/
def execOraIzy (z : Byte) (s : State) : Result :=
  readClass (.izy z) 2 5 orA s

/-- `EOR #$nn` (R265). -/
def execEorImm (v : Byte) (s : State) : Result :=
  immediateClass 2 eorA v s

/-- `EOR $nn` (R265). -/
def execEorZp (z : Byte) (s : State) : Result :=
  readClass (.zp z) 2 3 eorA s

/-- `EOR $nn,X` (R265). -/
def execEorZpx (z : Byte) (s : State) : Result :=
  readClass (.zpx z) 2 4 eorA s

/-- `EOR $nnnn` (R265). -/
def execEorAbs (a : Word) (s : State) : Result :=
  readClass (.abs a) 3 4 eorA s

/-- `EOR $nnnn,X` (R265). -/
def execEorAbsx (a : Word) (s : State) : Result :=
  readClass (.absx a) 3 4 eorA s

/-- `EOR $nnnn,Y` (R265). -/
def execEorAbsy (a : Word) (s : State) : Result :=
  readClass (.absy a) 3 4 eorA s

/-- `EOR ($nn,X)` (R265). -/
def execEorIzx (z : Byte) (s : State) : Result :=
  readClass (.izx z) 2 6 eorA s

/-- `EOR ($nn),Y` (R265). -/
def execEorIzy (z : Byte) (s : State) : Result :=
  readClass (.izy z) 2 5 eorA s

/-- `BIT $nn` (R266). -/
def execBitZp (z : Byte) (s : State) : Result :=
  readClass (.zp z) 2 3 bitA s

/-- `BIT $nnnn` (R266). -/
def execBitAbs (a : Word) (s : State) : Result :=
  readClass (.abs a) 3 4 bitA s

/-- `CMP #$nn` (R267). -/
def execCmpImm (v : Byte) (s : State) : Result :=
  immediateClass 2 cmpA v s

/-- `CMP $nn` (R267). -/
def execCmpZp (z : Byte) (s : State) : Result :=
  readClass (.zp z) 2 3 cmpA s

/-- `CMP $nn,X` (R267). -/
def execCmpZpx (z : Byte) (s : State) : Result :=
  readClass (.zpx z) 2 4 cmpA s

/-- `CMP $nnnn` (R267). -/
def execCmpAbs (a : Word) (s : State) : Result :=
  readClass (.abs a) 3 4 cmpA s

/-- `CMP $nnnn,X` (R267). -/
def execCmpAbsx (a : Word) (s : State) : Result :=
  readClass (.absx a) 3 4 cmpA s

/-- `CMP $nnnn,Y` (R267). -/
def execCmpAbsy (a : Word) (s : State) : Result :=
  readClass (.absy a) 3 4 cmpA s

/-- `CMP ($nn,X)` (R267). -/
def execCmpIzx (z : Byte) (s : State) : Result :=
  readClass (.izx z) 2 6 cmpA s

/-- `CMP ($nn),Y` (R267). -/
def execCmpIzy (z : Byte) (s : State) : Result :=
  readClass (.izy z) 2 5 cmpA s

/-- `CPX #$nn` (R268). -/
def execCpxImm (v : Byte) (s : State) : Result :=
  immediateClass 2 cmpX v s

/-- `CPX $nn` (R268). -/
def execCpxZp (z : Byte) (s : State) : Result :=
  readClass (.zp z) 2 3 cmpX s

/-- `CPX $nnnn` (R268). -/
def execCpxAbs (a : Word) (s : State) : Result :=
  readClass (.abs a) 3 4 cmpX s

/-- `CPY #$nn` (R269). -/
def execCpyImm (v : Byte) (s : State) : Result :=
  immediateClass 2 cmpY v s

/-- `CPY $nn` (R269). -/
def execCpyZp (z : Byte) (s : State) : Result :=
  readClass (.zp z) 2 3 cmpY s

/-- `CPY $nnnn` (R269). -/
def execCpyAbs (a : Word) (s : State) : Result :=
  readClass (.abs a) 3 4 cmpY s

end Sys2Proof.Machine
end

