-- ==== Sys2Proof/Machine/ControlFlow.lean ====
section
/-! DEFINITION. Jumps, subroutines and branches (44_control_flow R330-R341).
One meaning per opcode, over the shared classes of Operands.lean; base costs from 30_encoding R126. -/

namespace Sys2Proof.Machine

/-- `JMP $nnnn` (R331). -/
def execJmpAbs (a : Word) (s : State) : Result :=
  .next (spend 3 ((advancePc 3 s).mapCpu (Cpu.setPc a)))

/-- `JMP ($nnnn)` (R331). -/
def execJmpInd (a : Word) (s : State) : Result :=
  let target := indirectTarget a (advancePc 3 s)
  .next (spend 5 (target.2.mapCpu (Cpu.setPc target.1)))

/-- `JSR $nnnn` (R332). -/
def execJsr (a : Word) (s : State) : Result :=
  .next (spend 6 ((pushWord ((advancePc 3 s).cpu.pc - 1) (advancePc 3 s)).mapCpu (Cpu.setPc a)))

/-- `RTS` (R333). -/
def execRts (s : State) : Result :=
  let ret := pullWord (advancePc 1 s)
  .next (spend 6 (ret.2.mapCpu (Cpu.setPc (ret.1 + 1))))

/-- `BCC label` (R334). -/
def execBcc (d : Int) (s : State) : Result :=
  branchClass (fun p => !p.c) d s

/-- `BCS label` (R335). -/
def execBcs (d : Int) (s : State) : Result :=
  branchClass (fun p => p.c) d s

/-- `BEQ label` (R336). -/
def execBeq (d : Int) (s : State) : Result :=
  branchClass (fun p => p.z) d s

/-- `BMI label` (R337). -/
def execBmi (d : Int) (s : State) : Result :=
  branchClass (fun p => p.n) d s

/-- `BNE label` (R338). -/
def execBne (d : Int) (s : State) : Result :=
  branchClass (fun p => !p.z) d s

/-- `BPL label` (R339). -/
def execBpl (d : Int) (s : State) : Result :=
  branchClass (fun p => !p.n) d s

/-- `BVC label` (R340). -/
def execBvc (d : Int) (s : State) : Result :=
  branchClass (fun p => !p.v) d s

/-- `BVS label` (R341). -/
def execBvs (d : Int) (s : State) : Result :=
  branchClass (fun p => p.v) d s

end Sys2Proof.Machine
end

