-- ==== Sys2Proof/Machine/FlagsSystem.lean ====
section
/-! DEFINITION. Flag operations, BRK, RTI and NOP (45_flags_system R370-R380).
One meaning per opcode, over the shared classes of Operands.lean; base costs from 30_encoding R126. -/

namespace Sys2Proof.Machine

/-- `CLC` (R371). -/
def execClc (s : State) : Result :=
  impliedClass 2 (fun c => c.setP { c.p with c := false }) s

/-- `SEC` (R372). -/
def execSec (s : State) : Result :=
  impliedClass 2 (fun c => c.setP { c.p with c := true }) s

/-- `CLI` (R373). -/
def execCli (s : State) : Result :=
  impliedClass 2 (fun c => c.setP { c.p with i := false }) s

/-- `SEI` (R374). -/
def execSei (s : State) : Result :=
  impliedClass 2 (fun c => c.setP { c.p with i := true }) s

/-- `CLD` (R375). -/
def execCld (s : State) : Result :=
  impliedClass 2 (fun c => c.setP { c.p with d := false }) s

/-- `SED` (R376). -/
def execSed (s : State) : Result :=
  impliedClass 2 (fun c => c.setP { c.p with d := true }) s

/-- `CLV` (R377). -/
def execClv (s : State) : Result :=
  impliedClass 2 (fun c => c.setP { c.p with v := false }) s

/-- `BRK` (R378). -/
def execBrk (s : State) : Result :=
  .next (spend 7 (enterException irqVector true ((advancePc 1 s).cpu.pc + 1) (advancePc 1 s)))

/-- `RTI` (R379). -/
def execRti (s : State) : Result :=
  .next (spend 6 (returnFromException (advancePc 1 s)))

/-- `NOP` (R380). -/
def execNop (s : State) : Result :=
  impliedClass 2 id s

end Sys2Proof.Machine
end

