-- ==== Sys2Proof/Machine/IncDecShift.lean ====
section
/-! DEFINITION. Increments, decrements, shifts and rotates (43_inc_dec_shift R300-R310).
One meaning per opcode, over the shared classes of Operands.lean; base costs from 30_encoding R126. -/

namespace Sys2Proof.Machine

/-! ### Effects -/

/-- INC (R301): N and Z only. -/
def incModify (m : Byte) (p : Flags) : Modified := ⟨m + 1, Flags.setNZ (m + 1) p⟩

/-- DEC (R302): N and Z only. -/
def decModify (m : Byte) (p : Flags) : Modified := ⟨m - 1, Flags.setNZ (m - 1) p⟩

/-- INX (R303). -/
def incX (c : Cpu) : Cpu := loadX (c.x + 1) c

/-- INY (R304). -/
def incY (c : Cpu) : Cpu := loadY (c.y + 1) c

/-- DEX (R305). -/
def decX (c : Cpu) : Cpu := loadX (c.x - 1) c

/-- DEY (R306). -/
def decY (c : Cpu) : Cpu := loadY (c.y - 1) c

/-- The byte of ASL: bits 6..0 and a 0 (R307). -/
def aslByte (m : Byte) : Byte := m.extractLsb 6 0 ++ bit1 false

/-- ASL (R307). -/
def aslModify (m : Byte) (p : Flags) : Modified := ⟨aslByte m, Flags.shifted (m.getLsbD 7) (aslByte m) p⟩

/-- The byte of LSR: a 0 and bits 7..1 (R308). -/
def lsrByte (m : Byte) : Byte := bit1 false ++ m.extractLsb 7 1

/-- LSR (R308). -/
def lsrModify (m : Byte) (p : Flags) : Modified := ⟨lsrByte m, Flags.shifted (m.getLsbD 0) (lsrByte m) p⟩

/-- The byte of ROL: bits 6..0 and the old carry (R309). -/
def rolByte (m : Byte) (c : Bool) : Byte := m.extractLsb 6 0 ++ bit1 c

/-- ROL (R309). -/
def rolModify (m : Byte) (p : Flags) : Modified := ⟨rolByte m p.c, Flags.shifted (m.getLsbD 7) (rolByte m p.c) p⟩

/-- The byte of ROR: the old carry and bits 7..1 (R310). -/
def rorByte (m : Byte) (c : Bool) : Byte := bit1 c ++ m.extractLsb 7 1

/-- ROR (R310). -/
def rorModify (m : Byte) (p : Flags) : Modified := ⟨rorByte m p.c, Flags.shifted (m.getLsbD 0) (rorByte m p.c) p⟩

/-! ### Meanings -/

/-- `INC $nn` (R301). -/
def execIncZp (z : Byte) (s : State) : Result :=
  rmwClass (.zp z) 2 5 incModify s

/-- `INC $nn,X` (R301). -/
def execIncZpx (z : Byte) (s : State) : Result :=
  rmwClass (.zpx z) 2 6 incModify s

/-- `INC $nnnn` (R301). -/
def execIncAbs (a : Word) (s : State) : Result :=
  rmwClass (.abs a) 3 6 incModify s

/-- `INC $nnnn,X` (R301). -/
def execIncAbsx (a : Word) (s : State) : Result :=
  rmwClass (.absx a) 3 7 incModify s

/-- `DEC $nn` (R302). -/
def execDecZp (z : Byte) (s : State) : Result :=
  rmwClass (.zp z) 2 5 decModify s

/-- `DEC $nn,X` (R302). -/
def execDecZpx (z : Byte) (s : State) : Result :=
  rmwClass (.zpx z) 2 6 decModify s

/-- `DEC $nnnn` (R302). -/
def execDecAbs (a : Word) (s : State) : Result :=
  rmwClass (.abs a) 3 6 decModify s

/-- `DEC $nnnn,X` (R302). -/
def execDecAbsx (a : Word) (s : State) : Result :=
  rmwClass (.absx a) 3 7 decModify s

/-- `INX` (R303). -/
def execInx (s : State) : Result :=
  impliedClass 2 incX s

/-- `INY` (R304). -/
def execIny (s : State) : Result :=
  impliedClass 2 incY s

/-- `DEX` (R305). -/
def execDex (s : State) : Result :=
  impliedClass 2 decX s

/-- `DEY` (R306). -/
def execDey (s : State) : Result :=
  impliedClass 2 decY s

/-- `ASL A` (R307). -/
def execAslAcc (s : State) : Result :=
  accumulatorClass 2 aslModify s

/-- `ASL $nn` (R307). -/
def execAslZp (z : Byte) (s : State) : Result :=
  rmwClass (.zp z) 2 5 aslModify s

/-- `ASL $nn,X` (R307). -/
def execAslZpx (z : Byte) (s : State) : Result :=
  rmwClass (.zpx z) 2 6 aslModify s

/-- `ASL $nnnn` (R307). -/
def execAslAbs (a : Word) (s : State) : Result :=
  rmwClass (.abs a) 3 6 aslModify s

/-- `ASL $nnnn,X` (R307). -/
def execAslAbsx (a : Word) (s : State) : Result :=
  rmwClass (.absx a) 3 7 aslModify s

/-- `LSR A` (R308). -/
def execLsrAcc (s : State) : Result :=
  accumulatorClass 2 lsrModify s

/-- `LSR $nn` (R308). -/
def execLsrZp (z : Byte) (s : State) : Result :=
  rmwClass (.zp z) 2 5 lsrModify s

/-- `LSR $nn,X` (R308). -/
def execLsrZpx (z : Byte) (s : State) : Result :=
  rmwClass (.zpx z) 2 6 lsrModify s

/-- `LSR $nnnn` (R308). -/
def execLsrAbs (a : Word) (s : State) : Result :=
  rmwClass (.abs a) 3 6 lsrModify s

/-- `LSR $nnnn,X` (R308). -/
def execLsrAbsx (a : Word) (s : State) : Result :=
  rmwClass (.absx a) 3 7 lsrModify s

/-- `ROL A` (R309). -/
def execRolAcc (s : State) : Result :=
  accumulatorClass 2 rolModify s

/-- `ROL $nn` (R309). -/
def execRolZp (z : Byte) (s : State) : Result :=
  rmwClass (.zp z) 2 5 rolModify s

/-- `ROL $nn,X` (R309). -/
def execRolZpx (z : Byte) (s : State) : Result :=
  rmwClass (.zpx z) 2 6 rolModify s

/-- `ROL $nnnn` (R309). -/
def execRolAbs (a : Word) (s : State) : Result :=
  rmwClass (.abs a) 3 6 rolModify s

/-- `ROL $nnnn,X` (R309). -/
def execRolAbsx (a : Word) (s : State) : Result :=
  rmwClass (.absx a) 3 7 rolModify s

/-- `ROR A` (R310). -/
def execRorAcc (s : State) : Result :=
  accumulatorClass 2 rorModify s

/-- `ROR $nn` (R310). -/
def execRorZp (z : Byte) (s : State) : Result :=
  rmwClass (.zp z) 2 5 rorModify s

/-- `ROR $nn,X` (R310). -/
def execRorZpx (z : Byte) (s : State) : Result :=
  rmwClass (.zpx z) 2 6 rorModify s

/-- `ROR $nnnn` (R310). -/
def execRorAbs (a : Word) (s : State) : Result :=
  rmwClass (.abs a) 3 6 rorModify s

/-- `ROR $nnnn,X` (R310). -/
def execRorAbsx (a : Word) (s : State) : Result :=
  rmwClass (.absx a) 3 7 rorModify s

end Sys2Proof.Machine
end

