-- ==== Sys2Proof/Machine/TransferStack.lean ====
section
/-! DEFINITION. Register transfers and stack operations (41_transfer_stack R230-R240).
One meaning per opcode, over the shared classes of Operands.lean; base costs from 30_encoding R126. -/

namespace Sys2Proof.Machine

/-! ### Effects -/

/-- R231. -/
def transferAX (c : Cpu) : Cpu := loadX c.a c

/-- R232. -/
def transferAY (c : Cpu) : Cpu := loadY c.a c

/-- R233. -/
def transferXA (c : Cpu) : Cpu := loadA c.x c

/-- R234. -/
def transferYA (c : Cpu) : Cpu := loadA c.y c

/-- R235. -/
def transferSX (c : Cpu) : Cpu := loadX c.sp c

/-- R236: the one transfer that writes no flag. -/
def transferXS (c : Cpu) : Cpu := c.setSp c.x

/-! ### Meanings -/

/-- `TAX` (R231). -/
def execTax (s : State) : Result :=
  impliedClass 2 transferAX s

/-- `TAY` (R232). -/
def execTay (s : State) : Result :=
  impliedClass 2 transferAY s

/-- `TXA` (R233). -/
def execTxa (s : State) : Result :=
  impliedClass 2 transferXA s

/-- `TYA` (R234). -/
def execTya (s : State) : Result :=
  impliedClass 2 transferYA s

/-- `TSX` (R235). -/
def execTsx (s : State) : Result :=
  impliedClass 2 transferSX s

/-- `TXS` (R236). -/
def execTxs (s : State) : Result :=
  impliedClass 2 transferXS s

/-- `PHA` (R237). -/
def execPha (s : State) : Result :=
  .next (spend 3 (push s.cpu.a (advancePc 1 s)))

/-- `PHP` (R238). -/
def execPhp (s : State) : Result :=
  .next (spend 3 (push (packP true s.cpu.p) (advancePc 1 s)))

/-- `PLA` (R239). -/
def execPla (s : State) : Result :=
  let m := pull (advancePc 1 s)
  .next (spend 4 (m.2.mapCpu (loadA m.1)))

/-- `PLP` (R240). -/
def execPlp (s : State) : Result :=
  .next (spend 4 (pullP (advancePc 1 s)))

end Sys2Proof.Machine
end

