-- ==== Sys2Proof/Machine/Cpu.lean ====
section
/-! DEFINITION. The CPU's step (35_execution R170-R178): the poll, the fetch, the decoded instruction, and the end of
the step that takes over an OAM DMA's stall; and the decode fault (60_exceptions R410). -/

namespace Sys2Proof.Machine

/-- What the poll selects (35_execution R171). -/
inductive Event where
  | nmi
  | irq
  | none
  deriving DecidableEq, Repr

/-- `poll()` (35_execution R171): NMI first; IRQ only with I clear. -/
def poll (s : State) : Event :=
  if s.cpu.nmiPending then .nmi
  else if s.apu.irqRequest && !s.cpu.p.i then .irq
  else .none

/-- What the fetch gives. -/
inductive Fetched where
  /-- A documented instruction, and the state after its bytes were read. -/
  | instr (i : Instr) (s : State)
  /-- An undocumented opcode byte, and the state after it was read. -/
  | illegal (opcode : Byte) (s : State)

/-- Fetch and decode (35_execution R172): the opcode, then as many operand bytes as its format has. -/
def fetch (s : State) : Fetched :=
  let op := busRead s.cpu.pc s
  match opcodeCell op.1 with
  | .illegal => .illegal op.1 op.2
  | .f1 i => .instr i op.2
  | .f2 f =>
    let b1 := busRead (s.cpu.pc + 1) op.2
    .instr (f b1.1) b1.2
  | .f3 f =>
    let b1 := busRead (s.cpu.pc + 1) op.2
    let b2 := busRead (s.cpu.pc + 2) b1.2
    .instr (f (wordOf b1.1 b2.1)) b2.2

/-- The end of a CPU step (35_execution R170): a write to 0x4014 in it adds 513 + (cycles mod 2) to the stall. -/
def endStep (s : State) : State :=
  if s.cpu.oamDmaStarted then
    s.mapCpu fun c => { c with stall := c.stall + 513 + c.cycles % 2, oamDmaStarted := false }
  else s

/-- The state that `raise DecodeError(pc, opcode)` leaves (60_exceptions R410). -/
def raiseDecodeError (pc : Word) (opcode : Byte) (s : State) : State :=
  s.mapCpu fun c => { c with halted := true, faultPc := pc, faultOpcode := opcode }

/-- A meaning's answer with the end of the step. -/
def finishStep : Result → Result
  | .next s => .next (endStep s)
  | .fault r => .fault r
  | .refused r => .refused r

/-- `execute_one()` and the end of its step. -/
def executeOne (s : State) : Result :=
  match fetch s with
  | .illegal opcode _ => .fault (.decodeError s.cpu.pc opcode)
  | .instr i s' => finishStep (exec i s')

/-- `step()` of the CPU (35_execution R170); the cycles it returns are what it adds to `cycles`. -/
def cpuStep (s : State) : Result :=
  if s.cpu.halted then .fault (.decodeError s.cpu.faultPc s.cpu.faultOpcode)
  else
    match poll s with
    | .nmi => .next (endStep (enterNmi s))
    | .irq => .next (endStep (enterIrq s))
    | .none => executeOne s

/-- The state a faulting CPU step leaves behind: halted, with the report (60_exceptions R410). A machine that is
halted already stays as it is. -/
def haltedState (s : State) : State :=
  if s.cpu.halted then s
  else
    match fetch s with
    | .illegal opcode s' => raiseDecodeError s.cpu.pc opcode s'
    | .instr _ _ => s

end Sys2Proof.Machine
end

