-- ==== Sys2Proof/Machine/PpuDots.lean ====
section
/-! DEFINITION. The PPU's dot engine (65_ppu R480-R489): one dot is a chain of stages, each doing the work R480 gives the
current position, and then the advance of the position. -/

namespace Sys2Proof.Machine

/-! ### Positions -/

/-- A line that fetches: a visible line or the pre-render line (R480). -/
def Ppu.renderLine (p : Ppu) : Bool := decide (p.scanline ≤ 239) || decide (p.scanline = 261)

/-- Scanline 241 dot 1, where VBlank begins (R485). -/
def Ppu.atVblankStart (p : Ppu) : Bool := decide (p.scanline = 241) && decide (p.dot = 1)

/-- Scanline 261 dot 1, where the status flags are cleared (R480). -/
def Ppu.atPreRenderStart (p : Ppu) : Bool := decide (p.scanline = 261) && decide (p.dot = 1)

/-- The pre-render clearing of the three flags (R480). -/
def Ppu.preRenderStage (p : Ppu) : Ppu :=
  if p.atPreRenderStart then { p with vblank := false, sprite0 := false, overflow := false } else p

/-- The VBlank flag at its start (R485). -/
def Ppu.vblankStage (p : Ppu) : Ppu := if p.atVblankStart then { p with vblank := true } else p

/-! ### Scroll steps (R481) -/

/-- `inc_coarse_x()`. -/
def incCoarseX (v : BitVec 15) : BitVec 15 :=
  if v.extractLsb 4 0 = 31 then v.extractLsb 14 11 ++ ~~~(v.extractLsb 10 10) ++ v.extractLsb 9 5 ++ 0#5
  else v.extractLsb 14 5 ++ (v.extractLsb 4 0 + 1)

/-- `inc_y()`. -/
def incFineY (v : BitVec 15) : BitVec 15 :=
  if v.extractLsb 14 12 ≠ 7 then (v.extractLsb 14 12 + 1) ++ v.extractLsb 11 0
  else if v.extractLsb 9 5 = 29 then
    0#3 ++ ~~~(v.extractLsb 11 11) ++ v.extractLsb 10 10 ++ 0#5 ++ v.extractLsb 4 0
  else if v.extractLsb 9 5 = 31 then 0#3 ++ v.extractLsb 11 10 ++ 0#5 ++ v.extractLsb 4 0
  else 0#3 ++ v.extractLsb 11 10 ++ (v.extractLsb 9 5 + 1) ++ v.extractLsb 4 0

/-- `copy_x()`. -/
def copyX (t v : BitVec 15) : BitVec 15 :=
  v.extractLsb 14 11 ++ t.extractLsb 10 10 ++ v.extractLsb 9 5 ++ t.extractLsb 4 0

/-- `copy_y()`. -/
def copyY (t v : BitVec 15) : BitVec 15 :=
  t.extractLsb 14 11 ++ v.extractLsb 10 10 ++ t.extractLsb 9 5 ++ v.extractLsb 4 0

/-! ### The background pipeline (R482) -/

/-- The dots at which the shift registers shift. -/
def shiftsAt (d : Nat) : Bool := (decide (2 ≤ d) && decide (d ≤ 257)) || (decide (322 ≤ d) && decide (d ≤ 337))

/-- The dots at which the next tile enters the shift registers. -/
def reloadsAt (d : Nat) : Bool :=
  (decide (9 ≤ d) && decide (d ≤ 257) && decide (d % 8 = 1)) || decide (d = 329) || decide (d = 337)

/-- The dots at which a tile is fetched. -/
def fetchesAt (d : Nat) : Bool := (decide (1 ≤ d) && decide (d ≤ 256)) || (decide (321 ≤ d) && decide (d ≤ 336))

/-- The shift of the four background registers. -/
def Ppu.shiftStage (p : Ppu) : Ppu :=
  if shiftsAt p.dot then
    { p with bgLo := p.bgLo <<< 1, bgHi := p.bgHi <<< 1, atLo := p.atLo <<< 1, atHi := p.atHi <<< 1 }
  else p

/-- An attribute bit spread over a byte. -/
def spread (b : Bool) : Byte := if b then 0xFF else 0x00

/-- The reload of the low bytes of the background registers. -/
def Ppu.reloadStage (p : Ppu) : Ppu :=
  if reloadsAt p.dot then
    { p with
      bgLo := p.bgLo.extractLsb 15 8 ++ p.ptLoLatch
      bgHi := p.bgHi.extractLsb 15 8 ++ p.ptHiLatch
      atLo := p.atLo.extractLsb 15 8 ++ spread (p.atLatch.getLsbD 0)
      atHi := p.atHi.extractLsb 15 8 ++ spread (p.atLatch.getLsbD 1) }
  else p

/-- `0x2000 | v[11:0]`. -/
def Ppu.ntAddr (p : Ppu) : BitVec 14 := 2#2 ++ p.v.extractLsb 11 0

/-- `0x23C0 | (v[11:10] << 10) | (v[9:7] << 3) | v[4:2]`. -/
def Ppu.atAddr (p : Ppu) : BitVec 14 :=
  2#2 ++ p.v.extractLsb 11 10 ++ 0xF#4 ++ p.v.extractLsb 9 7 ++ p.v.extractLsb 4 2

/-- The two attribute bits of the tile, at bit `(v[6] << 2) | (v[1] << 1)` of the attribute byte. -/
def Ppu.atBits (at_ : Byte) (p : Ppu) : BitVec 2 :=
  (at_ >>> (4 * (p.v.getLsbD 6).toNat + 2 * (p.v.getLsbD 1).toNat)).extractLsb 1 0

/-- `ctrl.bg_table * 0x1000 + nt_latch * 16 + v[14:12]`, plus 8 for the high plane. -/
def Ppu.ptAddr (high : Bool) (p : Ppu) : BitVec 14 :=
  0#1 ++ bit1 p.bgTable ++ p.ntLatch ++ bit1 high ++ p.v.extractLsb 14 12

/-- The fetch of one of the four bytes of a tile, and `inc_coarse_x()` after the fourth. -/
def Ppu.fetchStage (c : Cartridge) (p : Ppu) : Ppu :=
  if fetchesAt p.dot then
    match (p.dot - 1) % 8 with
    | 1 => { p with ntLatch := ppuRead c p p.ntAddr }
    | 3 => { p with atLatch := p.atBits (ppuRead c p p.atAddr) }
    | 5 => { p with ptLoLatch := ppuRead c p (p.ptAddr false) }
    | 7 => { p with ptHiLatch := ppuRead c p (p.ptAddr true), v := incCoarseX p.v }
    | _ => p
  else p

/-- The scroll steps at the end of a line and on the pre-render line. -/
def Ppu.scrollStage (p : Ppu) : Ppu :=
  if p.dot = 256 then { p with v := incFineY p.v }
  else if p.dot = 257 then { p with v := copyX p.t p.v }
  else if p.scanline = 261 ∧ 280 ≤ p.dot ∧ p.dot ≤ 304 then { p with v := copyY p.t p.v }
  else p

/-- `background_dot(s, d)` on a render line with rendering on (R480, R482). -/
def Ppu.backgroundStage (c : Cartridge) (p : Ppu) : Ppu :=
  if p.renderLine && p.rendering then
    Ppu.scrollStage (Ppu.fetchStage c (Ppu.reloadStage (Ppu.shiftStage p)))
  else p

/-! ### Sprites (R483, R484) -/

/-- The sprite height. -/
def Ppu.spriteHeight (p : Ppu) : Nat := if p.spSize then 16 else 8

/-- Byte `j` of OAM sprite `i` (R466). -/
def Ppu.oamByte (p : Ppu) (i j : Nat) : Byte := p.oam.read (4 * i + j)

/-- Whether OAM sprite `i` lies on line `s`: `0 <= s - y < h`. -/
def Ppu.spriteInRange (p : Ppu) (s i : Nat) : Bool :=
  decide ((p.oamByte i 0).toNat ≤ s) && decide (s - (p.oamByte i 0).toNat < p.spriteHeight)

/-- OAM sprite `i` enters secondary OAM. -/
def Ppu.addSprite (i : Nat) (p : Ppu) : Ppu :=
  { p with
    soam := (((p.soam.setIfInBounds (4 * p.soamCount) (p.oamByte i 0)).setIfInBounds (4 * p.soamCount + 1)
      (p.oamByte i 1)).setIfInBounds (4 * p.soamCount + 2) (p.oamByte i 2)).setIfInBounds (4 * p.soamCount + 3)
      (p.oamByte i 3)
    sprite0Next := p.sprite0Next || decide (i = 0)
    soamCount := p.soamCount + 1 }

/-- The scan of OAM in order; the ninth sprite of a line sets the overflow flag and stops it. -/
def scanSprites (s : Nat) : List Nat → Ppu → Ppu
  | [], p => p
  | i :: rest, p =>
    if p.spriteInRange s i then
      if p.soamCount < 8 then scanSprites s rest (p.addSprite i) else { p with overflow := true }
    else scanSprites s rest p

/-- Secondary OAM cleared. -/
def Ppu.clearSoam (p : Ppu) : Ppu :=
  { p with soam := Vector.replicate 32 0xFF, soamCount := 0, sprite0Next := false }

/-- `evaluate_sprites(s)` at dot 65 of a visible line with rendering on (R480, R483). -/
def Ppu.evaluateStage (p : Ppu) : Ppu :=
  if p.scanline ≤ 239 ∧ p.dot = 65 ∧ p.rendering = true then
    scanSprites p.scanline (List.range 64) p.clearSoam
  else p

/-- Byte `j` of the sprite `k` of secondary OAM. -/
def Ppu.soamByte (p : Ppu) (k j : Nat) : Byte := (p.soam[4 * k + j]?).getD 0

/-- The row of a sprite on a line, flipped when its attribute says so, over the integers (R484). -/
def Ppu.spriteRow (p : Ppu) (y attr : Byte) : Int :=
  if attr.getLsbD 7 then (p.spriteHeight : Int) - 1 - ((p.scanline : Int) - y.toNat)
  else (p.scanline : Int) - y.toNat

/-- The pattern address of a sprite row (R484), its low 14 bits. -/
def Ppu.spriteAddr (p : Ppu) (tile : Byte) (row : Int) : BitVec 14 :=
  if p.spSize then
    BitVec.ofInt 14 ((tile.getLsbD 0).toNat * 0x1000 + (tile &&& 0xFE).toNat * 16 + (if 8 ≤ row then 16 else 0)
      + row % 8)
  else BitVec.ofInt 14 (p.spTable.toNat * 0x1000 + tile.toNat * 16 + row)

/-- A pattern byte, reversed when the attribute says so (R484). -/
def flipByte (attr b : Byte) : Byte := if attr.getLsbD 6 then reverse8 b else b

/-- The unit of the sprite `k` of secondary OAM (R484). -/
def Ppu.fetchUnit (c : Cartridge) (p : Ppu) (k : Nat) : SpriteUnit :=
  let attr := p.soamByte k 2
  let addr := p.spriteAddr (p.soamByte k 1) (p.spriteRow (p.soamByte k 0) attr)
  { lo := flipByte attr (ppuRead c p addr), hi := flipByte attr (ppuRead c p (addr + 8)), attr := attr,
    xpos := p.soamByte k 3, valid := true }

/-- Whether the units of this line's end come from secondary OAM (R484). -/
def Ppu.loadsUnits (p : Ppu) : Bool := p.rendering && decide (p.scanline ≤ 239)

/-- `load_sprites(s)` at dot 257 of a render line (R480, R484). -/
def Ppu.loadStage (c : Cartridge) (p : Ppu) : Ppu :=
  if p.renderLine = true ∧ p.dot = 257 then
    { p with
      units := Vector.ofFn fun k : Fin 8 =>
        if p.loadsUnits = true ∧ k.val < p.soamCount then p.fetchUnit c k.val
        else { p.units[k.val] with valid := false }
      sprite0Line := p.loadsUnits && p.sprite0Next }
  else p

/-! ### Pixels (R486-R488) -/

/-- A background pixel: its two pattern bits and its two attribute bits. -/
structure BgPixel where
  bg : BitVec 2
  pal : BitVec 2

/-- A sprite pixel. -/
structure SpPixel where
  sp : BitVec 2
  pal : BitVec 2
  front : Bool
  is0 : Bool

/-- The background pixel of column `px`, bit `15 - x` of the registers; 0 where the layer is hidden. -/
def Ppu.bgPixel (p : Ppu) (px : Nat) : BgPixel :=
  if p.showBg && (decide (8 ≤ px) || p.bgLeft) then
    ⟨bit1 (p.bgHi.getLsbD (15 - p.x.toNat)) ++ bit1 (p.bgLo.getLsbD (15 - p.x.toNat)),
      bit1 (p.atHi.getLsbD (15 - p.x.toNat)) ++ bit1 (p.atLo.getLsbD (15 - p.x.toNat))⟩
  else ⟨0, 0⟩

/-- The pattern bits of a unit at column `px`; 0 where it has none. -/
def SpriteUnit.pixel (u : SpriteUnit) (px : Nat) : BitVec 2 :=
  if u.valid && decide (u.xpos.toNat ≤ px) && decide (px ≤ u.xpos.toNat + 7) then
    bit1 (u.hi.getLsbD (7 - (px - u.xpos.toNat))) ++ bit1 (u.lo.getLsbD (7 - (px - u.xpos.toNat)))
  else 0

/-- The first unit with a non-zero pixel wins. -/
def Ppu.firstUnit (p : Ppu) (px : Nat) : List Nat → SpPixel
  | [] => ⟨0, 0, false, false⟩
  | k :: rest =>
    let u := (p.units[k]?).getD SpriteUnit.empty
    if u.pixel px ≠ 0 then
      ⟨u.pixel px, u.attr.extractLsb 1 0, !u.attr.getLsbD 5, decide (k = 0) && p.sprite0Line⟩
    else p.firstUnit px rest

/-- The sprite pixel of column `px`. -/
def Ppu.spPixel (p : Ppu) (px : Nat) : SpPixel :=
  if p.showSp && (decide (8 ≤ px) || p.spLeft) then p.firstUnit px (List.range 8) else ⟨0, 0, false, false⟩

/-- `sprite_zero_check` (R487). -/
def Ppu.spriteZeroHit (p : Ppu) (px : Nat) : Bool :=
  (p.spPixel px).is0 && decide ((p.bgPixel px).bg ≠ 0) && decide ((p.spPixel px).sp ≠ 0) && p.showBg && p.showSp &&
    decide (px ≠ 255)

/-- The palette cell of the composed pixel (R486). -/
def Ppu.pixelColor (p : Ppu) (px : Nat) : BitVec 6 :=
  let b := p.bgPixel px
  let o := p.spPixel px
  let bgColor := p.color (0x3F00 + 4 * b.pal.toNat + b.bg.toNat)
  let spColor := p.color (0x3F10 + 4 * o.pal.toNat + o.sp.toNat)
  if b.bg = 0 ∧ o.sp = 0 then p.color 0x3F00
  else if b.bg = 0 then spColor
  else if o.sp = 0 then bgColor
  else if o.front then spColor
  else bgColor

/-- The palette index of a visible pixel: the backdrop with rendering off, greyed when PPUMASK says so (R486, R489). -/
def Ppu.pixelIndex (p : Ppu) (px : Nat) : BitVec 6 :=
  let idx := if p.rendering then p.pixelColor px else p.color 0x3F00
  if p.grey then idx &&& 0x30 else idx

/-- A pixel of a screen replaced. -/
def Screen.set (screen : Screen) (s px : Nat) (c : Rgb) : Screen :=
  if h : s < 240 then Vector.set screen s ((screen[s]'h).setIfInBounds px c) h else screen

/-- `output_pixel(s, d - 1)` at dots 1 to 256 of a visible line (R480, R486, R487). -/
def Ppu.pixelStage (p : Ppu) : Ppu :=
  if p.scanline ≤ 239 ∧ 1 ≤ p.dot ∧ p.dot ≤ 256 then
    { p with
      sprite0 := p.sprite0 || (p.rendering && p.spriteZeroHit (p.dot - 1))
      framebuffer := Screen.set p.framebuffer p.scanline (p.dot - 1) (Config.paletteRgb (p.pixelIndex (p.dot - 1))) }
  else p

/-! ### The dot -/

/-- The advance of the position; at the wrap the frame is handed over (R480, R488). -/
def Ppu.advance (p : Ppu) : Ppu :=
  if p.dot + 1 = 341 then
    if p.scanline + 1 = 262 then
      { p with dot := 0, scanline := 0, frameOut := p.framebuffer, frameComplete := true }
    else { p with dot := 0, scanline := p.scanline + 1 }
  else { p with dot := p.dot + 1 }

/-- The work of the current position, in the order of R480. -/
def Ppu.dotWork (c : Cartridge) (p : Ppu) : Ppu :=
  Ppu.pixelStage (Ppu.loadStage c (Ppu.evaluateStage (Ppu.backgroundStage c (Ppu.vblankStage (Ppu.preRenderStage p)))))

/-- `step_dot()` (R480): the dot's work and the advance; at the start of VBlank, NMI if it is enabled (R485). -/
def stepDot (s : State) : State :=
  (s.mapPpu fun p => (Ppu.dotWork s.cart p).advance).mapCpu fun c =>
    { c with nmiPending := c.nmiPending || (s.ppu.atVblankStart && s.ppu.nmiEnable) }

end Sys2Proof.Machine
end

