-- ==== Sys2Proof/Machine/Scheduler.lean ====
section
/-! DEFINITION. The scheduler (67_io_scheduler_host R585-R587): one pass is a CPU step, its ticks, and its stall. -/

namespace Sys2Proof.Machine

/-- `tick()` (R585): three dots, then one APU cycle. -/
def tick (s : State) : State := stepCycle (stepDot (stepDot (stepDot s)))

/-- `repeat c times: tick()` (R585). -/
def ticks : Nat → State → State
  | 0, s => s
  | n + 1, s => ticks n (tick s)

/-- One stall cycle (R586). -/
def stallTick (s : State) : State :=
  tick (s.mapCpu fun c => { c with stall := c.stall - 1, cycles := c.cycles + 1 })

/-- At most `fuel` cycles of the stall loop (R586). -/
def runStall : Nat → State → State
  | 0, s => s
  | fuel + 1, s => if s.cpu.stall = 0 then s else runStall fuel (stallTick s)

/-- More cycles than the stall loop can take, DMC fetches inside it included (assumption log, entry 9). -/
def stallFuel (s : State) : Nat := 2 * s.cpu.stall + 17

/-- `apply_stall()` (R586). -/
def applyStall (s : State) : State := runStall (stallFuel s) s

/-- The part of a pass after the CPU step that led from `s` to `t`: the ticks of its cycles, then the stall (R585). -/
def distribute (s t : State) : State := applyStall (ticks (t.cpu.cycles - s.cpu.cycles) t)

/-- One pass of the scheduler's loop (R585, R587). -/
def schedulerPass (s : State) : Result :=
  match cpuStep s with
  | .next t => .next (distribute s t)
  | .fault r => .fault r
  | .refused r => .refused r

/-! ### Placing an instruction where the next step fetches it -/

/-- Whether a byte can be placed at an address: RAM or PRG ROM (20_memory R70). -/
def storable (addr : Word) : Bool :=
  match busTarget addr with
  | .ram _ | .prg _ => true
  | .ppu _ | .apu _ | .oamDma | .apuStatus | .port1 | .port2 | .unmapped => false

/-- Put a byte at an address from outside the machine, as loading a program does: PRG ROM too takes it. -/
def placeByte (addr : Word) (v : Byte) (s : State) : State :=
  match busTarget addr with
  | .ram offset => { s with ram := s.ram.write offset v }
  | .prg offset =>
    { s with cart := { s.cart with prg := s.cart.prg.write (offset % s.cart.prgSize.bytes) v } }
  | .ppu _ | .apu _ | .oamDma | .apuStatus | .port1 | .port2 | .unmapped => s

/-- Put bytes at an address and the ones after it. -/
def placeBytes : Word → List Byte → State → State
  | _, [], s => s
  | addr, v :: rest, s => placeBytes (addr + 1) rest (placeByte addr v s)

/-- PC where it is, if an instruction of three bytes can be placed there; else the start of PRG ROM. -/
def placePc (s : State) : State :=
  if storable s.cpu.pc && storable (s.cpu.pc + 1) && storable (s.cpu.pc + 2) then s
  else s.mapCpu (Cpu.setPc 0x8000)

/-- The machine made ready to fetch: not halted, and no interrupt that the poll would take first. -/
def readyToFetch (s : State) : State :=
  match poll s with
  | .none => s.mapCpu fun c => { c with halted := false }
  | .nmi | .irq =>
    (s.mapCpu fun c => { c with halted := false, nmiPending := false }).mapApu fun u =>
      { u with frameIrq := u.frameIrq && s.cpu.p.i, dmcIrq := u.dmcIrq && s.cpu.p.i }

/-- The machine with these bytes as its next instruction. -/
def placeInstruction (bytes : List Byte) (s : State) : State :=
  let s' := placePc (readyToFetch s)
  placeBytes s'.cpu.pc bytes s'

end Sys2Proof.Machine
end

