-- ==== Sys2Proof/Machine/Step.lean ====
section
/-! DEFINITION. The step of the machine: one pass of the scheduler (67_io_scheduler_host R585), that is one CPU step with
the dots and APU cycles of its time. -/

namespace Sys2Proof.Machine

/-- One step of the whole machine. -/
def step (s : State) : Host.Outcome State Fault Refusal := schedulerPass s

/-- The machine with an instruction of `nbits` bits, numbered as spec/opcode_table.json numbers them, stored where the
next step fetches; every bit above them, up to three bytes, is 0. -/
def State.withFetchWord (s : State) (nbits w : Nat) : State :=
  placeInstruction (bytesOfNat (w % 2 ^ nbits)) s

end Sys2Proof.Machine
end

