-- ==== Sys2Proof/Machine/HostCalls.lean ====
section
/-! DEFINITION. The host's entry points (67_io_scheduler_host R590-R597) beside the step: loading a ROM (20_memory R81,
R82) and power-on, the reset sequence (70_reset_and_hazards R610), one frame, the buttons, and the snapshot. -/

namespace Sys2Proof.Machine

/-- The errors of the host's calls (60_exceptions R411); the live state is unchanged when one is answered. -/
inductive HostError where
  /-- `RomFormatError` (20_memory R82). -/
  | romFormat
  /-- `SaveStateFormatError` (R593). -/
  | saveStateFormat
  deriving DecidableEq, Repr

/-! ### The iNES loader -/

/-- Byte `i` of a file; 0 past its end (the length is checked). -/
def fileByte (rom : List Byte) (i : Nat) : Byte := (rom[i]?).getD 0

/-- The magic bytes (R81). -/
def hasMagic (rom : List Byte) : Bool := decide (rom.take 4 = [0x4E, 0x45, 0x53, 0x1A])

/-- The mapper number: `byte7[7:4] ++ byte6[7:4]` (R81). -/
def mapperNumber (rom : List Byte) : BitVec 8 := (fileByte rom 7).extractLsb 7 4 ++ (fileByte rom 6).extractLsb 7 4

/-- Where PRG ROM begins: after the header and the trainer (R81). -/
def prgStart (rom : List Byte) : Nat := 16 + (if (fileByte rom 6).getLsbD 2 then 512 else 0)

/-- The bytes of PRG ROM the header declares (R81). -/
def prgLength (rom : List Byte) : Nat := 16384 * (fileByte rom 4).toNat

/-- The bytes of CHR ROM the header declares (R81). -/
def chrLength (rom : List Byte) : Nat := 8192 * (fileByte rom 5).toNat

/-- A file the loader accepts: none of the cases of R82. -/
def romAccepted (rom : List Byte) : Bool :=
  hasMagic rom && decide (mapperNumber rom = 0) &&
    decide (16 ≤ rom.length ∧ prgStart rom + prgLength rom + chrLength rom ≤ rom.length) &&
    (decide (fileByte rom 4 = 1) || decide (fileByte rom 4 = 2)) && decide ((fileByte rom 5).toNat ≤ 1) &&
    !(fileByte rom 6).getLsbD 3

/-- The cartridge of an accepted file; with no CHR ROM it has CHR RAM, whose contents are a draw (R79, R81). -/
def cartridgeOf (draw : Draw) (rom : List Byte) : Cartridge where
  prgSize := if fileByte rom 4 = 1 then .k16 else .k32
  prg := Memory.ofBytes 0 ((rom.drop (prgStart rom)).take (prgLength rom))
  chr :=
    if fileByte rom 5 = 0 then draw.chrRam
    else Memory.ofBytes 0 ((rom.drop (prgStart rom + prgLength rom)).take (chrLength rom))
  chrIsRam := decide (fileByte rom 5 = 0)
  mirroring := if (fileByte rom 6).getLsbD 0 then .vertical else .horizontal

/-! ### Power-on and reset -/

/-- The CPU record at power-on, before the reset sequence (10_state R30). -/
def Cpu.powerOn (draw : Draw) : Cpu where
  a := draw.a
  x := draw.x
  y := draw.y
  sp := draw.sp
  pc := 0
  p := { c := draw.c, z := draw.z, i := false, d := draw.d, v := draw.v, n := draw.n }
  cycles := 0
  nmiPending := false
  stall := 0
  halted := false
  oamDmaStarted := false
  faultPc := 0
  faultOpcode := 0

/-- The CPU's part of the reset sequence, with the vector read (R610). -/
def Cpu.afterReset (vector : Word) (c : Cpu) : Cpu :=
  { c with
    sp := c.sp - 3
    p := { c.p with i := false }
    pc := vector
    nmiPending := false
    stall := 0
    oamDmaStarted := false
    halted := false
    cycles := c.cycles + 7 }

/-- `reset_sequence()` (R610): it reads the vector through the bus and advances neither the PPU nor the APU. -/
def resetSequence (s : State) : State :=
  let vector := busRead16 resetVector s
  vector.2.mapCpu (Cpu.afterReset vector.1)

/-- The PPU's RESET values (65_ppu R461). -/
def Ppu.onReset (p : Ppu) : Ppu :=
  { p with ctrl := 0, mask := 0, w := false, readBuffer := 0, frameComplete := false }

/-- The APU's RESET values (66_apu R520, 92 D33). -/
def Apu.onReset (u : Apu) : Apu :=
  { u with
    pulse1 := { u.pulse1 with length := 0, enabled := false }
    pulse2 := { u.pulse2 with length := 0, enabled := false }
    triangle := { u.triangle with length := 0, enabled := false }
    noise := { u.noise with length := 0, enabled := false }
    dmc := { u.dmc with remaining := 0 }
    frameIrq := false
    dmcIrq := false
    fsCycle := 0 }

/-- `reset()` (R595, R610). -/
def hostReset (s : State) : State := resetSequence ((s.mapPpu Ppu.onReset).mapApu Apu.onReset)

/-- Every state record at its power-on value, with this cartridge (R590). -/
def powerOnState (cart : Cartridge) (draw : Draw) (openBusReads : Nat) : State where
  cpu := Cpu.powerOn draw
  ram := draw.ram
  cart := cart
  ppu := Ppu.powerOn draw
  apu := Apu.powerOn
  pads := Pads.powerOn
  openBusReads := openBusReads

/-- `power_on(rom)` (R590): a rejected file leaves the machine as it was, with the error. -/
def powerOn (rom : List Byte) (draw : Draw) (s : State) : Except HostError State :=
  if romAccepted rom then .ok (resetSequence (powerOnState (cartridgeOf draw rom) draw s.openBusReads))
  else .error .romFormat

/-! ### One frame -/

/-- What `run_frame()` returns (R585). -/
inductive FrameResult where
  /-- A completed frame, and the samples of the frame step. -/
  | frame (pixels : Screen) (samples : List Rat)
  /-- The `DecodeError` report. -/
  | fault (pc : Word) (opcode : Byte)
  /-- An instruction without a meaning; no instruction of this model is one. -/
  | refused (r : Refusal)
  deriving DecidableEq, Repr

/-- The frame loop, at most `fuel` passes; none if they do not reach the end of the frame. -/
def frameLoop : Nat → State → Option (FrameResult × State)
  | 0, _ => none
  | fuel + 1, s =>
    match schedulerPass s with
    | .fault (.decodeError pc opcode) => some (.fault pc opcode, haltedState s)
    | .refused r => some (.refused r, s)
    | .next t => if t.ppu.frameComplete then some (.frame t.ppu.frameOut t.apu.samples, t) else frameLoop fuel t

/-- What `run_frame()` clears first (R585). -/
def frameStart (s : State) : State :=
  (s.mapPpu fun p => { p with frameComplete := false }).mapApu fun u => { u with samples := [] }

/-- More passes than a frame can take: each runs at least 2 ticks of 3 dots, and a frame is 89,342 dots (R585;
assumption log, entry 10). -/
def frameFuel : Nat := 14892

/-- `run_frame()` (R585). -/
def runFrame (s : State) : Option (FrameResult × State) :=
  if s.cpu.halted then some (.fault s.cpu.faultPc s.cpu.faultOpcode, frameStart s)
  else frameLoop frameFuel (frameStart s)

/-! ### Buttons -/

/-- The two controller ports. -/
inductive Port where
  | one
  | two
  deriving DecidableEq, Repr

/-- `set_buttons(k, bits)` (R582). -/
def setButtons (k : Port) (bits : Byte) (s : State) : State :=
  match k with
  | .one => s.mapPads fun d => { d with buttons1 := bits }
  | .two => s.mapPads fun d => { d with buttons2 := bits }

/-! ### Save-state (R592-R594) -/

/-- A snapshot: every mutable field of the machine, and the tag. -/
structure SaveState where
  tag : Nat
  cpu : Cpu
  ram : Memory
  /-- CHR RAM, when the cartridge has it. -/
  chrRam : Option Memory
  ppu : Ppu
  apu : Apu
  pads : Pads
  deriving DecidableEq, Repr

/-- The wire format, an OPEN parameter (R593): an encoding and a decoding of snapshots with the one law. -/
structure WireFormat (Blob : Type) where
  encode : SaveState → Blob
  decode : Blob → Option SaveState
  decode_encode : ∀ s, decode (encode s) = some s

/-- The snapshot of a state (R592). -/
def snapshot (s : State) : SaveState where
  tag := Config.saveTag
  cpu := s.cpu
  ram := s.ram
  chrRam := if s.cart.chrIsRam then some s.cart.chr else none
  ppu := s.ppu
  apu := s.apu
  pads := s.pads

/-- `capture()` (R592). -/
def capture {Blob : Type} (wire : WireFormat Blob) (s : State) : Blob := wire.encode (snapshot s)

/-- A memory of a snapshot: canonical and within its size. -/
def Memory.sized (n : Nat) (m : Memory) : Bool := decide m.wf && decide (m.below n)

/-- The PPU's fields in their declared ranges (65_ppu R462). -/
def Ppu.inRange (p : Ppu) : Bool :=
  p.vram.sized 0x800 && p.oam.sized 0x100 && decide (p.soamCount ≤ 8) && decide (p.scanline ≤ 261) &&
    decide (p.dot ≤ 340)

/-- The last value `fs_cycle` takes in its mode's sequence (66_apu R541). -/
def lastSequencerCycle (fiveStep : Bool) : Nat := if fiveStep then 37281 else 29829

/-- The APU's fields in their declared ranges (66_apu R520). -/
def Apu.inRange (u : Apu) : Bool :=
  decide (u.pulse1.length ≤ 254) && decide (u.pulse2.length ≤ 254) && decide (u.triangle.length ≤ 254) &&
    decide (u.noise.length ≤ 254) && decide (u.noise.lfsr ≠ 0) &&
    decide (1 ≤ u.dmc.bitsLeft ∧ u.dmc.bitsLeft ≤ 8) && decide (u.fsCycle ≤ lastSequencerCycle u.fsMode) &&
    decide (0 ≤ u.sampleAcc ∧ u.sampleAcc < Config.cpuHz)

/-- The CHR RAM of a snapshot fits the loaded cartridge: none for CHR ROM (R594). -/
def chrFits (cart : Cartridge) (chrRam : Option Memory) : Bool :=
  match chrRam with
  | none => true
  | some m => cart.chrIsRam && m.sized 0x2000

/-- `well_formed(s)` for the cartridge now loaded (R594): the declared ranges. DESIGN CHOICE (assumption log, entry 12): the
CPU's fields have the range of their width alone, so a snapshot with `oam_dma_started = 1` is well formed, although 10_state
R30 has it "always 0 between steps". -/
def SaveState.wellFormed (cart : Cartridge) (v : SaveState) : Bool :=
  v.ram.sized 0x800 && v.ppu.inRange && v.apu.inRange && chrFits cart v.chrRam

/-- Every part of the snapshot overwrites the live one; the cartridge now loaded is kept (R592, R593). -/
def overwrite (v : SaveState) (s : State) : State :=
  { s with
    cpu := v.cpu
    ram := v.ram
    cart := { s.cart with chr := v.chrRam.getD s.cart.chr }
    ppu := v.ppu
    apu := v.apu
    pads := v.pads }

/-- `restore(blob)` (R593): on an error the live state is untouched. -/
def restore {Blob : Type} (wire : WireFormat Blob) (blob : Blob) (s : State) : Except HostError State :=
  match wire.decode blob with
  | none => .error .saveStateFormat
  | some v =>
    if v.tag = Config.saveTag ∧ v.wellFormed s.cart = true then .ok (overwrite v s) else .error .saveStateFormat

end Sys2Proof.Machine
end

