-- ==== Sys2Proof/Safety.lean ====
section
/-! DEFINITION. The vocabulary of the claims: the opcode table's rows as data (30_encoding R126), which registers and
flags an operation writes (10_state R31-R43), the addresses an instruction stores to, the memory addresses of the CPU,
the position of the PPU, and the invariant that every step keeps. Nothing here says what a step does. -/

namespace Sys2Proof
namespace Machine

/-! ### The opcode table -/

/-- The 56 mnemonics. -/
inductive Operation where
  | lda
  | ldx
  | ldy
  | sta
  | stx
  | sty
  | tax
  | tay
  | txa
  | tya
  | tsx
  | txs
  | pha
  | php
  | pla
  | plp
  | adc
  | sbc
  | and
  | ora
  | eor
  | bit
  | cmp
  | cpx
  | cpy
  | inc
  | dec
  | inx
  | iny
  | dex
  | dey
  | asl
  | lsr
  | rol
  | ror
  | jmp
  | jsr
  | rts
  | bcc
  | bcs
  | beq
  | bmi
  | bne
  | bpl
  | bvc
  | bvs
  | clc
  | sec
  | cli
  | sei
  | cld
  | sed
  | clv
  | brk
  | rti
  | nop
  deriving DecidableEq, Repr

/-- What an instruction's operand is (30_encoding R131-R141, 35_execution R173). -/
inductive OperandForm where
  /-- Nothing, or registers the instruction names itself. -/
  | implied
  /-- The accumulator. -/
  | accumulator
  /-- The byte itself. -/
  | immediate (v : Byte)
  /-- The byte at an effective address. -/
  | memory (m : Mode)
  /-- The address itself (JMP, JSR). -/
  | target (a : Word)
  /-- The pointer of `JMP (ind)`. -/
  | pointer (a : Word)
  /-- The displacement of a branch. -/
  | relative (d : Int)
  deriving DecidableEq, Repr

/-- A row of the per-opcode table of R126. -/
structure Row where
  op : Operation
  operand : OperandForm
  opcode : Byte
  length : Nat
  /-- `base_cycles`. -/
  cycles : Nat
  /-- `page_penalty` (35_execution R176). -/
  penalty : Bool
  deriving DecidableEq, Repr

/-! ### Who writes what (10_state R31-R43) -/

/-- Whether a branch is taken (44_control_flow R334-R341). -/
def Operation.taken (o : Operation) (p : Flags) : Bool :=
  match o with
  | .bcc => !p.c
  | .bcs => p.c
  | .beq => p.z
  | .bmi => p.n
  | .bne => !p.z
  | .bpl => !p.n
  | .bvc => !p.v
  | .bvs => p.v
  | _ => false

/-- R32. -/
def Operation.writesX (o : Operation) : Bool := decide (o ∈ [.ldx, .tax, .tsx, .inx, .dex])

/-- R33. -/
def Operation.writesY (o : Operation) : Bool := decide (o ∈ [.ldy, .tay, .iny, .dey])

/-- R34, without interrupt entry and RESET. -/
def Operation.writesSp (o : Operation) : Bool :=
  decide (o ∈ [.txs, .pha, .php, .pla, .plp, .jsr, .rts, .brk, .rti])

/-- R37. -/
def Operation.writesC (o : Operation) : Bool :=
  decide (o ∈ [.adc, .sbc, .cmp, .cpx, .cpy, .asl, .lsr, .rol, .ror, .clc, .sec, .plp, .rti])

/-- R38 and R43: the operations that write Z, which are those that write N. -/
def Operation.writesNZ (o : Operation) : Bool :=
  decide (o ∈ [.lda, .ldx, .ldy, .tax, .tay, .txa, .tya, .tsx, .pla, .adc, .sbc, .and, .ora, .eor, .cmp, .cpx, .cpy,
    .inc, .dec, .inx, .iny, .dex, .dey, .asl, .lsr, .rol, .ror, .bit, .plp, .rti])

/-- R39, without interrupt entry and RESET. -/
def Operation.writesI (o : Operation) : Bool := decide (o ∈ [.sei, .cli, .plp, .rti, .brk])

/-- R40. -/
def Operation.writesD (o : Operation) : Bool := decide (o ∈ [.sed, .cld, .plp, .rti])

/-- R42. -/
def Operation.writesV (o : Operation) : Bool := decide (o ∈ [.adc, .sbc, .bit, .clv, .plp, .rti])

/-- R42: the operations that may set V to 1. -/
def Operation.setsV (o : Operation) : Bool := decide (o ∈ [.adc, .sbc, .bit, .plp, .rti])

end Machine

open Machine

/-! ### Instructions in a state -/

/-- The row of an instruction (R126). -/
def Instr.row : Instr → Row
  | .ldaImm v => ⟨.lda, (.immediate v), 0xA9, 2, 2, false⟩
  | .ldaZp z => ⟨.lda, (.memory (.zp z)), 0xA5, 2, 3, false⟩
  | .ldaZpx z => ⟨.lda, (.memory (.zpx z)), 0xB5, 2, 4, false⟩
  | .ldaAbs a => ⟨.lda, (.memory (.abs a)), 0xAD, 3, 4, false⟩
  | .ldaAbsx a => ⟨.lda, (.memory (.absx a)), 0xBD, 3, 4, true⟩
  | .ldaAbsy a => ⟨.lda, (.memory (.absy a)), 0xB9, 3, 4, true⟩
  | .ldaIzx z => ⟨.lda, (.memory (.izx z)), 0xA1, 2, 6, false⟩
  | .ldaIzy z => ⟨.lda, (.memory (.izy z)), 0xB1, 2, 5, true⟩
  | .ldxImm v => ⟨.ldx, (.immediate v), 0xA2, 2, 2, false⟩
  | .ldxZp z => ⟨.ldx, (.memory (.zp z)), 0xA6, 2, 3, false⟩
  | .ldxZpy z => ⟨.ldx, (.memory (.zpy z)), 0xB6, 2, 4, false⟩
  | .ldxAbs a => ⟨.ldx, (.memory (.abs a)), 0xAE, 3, 4, false⟩
  | .ldxAbsy a => ⟨.ldx, (.memory (.absy a)), 0xBE, 3, 4, true⟩
  | .ldyImm v => ⟨.ldy, (.immediate v), 0xA0, 2, 2, false⟩
  | .ldyZp z => ⟨.ldy, (.memory (.zp z)), 0xA4, 2, 3, false⟩
  | .ldyZpx z => ⟨.ldy, (.memory (.zpx z)), 0xB4, 2, 4, false⟩
  | .ldyAbs a => ⟨.ldy, (.memory (.abs a)), 0xAC, 3, 4, false⟩
  | .ldyAbsx a => ⟨.ldy, (.memory (.absx a)), 0xBC, 3, 4, true⟩
  | .staZp z => ⟨.sta, (.memory (.zp z)), 0x85, 2, 3, false⟩
  | .staZpx z => ⟨.sta, (.memory (.zpx z)), 0x95, 2, 4, false⟩
  | .staAbs a => ⟨.sta, (.memory (.abs a)), 0x8D, 3, 4, false⟩
  | .staAbsx a => ⟨.sta, (.memory (.absx a)), 0x9D, 3, 5, false⟩
  | .staAbsy a => ⟨.sta, (.memory (.absy a)), 0x99, 3, 5, false⟩
  | .staIzx z => ⟨.sta, (.memory (.izx z)), 0x81, 2, 6, false⟩
  | .staIzy z => ⟨.sta, (.memory (.izy z)), 0x91, 2, 6, false⟩
  | .stxZp z => ⟨.stx, (.memory (.zp z)), 0x86, 2, 3, false⟩
  | .stxZpy z => ⟨.stx, (.memory (.zpy z)), 0x96, 2, 4, false⟩
  | .stxAbs a => ⟨.stx, (.memory (.abs a)), 0x8E, 3, 4, false⟩
  | .styZp z => ⟨.sty, (.memory (.zp z)), 0x84, 2, 3, false⟩
  | .styZpx z => ⟨.sty, (.memory (.zpx z)), 0x94, 2, 4, false⟩
  | .styAbs a => ⟨.sty, (.memory (.abs a)), 0x8C, 3, 4, false⟩
  | .tax => ⟨.tax, .implied, 0xAA, 1, 2, false⟩
  | .tay => ⟨.tay, .implied, 0xA8, 1, 2, false⟩
  | .txa => ⟨.txa, .implied, 0x8A, 1, 2, false⟩
  | .tya => ⟨.tya, .implied, 0x98, 1, 2, false⟩
  | .tsx => ⟨.tsx, .implied, 0xBA, 1, 2, false⟩
  | .txs => ⟨.txs, .implied, 0x9A, 1, 2, false⟩
  | .pha => ⟨.pha, .implied, 0x48, 1, 3, false⟩
  | .php => ⟨.php, .implied, 0x08, 1, 3, false⟩
  | .pla => ⟨.pla, .implied, 0x68, 1, 4, false⟩
  | .plp => ⟨.plp, .implied, 0x28, 1, 4, false⟩
  | .adcImm v => ⟨.adc, (.immediate v), 0x69, 2, 2, false⟩
  | .adcZp z => ⟨.adc, (.memory (.zp z)), 0x65, 2, 3, false⟩
  | .adcZpx z => ⟨.adc, (.memory (.zpx z)), 0x75, 2, 4, false⟩
  | .adcAbs a => ⟨.adc, (.memory (.abs a)), 0x6D, 3, 4, false⟩
  | .adcAbsx a => ⟨.adc, (.memory (.absx a)), 0x7D, 3, 4, true⟩
  | .adcAbsy a => ⟨.adc, (.memory (.absy a)), 0x79, 3, 4, true⟩
  | .adcIzx z => ⟨.adc, (.memory (.izx z)), 0x61, 2, 6, false⟩
  | .adcIzy z => ⟨.adc, (.memory (.izy z)), 0x71, 2, 5, true⟩
  | .sbcImm v => ⟨.sbc, (.immediate v), 0xE9, 2, 2, false⟩
  | .sbcZp z => ⟨.sbc, (.memory (.zp z)), 0xE5, 2, 3, false⟩
  | .sbcZpx z => ⟨.sbc, (.memory (.zpx z)), 0xF5, 2, 4, false⟩
  | .sbcAbs a => ⟨.sbc, (.memory (.abs a)), 0xED, 3, 4, false⟩
  | .sbcAbsx a => ⟨.sbc, (.memory (.absx a)), 0xFD, 3, 4, true⟩
  | .sbcAbsy a => ⟨.sbc, (.memory (.absy a)), 0xF9, 3, 4, true⟩
  | .sbcIzx z => ⟨.sbc, (.memory (.izx z)), 0xE1, 2, 6, false⟩
  | .sbcIzy z => ⟨.sbc, (.memory (.izy z)), 0xF1, 2, 5, true⟩
  | .andImm v => ⟨.and, (.immediate v), 0x29, 2, 2, false⟩
  | .andZp z => ⟨.and, (.memory (.zp z)), 0x25, 2, 3, false⟩
  | .andZpx z => ⟨.and, (.memory (.zpx z)), 0x35, 2, 4, false⟩
  | .andAbs a => ⟨.and, (.memory (.abs a)), 0x2D, 3, 4, false⟩
  | .andAbsx a => ⟨.and, (.memory (.absx a)), 0x3D, 3, 4, true⟩
  | .andAbsy a => ⟨.and, (.memory (.absy a)), 0x39, 3, 4, true⟩
  | .andIzx z => ⟨.and, (.memory (.izx z)), 0x21, 2, 6, false⟩
  | .andIzy z => ⟨.and, (.memory (.izy z)), 0x31, 2, 5, true⟩
  | .oraImm v => ⟨.ora, (.immediate v), 0x09, 2, 2, false⟩
  | .oraZp z => ⟨.ora, (.memory (.zp z)), 0x05, 2, 3, false⟩
  | .oraZpx z => ⟨.ora, (.memory (.zpx z)), 0x15, 2, 4, false⟩
  | .oraAbs a => ⟨.ora, (.memory (.abs a)), 0x0D, 3, 4, false⟩
  | .oraAbsx a => ⟨.ora, (.memory (.absx a)), 0x1D, 3, 4, true⟩
  | .oraAbsy a => ⟨.ora, (.memory (.absy a)), 0x19, 3, 4, true⟩
  | .oraIzx z => ⟨.ora, (.memory (.izx z)), 0x01, 2, 6, false⟩
  | .oraIzy z => ⟨.ora, (.memory (.izy z)), 0x11, 2, 5, true⟩
  | .eorImm v => ⟨.eor, (.immediate v), 0x49, 2, 2, false⟩
  | .eorZp z => ⟨.eor, (.memory (.zp z)), 0x45, 2, 3, false⟩
  | .eorZpx z => ⟨.eor, (.memory (.zpx z)), 0x55, 2, 4, false⟩
  | .eorAbs a => ⟨.eor, (.memory (.abs a)), 0x4D, 3, 4, false⟩
  | .eorAbsx a => ⟨.eor, (.memory (.absx a)), 0x5D, 3, 4, true⟩
  | .eorAbsy a => ⟨.eor, (.memory (.absy a)), 0x59, 3, 4, true⟩
  | .eorIzx z => ⟨.eor, (.memory (.izx z)), 0x41, 2, 6, false⟩
  | .eorIzy z => ⟨.eor, (.memory (.izy z)), 0x51, 2, 5, true⟩
  | .bitZp z => ⟨.bit, (.memory (.zp z)), 0x24, 2, 3, false⟩
  | .bitAbs a => ⟨.bit, (.memory (.abs a)), 0x2C, 3, 4, false⟩
  | .cmpImm v => ⟨.cmp, (.immediate v), 0xC9, 2, 2, false⟩
  | .cmpZp z => ⟨.cmp, (.memory (.zp z)), 0xC5, 2, 3, false⟩
  | .cmpZpx z => ⟨.cmp, (.memory (.zpx z)), 0xD5, 2, 4, false⟩
  | .cmpAbs a => ⟨.cmp, (.memory (.abs a)), 0xCD, 3, 4, false⟩
  | .cmpAbsx a => ⟨.cmp, (.memory (.absx a)), 0xDD, 3, 4, true⟩
  | .cmpAbsy a => ⟨.cmp, (.memory (.absy a)), 0xD9, 3, 4, true⟩
  | .cmpIzx z => ⟨.cmp, (.memory (.izx z)), 0xC1, 2, 6, false⟩
  | .cmpIzy z => ⟨.cmp, (.memory (.izy z)), 0xD1, 2, 5, true⟩
  | .cpxImm v => ⟨.cpx, (.immediate v), 0xE0, 2, 2, false⟩
  | .cpxZp z => ⟨.cpx, (.memory (.zp z)), 0xE4, 2, 3, false⟩
  | .cpxAbs a => ⟨.cpx, (.memory (.abs a)), 0xEC, 3, 4, false⟩
  | .cpyImm v => ⟨.cpy, (.immediate v), 0xC0, 2, 2, false⟩
  | .cpyZp z => ⟨.cpy, (.memory (.zp z)), 0xC4, 2, 3, false⟩
  | .cpyAbs a => ⟨.cpy, (.memory (.abs a)), 0xCC, 3, 4, false⟩
  | .incZp z => ⟨.inc, (.memory (.zp z)), 0xE6, 2, 5, false⟩
  | .incZpx z => ⟨.inc, (.memory (.zpx z)), 0xF6, 2, 6, false⟩
  | .incAbs a => ⟨.inc, (.memory (.abs a)), 0xEE, 3, 6, false⟩
  | .incAbsx a => ⟨.inc, (.memory (.absx a)), 0xFE, 3, 7, false⟩
  | .decZp z => ⟨.dec, (.memory (.zp z)), 0xC6, 2, 5, false⟩
  | .decZpx z => ⟨.dec, (.memory (.zpx z)), 0xD6, 2, 6, false⟩
  | .decAbs a => ⟨.dec, (.memory (.abs a)), 0xCE, 3, 6, false⟩
  | .decAbsx a => ⟨.dec, (.memory (.absx a)), 0xDE, 3, 7, false⟩
  | .inx => ⟨.inx, .implied, 0xE8, 1, 2, false⟩
  | .iny => ⟨.iny, .implied, 0xC8, 1, 2, false⟩
  | .dex => ⟨.dex, .implied, 0xCA, 1, 2, false⟩
  | .dey => ⟨.dey, .implied, 0x88, 1, 2, false⟩
  | .aslAcc => ⟨.asl, .accumulator, 0x0A, 1, 2, false⟩
  | .aslZp z => ⟨.asl, (.memory (.zp z)), 0x06, 2, 5, false⟩
  | .aslZpx z => ⟨.asl, (.memory (.zpx z)), 0x16, 2, 6, false⟩
  | .aslAbs a => ⟨.asl, (.memory (.abs a)), 0x0E, 3, 6, false⟩
  | .aslAbsx a => ⟨.asl, (.memory (.absx a)), 0x1E, 3, 7, false⟩
  | .lsrAcc => ⟨.lsr, .accumulator, 0x4A, 1, 2, false⟩
  | .lsrZp z => ⟨.lsr, (.memory (.zp z)), 0x46, 2, 5, false⟩
  | .lsrZpx z => ⟨.lsr, (.memory (.zpx z)), 0x56, 2, 6, false⟩
  | .lsrAbs a => ⟨.lsr, (.memory (.abs a)), 0x4E, 3, 6, false⟩
  | .lsrAbsx a => ⟨.lsr, (.memory (.absx a)), 0x5E, 3, 7, false⟩
  | .rolAcc => ⟨.rol, .accumulator, 0x2A, 1, 2, false⟩
  | .rolZp z => ⟨.rol, (.memory (.zp z)), 0x26, 2, 5, false⟩
  | .rolZpx z => ⟨.rol, (.memory (.zpx z)), 0x36, 2, 6, false⟩
  | .rolAbs a => ⟨.rol, (.memory (.abs a)), 0x2E, 3, 6, false⟩
  | .rolAbsx a => ⟨.rol, (.memory (.absx a)), 0x3E, 3, 7, false⟩
  | .rorAcc => ⟨.ror, .accumulator, 0x6A, 1, 2, false⟩
  | .rorZp z => ⟨.ror, (.memory (.zp z)), 0x66, 2, 5, false⟩
  | .rorZpx z => ⟨.ror, (.memory (.zpx z)), 0x76, 2, 6, false⟩
  | .rorAbs a => ⟨.ror, (.memory (.abs a)), 0x6E, 3, 6, false⟩
  | .rorAbsx a => ⟨.ror, (.memory (.absx a)), 0x7E, 3, 7, false⟩
  | .jmpAbs a => ⟨.jmp, (.target a), 0x4C, 3, 3, false⟩
  | .jmpInd a => ⟨.jmp, (.pointer a), 0x6C, 3, 5, false⟩
  | .jsr a => ⟨.jsr, (.target a), 0x20, 3, 6, false⟩
  | .rts => ⟨.rts, .implied, 0x60, 1, 6, false⟩
  | .bcc d => ⟨.bcc, (.relative d), 0x90, 2, 2, false⟩
  | .bcs d => ⟨.bcs, (.relative d), 0xB0, 2, 2, false⟩
  | .beq d => ⟨.beq, (.relative d), 0xF0, 2, 2, false⟩
  | .bmi d => ⟨.bmi, (.relative d), 0x30, 2, 2, false⟩
  | .bne d => ⟨.bne, (.relative d), 0xD0, 2, 2, false⟩
  | .bpl d => ⟨.bpl, (.relative d), 0x10, 2, 2, false⟩
  | .bvc d => ⟨.bvc, (.relative d), 0x50, 2, 2, false⟩
  | .bvs d => ⟨.bvs, (.relative d), 0x70, 2, 2, false⟩
  | .clc => ⟨.clc, .implied, 0x18, 1, 2, false⟩
  | .sec => ⟨.sec, .implied, 0x38, 1, 2, false⟩
  | .cli => ⟨.cli, .implied, 0x58, 1, 2, false⟩
  | .sei => ⟨.sei, .implied, 0x78, 1, 2, false⟩
  | .cld => ⟨.cld, .implied, 0xD8, 1, 2, false⟩
  | .sed => ⟨.sed, .implied, 0xF8, 1, 2, false⟩
  | .clv => ⟨.clv, .implied, 0xB8, 1, 2, false⟩
  | .brk => ⟨.brk, .implied, 0x00, 1, 7, false⟩
  | .rti => ⟨.rti, .implied, 0x40, 1, 6, false⟩
  | .nop => ⟨.nop, .implied, 0xEA, 1, 2, false⟩

/-- The operation of an instruction. -/
abbrev Instr.op (i : Instr) : Operation := i.row.op

/-- The length in bytes of an instruction (R120). -/
abbrev Instr.length (i : Instr) : Nat := i.row.length

/-- The undocumented opcode bytes (30_encoding R124). -/
def illegalOpcodes : List Byte :=
  [0x02, 0x03, 0x04, 0x07, 0x0B, 0x0C, 0x0F, 0x12, 0x13, 0x14, 0x17, 0x1A, 0x1B, 0x1C, 0x1F] ++
  [0x22, 0x23, 0x27, 0x2B, 0x2F, 0x32, 0x33, 0x34, 0x37, 0x3A, 0x3B, 0x3C, 0x3F] ++
  [0x42, 0x43, 0x44, 0x47, 0x4B, 0x4F, 0x52, 0x53, 0x54, 0x57, 0x5A, 0x5B, 0x5C, 0x5F] ++
  [0x62, 0x63, 0x64, 0x67, 0x6B, 0x6F, 0x72, 0x73, 0x74, 0x77, 0x7A, 0x7B, 0x7C, 0x7F] ++
  [0x80, 0x82, 0x83, 0x87, 0x89, 0x8B, 0x8F, 0x92, 0x93, 0x97, 0x9B, 0x9C, 0x9E, 0x9F] ++
  [0xA3, 0xA7, 0xAB, 0xAF, 0xB2, 0xB3, 0xB7, 0xBB, 0xBF] ++
  [0xC2, 0xC3, 0xC7, 0xCB, 0xCF, 0xD2, 0xD3, 0xD4, 0xD7, 0xDA, 0xDB, 0xDC, 0xDF] ++
  [0xE2, 0xE3, 0xE7, 0xEB, 0xEF, 0xF2, 0xF3, 0xF4, 0xF7, 0xFA, 0xFB, 0xFC, 0xFF]

/-- Where an instruction's memory operand lies in a state; for one without a memory operand, address 0 and the state
with PC advanced. -/
def Instr.located (i : Instr) (s : State) : Located :=
  match i.row.operand with
  | .memory m => locate m (advancePc i.length s)
  | .implied | .accumulator | .immediate _ | .target _ | .pointer _ | .relative _ =>
    ⟨0, false, advancePc i.length s⟩

/-- The operand byte of an instruction in a state, and the state once it is read (35_execution R173); an instruction
without an operand byte reads none. -/
def Instr.operand (i : Instr) (s : State) : Byte × State :=
  match i.row.operand with
  | .accumulator => (s.cpu.a, advancePc i.length s)
  | .immediate v => (v, advancePc i.length s)
  | .memory _ => busRead (i.located s).ea (i.located s).st
  | .implied | .target _ | .pointer _ | .relative _ => (0, advancePc i.length s)

/-- `branch_extra` (35_execution R176). -/
def Instr.branchExtra (i : Instr) (s : State) : Nat :=
  match i.row.operand with
  | .relative d =>
    if i.op.taken s.cpu.p then
      if page (s.cpu.pc + 2) = page (s.cpu.pc + 2 + BitVec.ofInt 16 d) then 1 else 2
    else 0
  | _ => 0

/-- What an instruction costs in a state (35_execution R176). -/
def Instr.cost (i : Instr) (s : State) : Nat :=
  i.row.cycles + (if i.row.penalty && (i.located s).cross then 1 else 0) +
    i.branchExtra s

/-- The state once an instruction is done: the devices and memory of `u`, the registers of `c`, PC past the instruction's
bytes, and its cost counted (35_execution R174, R176). -/
def Instr.leaves (i : Instr) (s u : State) (c : Cpu) : State :=
  { u with cpu := { c with pc := s.cpu.pc + BitVec.ofNat 16 i.length, cycles := s.cpu.cycles + i.cost s } }

/-- The state after one bus write at an instruction's effective address, made in the state `u`. The write may raise NMI
and start an OAM DMA; the CPU registers it leaves alone. -/
def Instr.writes (i : Instr) (s u : State) (v : Byte) (c : Cpu) : State :=
  let w := busWrite (i.located s).ea v u
  i.leaves s w { c with nmiPending := w.cpu.nmiPending, oamDmaStarted := w.cpu.oamDmaStarted }

/-- The four shifts in accumulator mode. -/
def Instr.onAccumulator (i : Instr) : Bool := decide (i.row.operand = .accumulator)

/-- R31. -/
def Instr.writesA (i : Instr) : Bool :=
  decide (i.op ∈ [.lda, .pla, .txa, .tya, .adc, .sbc, .and, .ora, .eor]) || i.onAccumulator

/-- The addresses an instruction stores to, in order (30_encoding R142, 10_state R34). A memory operand's address is
the one its meaning computes. -/
def Instr.storeAddresses (i : Instr) (s : State) : List Word :=
  match i.op with
  | .sta | .stx | .sty | .inc | .dec => [(i.located s).ea]
  | .asl | .lsr | .rol | .ror => if i.onAccumulator then [] else [(i.located s).ea]
  | .pha | .php => [stackAddr s.cpu.sp]
  | .jsr => [stackAddr s.cpu.sp, stackAddr (s.cpu.sp - 1)]
  | .brk => [stackAddr s.cpu.sp, stackAddr (s.cpu.sp - 1), stackAddr (s.cpu.sp - 2)]
  | _ => []

namespace Machine

/-! ### Memory -/

/-- The CPU addresses that are memory: internal RAM and PRG ROM (20_memory R70). -/
def isMemory (a : Word) : Prop := a.toNat < 0x2000 ∨ 0x8000 ≤ a.toNat

/-- Two addresses of the same byte of internal RAM (20_memory R71). -/
def sameRamByte (a b : Word) : Prop := a.toNat < 0x2000 ∧ b.toNat < 0x2000 ∧ a.toNat % 0x800 = b.toNat % 0x800

/-- An address of a device register (20_memory R70). -/
def isDevice (a : Word) : Prop := 0x2000 ≤ a.toNat ∧ a.toNat ≤ 0x4017

/-- The byte of internal RAM at a stack address. -/
def State.stackByte (sp : Byte) (s : State) : Byte := s.ram.read (0x100 + sp.toNat)

/-- Internal RAM with one byte at a stack address replaced. -/
def State.withStackByte (sp v : Byte) (s : State) : State := { s with ram := s.ram.write (0x100 + sp.toNat) v }

/-- The word of PRG ROM at an even address of the vector table (60_exceptions R401). -/
def State.vector (addr : Word) (s : State) : Word :=
  wordOf (s.cart.prgByte (addr.toNat - 0x8000)) (s.cart.prgByte (addr.toNat + 1 - 0x8000))

/-- The machine with another decimal flag. -/
def State.withD (b : Bool) (s : State) : State :=
  { s with cpu := { s.cpu with p := { s.cpu.p with d := b } } }

/-- The machine after `n` reads of an address. -/
def afterReads (a : Word) : Nat → State → State
  | 0, s => s
  | n + 1, s => afterReads a n (busRead a s).2

/-! ### The PPU's position -/

/-- Dots per frame (65_ppu R480). -/
def dotsPerFrame : Nat := 89342

/-- The dot index of the current position, counted from (0, 0) (65_ppu R490). -/
def Ppu.position (p : Ppu) : Nat := 341 * p.scanline + p.dot

/-- A position of the frame (65_ppu R462). -/
def Ppu.inFrame (p : Ppu) : Prop := p.scanline ≤ 261 ∧ p.dot ≤ 340

/-- Two addresses of the same cell of the PPU's address space (65_ppu R463-R465): one byte of CHR memory, one byte of
`vram`, or one palette cell. -/
abbrev samePpuCell (m : Mirroring) (a b : BitVec 14) : Prop :=
  a.toNat < 0x2000 ∧ a = b ∨
    (0x2000 ≤ a.toNat ∧ a.toNat < 0x3F00) ∧ (0x2000 ≤ b.toNat ∧ b.toNat < 0x3F00) ∧
      ntIndex m a.toNat = ntIndex m b.toNat ∨
    0x3F00 ≤ a.toNat ∧ 0x3F00 ≤ b.toNat ∧ palIndex a.toNat = palIndex b.toNat

/-- `n` dots. -/
def dots : Nat → State → State
  | 0, s => s
  | n + 1, s => dots n (stepDot s)

/-- `n` APU cycles. -/
def apuCycles : Nat → State → State
  | 0, s => s
  | n + 1, s => apuCycles n (stepCycle s)

/-! ### The invariant -/

/-- A channel that is disabled is silent (66_apu R544). -/
def Apu.silentWhenDisabled (u : Apu) : Prop :=
  (u.pulse1.enabled = false → u.pulse1.length = 0) ∧ (u.pulse2.enabled = false → u.pulse2.length = 0) ∧
    (u.triangle.enabled = false → u.triangle.length = 0) ∧ (u.noise.enabled = false → u.noise.length = 0)

/-- The memories are canonical and within their sizes (20_memory R71, R77, R79). -/
structure State.MemoriesSized (s : State) : Prop where
  ram : s.ram.sized 0x800 = true
  prg : s.cart.prg.sized s.cart.prgSize.bytes = true
  chr : s.cart.chr.sized 0x2000 = true

/-- Every memory is canonical and sized, every device field is in its declared range (65_ppu R462, 66_apu R520),
disabled channels are silent (R544), and the DMC reads PRG ROM (R531, R560). -/
structure State.InRange (s : State) : Prop where
  memories : s.MemoriesSized
  ppu : s.ppu.inRange = true
  apu : s.apu.inRange = true
  silent : s.apu.silentWhenDisabled
  dmcAddr : 0x8000 ≤ s.apu.dmc.curAddr.toNat
  dmcSample : 0xC000 ≤ s.apu.dmc.sampleAddr.toNat

/-- What holds between the steps of every run: the ranges, no DMA owed, and none just started (10_state R48, 67
R586). -/
structure State.Inv (s : State) : Prop where
  inRange : s.InRange
  stall : s.cpu.stall = 0
  dma : s.cpu.oamDmaStarted = false

end Machine
end Sys2Proof
end

