-- ==== Sys2Proof/Certificates/Slice0/Obligations.lean ====
section
/-! DEFINITION. The statements for the provers, each from numbered rules of the spec. `i.row`, `i.located`, `i.operand`,
`i.cost`, `i.leaves` and `i.writes` are the vocabulary of Safety.lean: the row of R126, the effective address and the
operand, the cost of R176, and the state an instruction leaves. A free value (`Config.openBus`, `Config.paletteRgb`, the
sample rate, the tag) may be anything in every statement. -/

open Sys2Proof Sys2Proof.Machine

/-! ### Encoding -/

/-- R120-R122, R126: decoding the bytes of any well-formed instruction, whatever follows them, gives it back. -/
def Obligations.DecodeEncode : Prop :=
  ∀ i : Instr, i.WellFormed → ∀ rest, decode (encode i ++ rest) = some (i, rest)

/-- R123: each byte sequence has one meaning: what decodes is well formed and is encoded by exactly the bytes read. -/
def Obligations.DecodeIsCanonical : Prop :=
  ∀ (bytes : List Byte) (i : Instr) (rest : List Byte),
    decode bytes = some (i, rest) → i.WellFormed ∧ bytes = encode i ++ rest

/-- R143, R126: words written out from the spec's encodings decode to the instructions they stand for. -/
def Obligations.DecodeSpecWords : Prop :=
  decode [0xA9, 0x80] = some (.ldaImm 0x80, []) ∧ decode [0x8D, 0x00, 0x02] = some (.staAbs 0x0200, []) ∧
    decode [0xB6, 0x10] = some (.ldxZpy 0x10, []) ∧ decode [0x6C, 0x00, 0x03] = some (.jmpInd 0x0300, []) ∧
    decode [0xA1, 0x20] = some (.ldaIzx 0x20, []) ∧ decode [0xB1, 0x20] = some (.ldaIzy 0x20, []) ∧
    decode [0xD0, 0xFE] = some (.bne (-2), []) ∧ decode [0x0A] = some (.aslAcc, []) ∧ decode [0xE8] = some (.inx, []) ∧
    decode [0x00] = some (.brk, []) ∧ decode [0x02] = none

/-- R120, R126: an instruction is its row's opcode byte and as many operand bytes as the row's length says, and the
opcode alone decides the length. -/
def Obligations.EncodedRows : Prop :=
  ∀ i : Instr, (encode i).length = i.length ∧ (encode i).head? = some i.row.opcode ∧
    opcodeLength i.row.opcode = some i.length

/-- R124: exactly the 105 undocumented bytes raise `DecodeError`. -/
def Obligations.IllegalOpcodesFault : Prop :=
  ∀ s : State, s.cpu.halted = false → poll s = .none →
    ((busRead s.cpu.pc s).1 ∈ illegalOpcodes ↔
      cpuStep s = .fault (.decodeError s.cpu.pc (busRead s.cpu.pc s).1))

/-! ### The step -/

/-- R170, R171, R172, R585: a step of a machine that is not halted, with no NMI pending and no IRQ to take, runs the
instruction fetched at PC, ends the CPU step, and distributes its cycles. Bytes in memory that decode to `i` are fetched
as `i`, without a side effect. -/
def Obligations.StepRunsDecoded : Prop :=
  (∀ (s s' : State) (i : Instr), s.cpu.halted = false → s.cpu.nmiPending = false →
    (s.cpu.p.i = true ∨ s.apu.frameIrq = false ∧ s.apu.dmcIrq = false) → fetch s = .instr i s' →
    step s =
      match exec i s' with
      | .next t => .next (distribute s (endStep t))
      | .fault r => .fault r
      | .refused r => .refused r) ∧
  ∀ (s : State) (i : Instr) (rest : List Byte),
    isMemory s.cpu.pc → isMemory (s.cpu.pc + 1) → isMemory (s.cpu.pc + 2) →
    decode [(busRead s.cpu.pc s).1, (busRead (s.cpu.pc + 1) s).1, (busRead (s.cpu.pc + 2) s).1] = some (i, rest) →
    fetch s = .instr i s

/-- R402, R403: interrupt entry. PC and P (B = 0) are pushed, I is set, PC comes from the vector, and 7 cycles are
counted. NMI goes through 0xFFFA whatever I holds and its edge is cleared; IRQ goes through 0xFFFE, with I clear and no NMI
pending, and its request stays. -/
def Obligations.InterruptEntry : Prop :=
  ∀ s : State, s.cpu.halted = false → s.cpu.oamDmaStarted = false →
    let entered (vector : Word) : State :=
      { s with
        ram := ((s.ram.write (0x100 + s.cpu.sp.toNat) (hiByte s.cpu.pc)).write (0x100 + (s.cpu.sp - 1).toNat)
          (loByte s.cpu.pc)).write (0x100 + (s.cpu.sp - 2).toNat) (packP false s.cpu.p)
        cpu := { s.cpu with
          sp := s.cpu.sp - 3, p := { s.cpu.p with i := true }, pc := s.vector vector, nmiPending := false,
          cycles := s.cpu.cycles + 7 } }
    (s.cpu.nmiPending = true → cpuStep s = .next (entered 0xFFFA)) ∧
    (s.cpu.nmiPending = false → (s.apu.frameIrq = true ∨ s.apu.dmcIrq = true) → s.cpu.p.i = false →
      cpuStep s = .next (entered 0xFFFE))

/-- R410, R585: an undocumented byte at PC stops the machine: the step is a fault that reports it, the state left behind is
halted and otherwise as the opcode read left it, and every later step faults again with the same report. That this state is
`haltedState`, and that its steps repeat the fault, is the model's reading of the two rules (assumption log, entry 8). -/
def Obligations.DecodeErrorHalts : Prop :=
  ∀ s : State, s.cpu.halted = false → poll s = .none → (busRead s.cpu.pc s).1 ∈ illegalOpcodes →
    let r := busRead s.cpu.pc s
    step s = .fault (.decodeError s.cpu.pc r.1) ∧
    haltedState s = { r.2 with cpu := { s.cpu with halted := true, faultPc := s.cpu.pc, faultOpcode := r.1 } } ∧
    step (haltedState s) = .fault (.decodeError s.cpu.pc r.1)

/-- R332, R333, R378, R379, R402, R403: RTI after an entry by NMI, IRQ or BRK resumes at the pushed address with the
flags and the stack pointer as they were, and RTS after JSR resumes after the JSR, for every SP. -/
def Obligations.EntryThenReturn : Prop :=
  ∀ s : State, s.ram.sized 0x800 = true →
    (∀ (vector ret : Word) (b : Bool), (vector = 0xFFFA ∨ vector = 0xFFFE) →
      ∃ t, exec .rti (enterException vector b ret s) = .next t ∧
        t.cpu.pc = ret ∧ t.cpu.p = s.cpu.p ∧ t.cpu.sp = s.cpu.sp) ∧
    ∀ a : Word, ∃ t u, exec (.jsr a) s = .next t ∧ t.cpu.pc = a ∧ exec .rts t = .next u ∧
      u.cpu.pc = s.cpu.pc + 3 ∧ u.cpu.sp = s.cpu.sp ∧ u.cpu.p = s.cpu.p

/-! ### Loads, stores, transfers, stack -/

/-- R201-R203: LDA, LDX and LDY, every form: the register takes the operand, N and Z follow it, nothing else. -/
def Obligations.LoadResult : Prop :=
  ∀ (i : Instr) (s : State),
    let m := (i.operand s).1
    let p := { s.cpu.p with n := m.getLsbD 7, z := decide (m = 0) }
    (i.op = .lda → exec i s = .next (i.leaves s (i.operand s).2 { s.cpu with a := m, p := p })) ∧
    (i.op = .ldx → exec i s = .next (i.leaves s (i.operand s).2 { s.cpu with x := m, p := p })) ∧
    (i.op = .ldy → exec i s = .next (i.leaves s (i.operand s).2 { s.cpu with y := m, p := p }))

/-- R204-R206: STA, STX and STY, every form: one write of the register at the effective address, no flag. -/
def Obligations.StoreResult : Prop :=
  ∀ (i : Instr) (s : State),
    (i.op = .sta → exec i s = .next (i.writes s (i.located s).st s.cpu.a s.cpu)) ∧
    (i.op = .stx → exec i s = .next (i.writes s (i.located s).st s.cpu.x s.cpu)) ∧
    (i.op = .sty → exec i s = .next (i.writes s (i.located s).st s.cpu.y s.cpu))

/-- R231-R236: the transfers copy a register and set N and Z from it; TXS writes no flag. -/
def Obligations.TransferResult : Prop :=
  ∀ s : State,
    let nz (r : Byte) : Flags := { s.cpu.p with n := r.getLsbD 7, z := decide (r = 0) }
    exec .tax s = .next (Instr.tax.leaves s s { s.cpu with x := s.cpu.a, p := nz s.cpu.a }) ∧
    exec .tay s = .next (Instr.tay.leaves s s { s.cpu with y := s.cpu.a, p := nz s.cpu.a }) ∧
    exec .txa s = .next (Instr.txa.leaves s s { s.cpu with a := s.cpu.x, p := nz s.cpu.x }) ∧
    exec .tya s = .next (Instr.tya.leaves s s { s.cpu with a := s.cpu.y, p := nz s.cpu.y }) ∧
    exec .tsx s = .next (Instr.tsx.leaves s s { s.cpu with x := s.cpu.sp, p := nz s.cpu.sp }) ∧
    exec .txs s = .next (Instr.txs.leaves s s { s.cpu with sp := s.cpu.x })

/-- R237-R240, R44, R45: PHA and PHP store one byte at 0x0100 + SP and decrement SP; PLA and PLP increment SP and read one;
the bits of a pushed P from 7 down are N, V, 1, B, D, I, Z, C. -/
def Obligations.PushPullResult : Prop :=
  (∀ s : State,
    let pushed (v : Byte) : State := { s with ram := s.ram.write (0x100 + s.cpu.sp.toNat) v }
    let pulled : Byte := s.ram.read (0x100 + (s.cpu.sp + 1).toNat)
    exec .pha s = .next (Instr.pha.leaves s (pushed s.cpu.a) { s.cpu with sp := s.cpu.sp - 1 }) ∧
    exec .php s = .next (Instr.php.leaves s (pushed (packP true s.cpu.p)) { s.cpu with sp := s.cpu.sp - 1 }) ∧
    exec .pla s = .next (Instr.pla.leaves s s
      { s.cpu with
        sp := s.cpu.sp + 1, a := pulled, p := { s.cpu.p with n := pulled.getLsbD 7, z := decide (pulled = 0) } }) ∧
    exec .plp s = .next (Instr.plp.leaves s s
      { s.cpu with
        sp := s.cpu.sp + 1
        p := { n := pulled.getLsbD 7, v := pulled.getLsbD 6, d := pulled.getLsbD 3, i := pulled.getLsbD 2,
               z := pulled.getLsbD 1, c := pulled.getLsbD 0 } })) ∧
  ∀ (b : Bool) (p : Flags),
    [7, 6, 5, 4, 3, 2, 1, 0].map (packP b p).getLsbD = [p.n, p.v, true, b, p.d, p.i, p.z, p.c]

/-! ### Arithmetic, logic, compare -/

/-- R261, R262: ADC, every form: the 9-bit sum of A, the operand and C; C is its carry, V the signed overflow. SBC is ADC of
the complement of the operand. -/
def Obligations.AddSubtractResult : Prop :=
  ∀ (i : Instr) (s : State),
    let added (m : Byte) : Cpu :=
      let sum := s.cpu.a.toNat + m.toNat + s.cpu.p.c.toNat
      let r : Byte := BitVec.ofNat 8 sum
      { s.cpu with
        a := r
        p := { s.cpu.p with
          c := decide (sum > 255), v := (~~~(s.cpu.a ^^^ m) &&& (s.cpu.a ^^^ r)).getLsbD 7, n := r.getLsbD 7,
          z := decide (r = 0) } }
    (i.op = .adc → exec i s = .next (i.leaves s (i.operand s).2 (added (i.operand s).1))) ∧
    (i.op = .sbc → exec i s = .next (i.leaves s (i.operand s).2 (added (~~~(i.operand s).1))))

/-- R42, R260, R262: V of ADC and SBC says that the signed result does not fit in a byte, and C of SBC that no borrow was
needed. -/
def Obligations.SignedOverflowAndBorrow : Prop :=
  ∀ (i : Instr) (s : State),
    let a := s.cpu.a
    let m := (i.operand s).1
    let c : Int := s.cpu.p.c.toNat
    (i.op = .adc → ∃ t, exec i s = .next t ∧
      (t.cpu.p.v = true ↔ a.toInt + m.toInt + c < -128 ∨ 127 < a.toInt + m.toInt + c) ∧
      (t.cpu.p.v = false → t.cpu.a.toInt = a.toInt + m.toInt + c)) ∧
    (i.op = .sbc → ∃ t, exec i s = .next t ∧
      (t.cpu.p.v = true ↔ a.toInt - m.toInt - (1 - c) < -128 ∨ 127 < a.toInt - m.toInt - (1 - c)) ∧
      (t.cpu.p.v = false → t.cpu.a.toInt = a.toInt - m.toInt - (1 - c)) ∧
      (t.cpu.p.c = true ↔ (m.toNat : Int) + (1 - c) ≤ a.toNat))

/-- R263-R265: AND, ORA and EOR, every form. -/
def Obligations.LogicResult : Prop :=
  ∀ (i : Instr) (s : State),
    let m := (i.operand s).1
    let result (r : Byte) : Cpu :=
      { s.cpu with a := r, p := { s.cpu.p with n := r.getLsbD 7, z := decide (r = 0) } }
    (i.op = .and → exec i s = .next (i.leaves s (i.operand s).2 (result (s.cpu.a &&& m)))) ∧
    (i.op = .ora → exec i s = .next (i.leaves s (i.operand s).2 (result (s.cpu.a ||| m)))) ∧
    (i.op = .eor → exec i s = .next (i.leaves s (i.operand s).2 (result (s.cpu.a ^^^ m))))

/-- R266: BIT, both forms: N and V from the operand, Z from the AND. -/
def Obligations.BitResult : Prop :=
  ∀ (i : Instr) (s : State), i.op = .bit →
    let m := (i.operand s).1
    exec i s = .next (i.leaves s (i.operand s).2
      { s.cpu with
        p := { s.cpu.p with z := decide (s.cpu.a &&& m = 0), n := m.getLsbD 7, v := m.getLsbD 6 } })

/-- R267-R270: CMP, CPX and CPY, every form: the flags of the difference, and no register. -/
def Obligations.CompareResult : Prop :=
  ∀ (i : Instr) (s : State),
    let m := (i.operand s).1
    let compared (r : Byte) : Cpu :=
      { s.cpu with
        p := { s.cpu.p with
          c := decide (r.toNat ≥ m.toNat), z := decide (r = m),
          n := (BitVec.ofInt 8 ((r.toNat : Int) - m.toNat)).getLsbD 7 } }
    (i.op = .cmp → exec i s = .next (i.leaves s (i.operand s).2 (compared s.cpu.a))) ∧
    (i.op = .cpx → exec i s = .next (i.leaves s (i.operand s).2 (compared s.cpu.x))) ∧
    (i.op = .cpy → exec i s = .next (i.leaves s (i.operand s).2 (compared s.cpu.y)))

/-! ### Increments, decrements, shifts, rotates -/

/-- R301-R306: INC and DEC, every form, read once and write once; INX, INY, DEX and DEY; all wrap, and write N and Z
alone. -/
def Obligations.IncDecResult : Prop :=
  ∀ (i : Instr) (s : State),
    let m := (i.operand s).1
    let nz (r : Byte) : Flags := { s.cpu.p with n := r.getLsbD 7, z := decide (r = 0) }
    (i.op = .inc → exec i s = .next (i.writes s (i.operand s).2 (m + 1) { s.cpu with p := nz (m + 1) })) ∧
    (i.op = .dec → exec i s = .next (i.writes s (i.operand s).2 (m - 1) { s.cpu with p := nz (m - 1) })) ∧
    exec .inx s = .next (Instr.inx.leaves s s { s.cpu with x := s.cpu.x + 1, p := nz (s.cpu.x + 1) }) ∧
    exec .iny s = .next (Instr.iny.leaves s s { s.cpu with y := s.cpu.y + 1, p := nz (s.cpu.y + 1) }) ∧
    exec .dex s = .next (Instr.dex.leaves s s { s.cpu with x := s.cpu.x - 1, p := nz (s.cpu.x - 1) }) ∧
    exec .dey s = .next (Instr.dey.leaves s s { s.cpu with y := s.cpu.y - 1, p := nz (s.cpu.y - 1) })

/-- R307-R310: ASL, LSR, ROL and ROR, on A and on memory, every form: the shifted byte goes back to where it came from,
the bit shifted out to C, and N and Z follow the result. -/
def Obligations.ShiftResult : Prop :=
  ∀ (i : Instr) (s : State),
    let m := (i.operand s).1
    let carry : Byte := (BitVec.ofBool s.cpu.p.c).setWidth 8
    let shifted (r : Byte) (c : Bool) : Result :=
      let p := { s.cpu.p with c := c, n := r.getLsbD 7, z := decide (r = 0) }
      if i.onAccumulator then .next (i.leaves s s { s.cpu with a := r, p := p })
      else .next (i.writes s (i.operand s).2 r { s.cpu with p := p })
    (i.op = .asl → exec i s = shifted (m <<< 1) (m.getLsbD 7)) ∧
    (i.op = .lsr → exec i s = shifted (m >>> 1) (m.getLsbD 0)) ∧
    (i.op = .rol → exec i s = shifted (m <<< 1 ||| carry) (m.getLsbD 7)) ∧
    (i.op = .ror → exec i s = shifted (carry <<< 7 ||| m >>> 1) (m.getLsbD 0))

/-! ### Control flow -/

/-- R331-R333: JMP loads PC from its operand, or from a pointer whose high byte lies in the page of its low byte. JSR pushes
the address of its last byte, high byte first, and jumps; RTS pulls an address and goes one past it. -/
def Obligations.JumpAndCallResult : Prop :=
  ∀ (a : Word) (s : State),
    exec (.jmpAbs a) s = .next { s with cpu := { s.cpu with pc := a, cycles := s.cpu.cycles + 3 } } ∧
    (let next := advancePc 3 s;
      let lo := busRead a next;
      let hi := busRead (page a ++ (a.extractLsb 7 0 + 1)) lo.2;
      exec (.jmpInd a) s =
        .next { hi.2 with cpu := { s.cpu with pc := hi.1 ++ lo.1, cycles := s.cpu.cycles + 5 } }) ∧
    (let r := s.cpu.pc + 2;
      exec (.jsr a) s = .next
        { s with
          ram := (s.ram.write (0x100 + s.cpu.sp.toNat) (r.extractLsb 15 8)).write (0x100 + (s.cpu.sp - 1).toNat)
            (r.extractLsb 7 0)
          cpu := { s.cpu with sp := s.cpu.sp - 2, pc := a, cycles := s.cpu.cycles + 6 } }) ∧
    (let lo := s.ram.read (0x100 + (s.cpu.sp + 1).toNat);
      let hi := s.ram.read (0x100 + (s.cpu.sp + 2).toNat);
      exec .rts s = .next
        { s with
          cpu := { s.cpu with sp := s.cpu.sp + 2, pc := (hi ++ lo : Word) + 1, cycles := s.cpu.cycles + 6 } })

/-- R330, R334-R341: the eight branches: the target is counted from the next instruction, and a branch costs 2, 3 or 4
cycles. -/
def Obligations.BranchResult : Prop :=
  ∀ (i : Instr) (d : Int) (s : State), i.row.operand = .relative d →
    let next := s.cpu.pc + 2
    let target := next + BitVec.ofInt 16 d
    exec i s = .next
      { s with
        cpu := { s.cpu with
          pc := if i.op.taken s.cpu.p then target else next
          cycles := s.cpu.cycles +
            (if i.op.taken s.cpu.p then (if page next ≠ page target then 4 else 3) else 2) } }

/-! ### Flags and the system -/

/-- R371-R377, R380: each flag instruction writes one flag to a constant and nothing else; NOP writes none. -/
def Obligations.FlagResult : Prop :=
  ∀ s : State,
    let p := s.cpu.p
    exec .clc s = .next (Instr.clc.leaves s s { s.cpu with p := { p with c := false } }) ∧
    exec .sec s = .next (Instr.sec.leaves s s { s.cpu with p := { p with c := true } }) ∧
    exec .cli s = .next (Instr.cli.leaves s s { s.cpu with p := { p with i := false } }) ∧
    exec .sei s = .next (Instr.sei.leaves s s { s.cpu with p := { p with i := true } }) ∧
    exec .cld s = .next (Instr.cld.leaves s s { s.cpu with p := { p with d := false } }) ∧
    exec .sed s = .next (Instr.sed.leaves s s { s.cpu with p := { p with d := true } }) ∧
    exec .clv s = .next (Instr.clv.leaves s s { s.cpu with p := { p with v := false } }) ∧
    exec .nop s = .next (Instr.nop.leaves s s s.cpu)

/-- R378, R379: BRK pushes its own address + 2 and P with B = 1, then sets I and goes through 0xFFFE; RTI pulls P and then
PC, low byte first, without adding 1. -/
def Obligations.BreakAndReturnResult : Prop :=
  ∀ s : State,
    (let r := s.cpu.pc + 2
     exec .brk s = .next
      { s with
        ram := ((s.ram.write (0x100 + s.cpu.sp.toNat) (r.extractLsb 15 8)).write (0x100 + (s.cpu.sp - 1).toNat)
          (r.extractLsb 7 0)).write (0x100 + (s.cpu.sp - 2).toNat) (packP true s.cpu.p)
        cpu := { s.cpu with
          sp := s.cpu.sp - 3, p := { s.cpu.p with i := true }, pc := s.vector 0xFFFE,
          cycles := s.cpu.cycles + 7 } }) ∧
    (let v := s.ram.read (0x100 + (s.cpu.sp + 1).toNat)
     let lo := s.ram.read (0x100 + (s.cpu.sp + 2).toNat)
     let hi := s.ram.read (0x100 + (s.cpu.sp + 3).toNat)
     exec .rti s = .next
      { s with
        cpu := { s.cpu with
          sp := s.cpu.sp + 3
          p := { n := v.getLsbD 7, v := v.getLsbD 6, d := v.getLsbD 3, i := v.getLsbD 2, z := v.getLsbD 1,
                 c := v.getLsbD 0 }
          pc := hi ++ lo
          cycles := s.cpu.cycles + 6 } })

/-- R9, R420, R176: every instruction, with every operand and in every state, completes, and costs what R176 says: 2 to 7
cycles. -/
def Obligations.EveryInstructionCompletes : Prop :=
  ∀ (i : Instr) (s : State),
    (∃ t, exec i s = .next t ∧ t.cpu.cycles = s.cpu.cycles + i.cost s) ∧ 2 ≤ i.cost s ∧ i.cost s ≤ 7

/-! ### Frames -/

/-- R31-R34, R37-R43: a register or a flag changes only by the instructions the spec lists for it, and V becomes 1 only
by ADC, SBC, BIT, PLP and RTI. -/
def Obligations.RegisterAndFlagFrame : Prop :=
  ∀ (i : Instr) (s t : State), exec i s = .next t →
    (i.writesA = false → t.cpu.a = s.cpu.a) ∧ (i.op.writesX = false → t.cpu.x = s.cpu.x) ∧
    (i.op.writesY = false → t.cpu.y = s.cpu.y) ∧ (i.op.writesSp = false → t.cpu.sp = s.cpu.sp) ∧
    (i.op.writesC = false → t.cpu.p.c = s.cpu.p.c) ∧ (i.op.writesNZ = false → t.cpu.p.z = s.cpu.p.z) ∧
    (i.op.writesNZ = false → t.cpu.p.n = s.cpu.p.n) ∧ (i.op.writesI = false → t.cpu.p.i = s.cpu.p.i) ∧
    (i.op.writesD = false → t.cpu.p.d = s.cpu.p.d) ∧ (i.op.writesV = false → t.cpu.p.v = s.cpu.p.v) ∧
    (i.op.setsV = false → t.cpu.p.v = true → s.cpu.p.v = true)

/-- R142, R34, R71, R78: every byte of memory that an instruction does not store to reads as before. The stored addresses
are `i.storeAddresses s`: the effective address its meaning computes, or its stack slots. -/
def Obligations.MemoryFrame : Prop :=
  ∀ (i : Instr) (s t : State), s.ram.sized 0x800 = true → exec i s = .next t →
    ∀ a : Word, isMemory a → (∀ b ∈ i.storeAddresses s, ¬sameRamByte a b) → (busRead a t).1 = (busRead a s).1

/-- R48, R75, R78-R80: no instruction changes the stall, the halt, the fault report, PRG ROM, CHR ROM or the mirroring;
one that stores to no device register changes neither latch of the CPU, and of the devices only what reads of PPUSTATUS,
PPUDATA, 0x4015 and the controller ports change. -/
def Obligations.HiddenStateFrame : Prop :=
  ∀ (i : Instr) (s t : State), exec i s = .next t →
    t.cpu.stall = s.cpu.stall ∧ t.cpu.halted = s.cpu.halted ∧ t.cpu.faultPc = s.cpu.faultPc ∧
    t.cpu.faultOpcode = s.cpu.faultOpcode ∧ t.cart.prg = s.cart.prg ∧ t.cart.prgSize = s.cart.prgSize ∧
    t.cart.mirroring = s.cart.mirroring ∧ t.cart.chrIsRam = s.cart.chrIsRam ∧
    (s.cart.chrIsRam = false → t.cart.chr = s.cart.chr) ∧
    ((∀ b ∈ i.storeAddresses s, ¬isDevice b) →
      t.cart = s.cart ∧
      t.ppu = { s.ppu with
        vblank := t.ppu.vblank, w := t.ppu.w, v := t.ppu.v, readBuffer := t.ppu.readBuffer } ∧
      t.apu = { s.apu with frameIrq := t.apu.frameIrq } ∧
      t.pads = { s.pads with shift1 := t.pads.shift1, shift2 := t.pads.shift2 } ∧
      t.cpu.nmiPending = s.cpu.nmiPending ∧ t.cpu.oamDmaStarted = s.cpu.oamDmaStarted)

/-- R40: no instruction's result depends on D, but for those that push P and those that write D. -/
def Obligations.DecimalIsUnused : Prop :=
  ∀ (i : Instr) (s t : State) (b : Bool), i.op ∉ [.php, .brk, .plp, .rti, .cld, .sed] →
    exec i s = .next t → exec i (s.withD b) = .next (t.withD b)

/-! ### Addresses and the bus -/

/-- R134-R137, R139, R140: the effective address of each mode, with zero-page wrapping, the page-crossing indicator, and
no side effect. -/
def Obligations.EffectiveAddress : Prop :=
  ∀ s : State,
    let ram (z : Byte) : Byte := s.ram.read z.toNat
    (∀ z : Byte, locate (.zp z) s = ⟨z.setWidth 16, false, s⟩) ∧
    (∀ z : Byte, locate (.zpx z) s = ⟨(z + s.cpu.x).setWidth 16, false, s⟩) ∧
    (∀ z : Byte, locate (.zpy z) s = ⟨(z + s.cpu.y).setWidth 16, false, s⟩) ∧
    (∀ a : Word, locate (.abs a) s = ⟨a, false, s⟩) ∧
    (∀ a : Word, let ea := a + s.cpu.x.setWidth 16
      locate (.absx a) s = ⟨ea, decide (page a ≠ page ea), s⟩) ∧
    (∀ a : Word, let ea := a + s.cpu.y.setWidth 16
      locate (.absy a) s = ⟨ea, decide (page a ≠ page ea), s⟩) ∧
    (∀ b : Byte, let z := b + s.cpu.x
      locate (.izx b) s = ⟨ram (z + 1) ++ ram z, false, s⟩) ∧
    (∀ b : Byte, let base : Word := ram (b + 1) ++ ram b
      let ea := base + s.cpu.y.setWidth 16
      locate (.izy b) s = ⟨ea, decide (page base ≠ page ea), s⟩)

/-- R71, R83: a byte written to internal RAM is what every mirror of it reads, and every other byte of RAM reads as
before. -/
def Obligations.RamMirrors : Prop :=
  ∀ (s : State) (a b : Word) (v : Byte), s.ram.sized 0x800 = true → a.toNat < 0x2000 → b.toNat < 0x2000 →
    (busRead b (busWrite a v s)).1 = if a.toNat % 0x800 = b.toNat % 0x800 then v else (busRead b s).1

/-- R76, R77, R78: PRG ROM is read at its offset modulo its size, without a side effect, and a write to PRG ROM or to an
unmapped address is ignored. -/
def Obligations.RomReadsAndIgnoredWrites : Prop :=
  (∀ (s : State) (a : Word), 0x8000 ≤ a.toNat →
    busRead a s =
      (match s.cart.prgSize with
        | .k32 => s.cart.prg.read (a.toNat - 0x8000)
        | .k16 => s.cart.prg.read ((a.toNat - 0x8000) % 0x4000), s)) ∧
  ∀ (s : State) (a : Word) (v : Byte), 0x8000 ≤ a.toNat ∨ (0x4018 ≤ a.toNat ∧ a.toNat < 0x8000) → busWrite a v s = s

/-- R76 (assumption log, entry 2): a read that nothing drives gives a fresh free value and has no side effect on the
hardware; only the model's own count of such reads moves. -/
def Obligations.UndrivenReads : Prop :=
  ∀ (s : State) (a : Word),
    (0x2000 ≤ a.toNat ∧ a.toNat < 0x4000 ∧ a.toNat % 8 ∈ [0, 1, 3, 5, 6] ∨
      0x4000 ≤ a.toNat ∧ a.toNat ≤ 0x4014 ∨ 0x4018 ≤ a.toNat ∧ a.toNat < 0x8000) →
    busRead a s = (Config.openBus a s.openBusReads, { s with openBusReads := s.openBusReads + 1 })

/-! ### The PPU -/

/-- R451, R456, R457, by bits: PPUCTRL stores its byte, copies bits 1:0 into `t[11:10]` and raises NMI when it enables it
during VBlank; PPUSCROLL and PPUADDR share one toggle and merge their bits into `t`, `x` and, on the second PPUADDR write,
`v`. Each changes nothing else. -/
def Obligations.PpuRegisterWrites : Prop :=
  ∀ (s : State) (a : Word) (d : Byte), 0x2000 ≤ a.toNat → a.toNat < 0x4000 →
    let p := s.ppu
    let t' := (busWrite a d s).ppu.t
    (a.toNat % 8 = 0 →
      busWrite a d s =
        { s with
          ppu := { p with ctrl := d, t := t' }
          cpu := { s.cpu with
            nmiPending := s.cpu.nmiPending || (!p.ctrl.getLsbD 7 && d.getLsbD 7 && p.vblank) } } ∧
      ∀ k, k < 15 → t'.getLsbD k = if k = 10 then d.getLsbD 0 else if k = 11 then d.getLsbD 1 else p.t.getLsbD k) ∧
    (a.toNat % 8 = 5 → p.w = false →
      busWrite a d s = { s with ppu := { p with t := t', x := d.extractLsb 2 0, w := true } } ∧
      ∀ k, k < 15 → t'.getLsbD k = if k < 5 then d.getLsbD (k + 3) else p.t.getLsbD k) ∧
    (a.toNat % 8 = 5 → p.w = true →
      busWrite a d s = { s with ppu := { p with t := t', w := false } } ∧
      ∀ k, k < 15 → t'.getLsbD k =
        if 12 ≤ k then d.getLsbD (k - 12) else if 5 ≤ k ∧ k < 10 then d.getLsbD (k - 2) else p.t.getLsbD k) ∧
    (a.toNat % 8 = 6 → p.w = false →
      busWrite a d s = { s with ppu := { p with t := t', w := true } } ∧
      ∀ k, k < 15 → t'.getLsbD k =
        if k = 14 then false else if 8 ≤ k then d.getLsbD (k - 8) else p.t.getLsbD k) ∧
    (a.toNat % 8 = 6 → p.w = true →
      busWrite a d s = { s with ppu := { p with t := t', v := t', w := false } } ∧
      ∀ k, k < 15 → t'.getLsbD k = if k < 8 then d.getLsbD k else p.t.getLsbD k)

/-- R452, R454, R455, R450: PPUMASK and OAMADDR store their byte, a PPUSTATUS write is ignored, OAMDATA stores in OAM and
increments its index modulo 256, and reads without an increment; at every mirror, and nothing else changes. -/
def Obligations.PpuPlainRegisters : Prop :=
  ∀ (s : State) (a : Word) (d : Byte), 0x2000 ≤ a.toNat → a.toNat < 0x4000 →
    let p := s.ppu
    (a.toNat % 8 = 1 → busWrite a d s = { s with ppu := { p with mask := d } }) ∧
    (a.toNat % 8 = 2 → busWrite a d s = s) ∧
    (a.toNat % 8 = 3 → busWrite a d s = { s with ppu := { p with oamaddr := d } }) ∧
    (a.toNat % 8 = 4 →
      busRead a s = (p.oam.read p.oamaddr.toNat, s) ∧
      busWrite a d s =
        { s with ppu := { p with oam := p.oam.write p.oamaddr.toNat d, oamaddr := p.oamaddr + 1 } })

/-- R453: the byte of a PPUSTATUS read, and its side effects: VBlank and the write toggle are cleared. The form of the
undriven bits, and the count of such reads, are the model's choice (assumption log, entry 2). -/
def Obligations.PpuStatusRead : Prop :=
  ∀ (s : State) (a : Word), 0x2000 ≤ a.toNat → a.toNat < 0x4000 → a.toNat % 8 = 2 →
    let r := busRead a s
    r.1.getLsbD 7 = s.ppu.vblank ∧ r.1.getLsbD 6 = s.ppu.sprite0 ∧ r.1.getLsbD 5 = s.ppu.overflow ∧
    (∀ k, k < 5 → r.1.getLsbD k = (Config.openBus 0x2002 s.openBusReads).getLsbD k) ∧
    r.2 = { s with ppu := { s.ppu with vblank := false, w := false }, openBusReads := s.openBusReads + 1 }

/-- R458, R459, R463: a PPUDATA read gives the read buffer and refills it, or gives the palette at once; a write stores at
`v[13:0]`; both move `v` on by 1 or 32. What was stored is what the PPU reads at every address of the written cell, but for
CHR ROM and the two high bits of a palette cell; every other cell of the PPU's address space, and the rest of the machine,
is as before. The form of a palette read's undriven bits, and the count of such reads, are the model's choice (assumption
log, entry 2). -/
def Obligations.PpuDataAccess : Prop :=
  ∀ (s : State) (a : Word) (d : Byte), s.InRange → 0x2000 ≤ a.toNat → a.toNat < 0x4000 → a.toNat % 8 = 7 →
    let p := s.ppu
    let addr : BitVec 14 := p.v.extractLsb 13 0
    let v' := p.v + (if p.ctrl.getLsbD 2 then 32 else 1)
    let r := busRead a s
    let w := busWrite a d s
    (addr.toNat < 0x3F00 →
      r = (p.readBuffer, { s with ppu := { p with readBuffer := ppuRead s.cart p addr, v := v' } })) ∧
    (0x3F00 ≤ addr.toNat →
      (∀ k, k < 6 → r.1.getLsbD k = (ppuRead s.cart p addr).getLsbD k) ∧
      (∀ k, 6 ≤ k → k < 8 → r.1.getLsbD k = (Config.openBus 0x2007 s.openBusReads).getLsbD k) ∧
      r.2 =
        { s with
          ppu := { p with readBuffer := ppuRead s.cart p (addr - 0x1000), v := v' }
          openBusReads := s.openBusReads + 1 }) ∧
    (∀ b : BitVec 14, ppuRead w.cart w.ppu b =
      if samePpuCell s.cart.mirroring addr b ∧ (0x2000 ≤ addr.toNat ∨ s.cart.chrIsRam = true) then
        (if addr.toNat < 0x3F00 then d else d &&& 0x3F)
      else ppuRead s.cart p b) ∧
    w =
      { s with
        ppu := { p with v := v', vram := w.ppu.vram, palette := w.ppu.palette }
        cart := { s.cart with chr := w.cart.chr } } ∧
    (0x2000 ≤ addr.toNat ∨ s.cart.chrIsRam = false → w.cart.chr = s.cart.chr) ∧
    (addr.toNat < 0x2000 ∨ 0x3F00 ≤ addr.toNat → w.ppu.vram = p.vram) ∧
    (addr.toNat < 0x3F00 → w.ppu.palette = p.palette) ∧
    ∀ k : Nat, k ≠ palIndex addr.toNat → w.ppu.palette[k]? = p.palette[k]?

/-- R464, R465: the nametables the mirroring makes equal share their bytes and the others do not; the palette has the cells
of `a & 0x1F` but for the four aliases, 28 of them distinct, it repeats every 32 bytes over the whole of 0x3F00-0x3FFF, and
a write of it stores six bits in one cell. -/
def Obligations.PpuMirrors : Prop :=
  (∀ (m : Mirroring) (off : Nat), off < 0x400 →
    (m = .vertical →
      ntIndex m (0x2000 + off) = off ∧ ntIndex m (0x2800 + off) = off ∧
      ntIndex m (0x2400 + off) = 0x400 + off ∧ ntIndex m (0x2C00 + off) = 0x400 + off) ∧
    (m = .horizontal →
      ntIndex m (0x2000 + off) = off ∧ ntIndex m (0x2400 + off) = off ∧
      ntIndex m (0x2800 + off) = 0x400 + off ∧ ntIndex m (0x2C00 + off) = 0x400 + off) ∧
    ∀ a : Nat, 0x2000 ≤ a → a < 0x2F00 → ntIndex m (a + 0x1000) = ntIndex m a) ∧
  (∀ k : Nat, k < 0x20 → palIndex (0x3F00 + k) = if k ∈ [0x10, 0x14, 0x18, 0x1C] then k - 0x10 else k) ∧
  (∀ k l : Nat, k < 0x20 → l < 0x20 → k ∉ [0x10, 0x14, 0x18, 0x1C] → l ∉ [0x10, 0x14, 0x18, 0x1C] →
    palIndex (0x3F00 + k) = palIndex (0x3F00 + l) → k = l) ∧
  (∀ (p : Ppu) (k : Nat), k < 4 → p.color (0x3F10 + 4 * k) = p.color (0x3F00 + 4 * k)) ∧
  (∀ (p : Ppu) (a : Nat), 0x3F00 ≤ a → a + 0x20 ≤ 0x3FFF → p.color (a + 0x20) = p.color a) ∧
  ∀ (s : State) (a : BitVec 14) (b : Nat) (d : Byte), 0x3F00 ≤ a.toNat →
    (ppuWrite a d s).ppu.color b = if palIndex b = palIndex a.toNat then d.extractLsb 5 0 else s.ppu.color b

/-- R470, R170: a write of a memory page to 0x4014 copies its 256 bytes to OAM from `oamaddr` on, wrapping; the step that
made it ends by adding 513 + (cycles mod 2) to the stall. -/
def Obligations.OamDmaCopy : Prop :=
  ∀ (s : State) (d : Byte), s.ppu.oam.sized 0x100 = true → (d.toNat < 0x20 ∨ 0x80 ≤ d.toNat) →
    let t := busWrite 0x4014 d s
    (∀ k : Byte, t.ppu.oam.read (s.ppu.oamaddr + k).toNat = (busRead (d ++ k) s).1) ∧
    t.ppu.oamaddr = s.ppu.oamaddr ∧ t.ram = s.ram ∧ t.cart = s.cart ∧
    t.cpu = { s.cpu with oamDmaStarted := true } ∧
    (endStep t).cpu =
      { s.cpu with stall := s.cpu.stall + 513 + s.cpu.cycles % 2, oamDmaStarted := false }

/-- R485, R480: VBlank is set at scanline 241 dot 1 and cleared at scanline 261 dot 1, for every rendering configuration;
NMI is raised there and only if it is enabled; a dot changes no other register of the CPU. -/
def Obligations.VblankAndNmi : Prop :=
  ∀ s : State,
    let at241 := s.ppu.scanline = 241 ∧ s.ppu.dot = 1
    let at261 := s.ppu.scanline = 261 ∧ s.ppu.dot = 1
    ((stepDot s).ppu.vblank = true ↔ at241 ∨ s.ppu.vblank = true ∧ ¬at261) ∧
    ((stepDot s).cpu.nmiPending = true ↔ s.cpu.nmiPending = true ∨ at241 ∧ s.ppu.ctrl.getLsbD 7 = true) ∧
    (stepDot s).cpu = { s.cpu with nmiPending := (stepDot s).cpu.nmiPending }

/-- R480, R488: `n` dots move the position on by `n` in a frame of 89,342 dots, and the frame is complete exactly when
the wrap has happened. -/
def Obligations.DotsMoveThePosition : Prop :=
  ∀ (n : Nat) (s : State), s.ppu.inFrame →
    (dots n s).ppu.inFrame ∧ (dots n s).ppu.position = (s.ppu.position + n) % dotsPerFrame ∧
    ((dots n s).ppu.frameComplete = true ↔
      s.ppu.frameComplete = true ∨ dotsPerFrame ≤ s.ppu.position + n)

/-- R483: sprite evaluation at dot 65 of a visible line with rendering on: secondary OAM holds the first eight sprites of
OAM that lie on the line, in order, and 0xFF past them, and a ninth sets the overflow flag. -/
def Obligations.SpriteEvaluation : Prop :=
  ∀ s : State, s.ppu.scanline ≤ 239 → s.ppu.dot = 65 →
    (s.ppu.mask.getLsbD 3 = true ∨ s.ppu.mask.getLsbD 4 = true) →
    let height := if s.ppu.ctrl.getLsbD 5 then 16 else 8
    let oam (i j : Nat) : Byte := s.ppu.oam.read (4 * i + j)
    let found := (List.range 64).filter fun i =>
      decide ((oam i 0).toNat ≤ s.ppu.scanline ∧ s.ppu.scanline < (oam i 0).toNat + height)
    let p := (stepDot s).ppu
    p.soamCount = min 8 found.length ∧
    (p.overflow = true ↔ s.ppu.overflow = true ∨ 8 < found.length) ∧
    (p.sprite0Next = true ↔ 0 ∈ found) ∧
    (∀ (k i j : Nat), k < 8 → found[k]? = some i → j < 4 → p.soam[4 * k + j]? = some (oam i j)) ∧
    ∀ m, 4 * min 8 found.length ≤ m → m < 32 → p.soam[m]? = some 0xFF

/-- R481: the scroll steps of a dot of a render line with rendering on, by columns and rows of pixels: `v` moves one
column at the end of each tile, one row at dot 256 (from row 239 to the nametable below, from row 255 back to 0), takes the
column from `t` at dot 257, and the row at dots 280-304 of the pre-render line. The spec marks R481 as general knowledge, not
in its source. -/
def Obligations.ScrollSteps : Prop :=
  ∀ s : State, (s.ppu.scanline ≤ 239 ∨ s.ppu.scanline = 261) →
    (s.ppu.mask.getLsbD 3 = true ∨ s.ppu.mask.getLsbD 4 = true) →
    let d := s.ppu.dot
    let col (w : BitVec 15) : Nat := (w.extractLsb 4 0).toNat
    let row (w : BitVec 15) : Nat := 8 * (w.extractLsb 9 5).toNat + (w.extractLsb 14 12).toNat
    let v := s.ppu.v
    let t := s.ppu.t
    let v' := (stepDot s).ppu.v
    (col v', v'.getLsbD 10) =
      (if 8 ≤ d ∧ d ≤ 256 ∧ d % 8 = 0 ∨ d = 328 ∨ d = 336 then
        ((col v + 1) % 32, v.getLsbD 10 != decide (col v = 31))
      else if d = 257 then (col t, t.getLsbD 10) else (col v, v.getLsbD 10)) ∧
    (row v', v'.getLsbD 11) =
      (if d = 256 then
        (if row v = 239 ∨ row v = 255 then 0 else row v + 1, v.getLsbD 11 != decide (row v = 239))
      else if s.ppu.scanline = 261 ∧ 280 ≤ d ∧ d ≤ 304 then (row t, t.getLsbD 11) else (row v, v.getLsbD 11))

/-- R486, R487: the pixel of a visible dot with rendering on: the background pixel is bit `15 - x` of the shift registers
as this dot leaves them, the sprite pixel is that of the first valid unit that is not transparent there, the left columns
are masked, and priority and greyscale choose the colour; and exactly when the dot sets the sprite-zero flag. The spec marks
part of R486 and R487 as general knowledge, not in its source. -/
def Obligations.PixelComposition : Prop :=
  ∀ s : State, ∀ _ : s.ppu.scanline < 240, 1 ≤ s.ppu.dot → s.ppu.dot ≤ 256 →
    (s.ppu.mask.getLsbD 3 = true ∨ s.ppu.mask.getLsbD 4 = true) →
    let p := s.ppu
    let q := (stepDot s).ppu
    let px := p.dot - 1
    let k := 15 - p.x.toNat
    let bits (hi lo : Bool) : Nat := 2 * hi.toNat + lo.toNat
    let bgShown := p.mask.getLsbD 3 = true ∧ (8 ≤ px ∨ p.mask.getLsbD 1 = true)
    let spShown := p.mask.getLsbD 4 = true ∧ (8 ≤ px ∨ p.mask.getLsbD 2 = true)
    let bg := if bgShown then bits (q.bgHi.getLsbD k) (q.bgLo.getLsbD k) else 0
    let bgPal := if bgShown then bits (q.atHi.getLsbD k) (q.atLo.getLsbD k) else 0
    let pixelOf (u : SpriteUnit) : Nat :=
      if u.valid = true ∧ u.xpos.toNat ≤ px ∧ px ≤ u.xpos.toNat + 7 then
        bits (u.hi.getLsbD (7 - (px - u.xpos.toNat))) (u.lo.getLsbD (7 - (px - u.xpos.toNat)))
      else 0
    let bgColor := if bg = 0 then p.color 0x3F00 else p.color (0x3F00 + 4 * bgPal + bg)
    let color :=
      match if spShown then p.units.toList.find? (fun u => decide (pixelOf u ≠ 0)) else none with
      | none => bgColor
      | some u =>
        if bg = 0 ∨ u.attr.getLsbD 5 = false then
          p.color (0x3F10 + 4 * bits (u.attr.getLsbD 1) (u.attr.getLsbD 0) + pixelOf u)
        else bgColor
    (q.framebuffer[p.scanline])[px]? =
      some (Config.paletteRgb (if p.mask.getLsbD 0 then color &&& 0x30 else color)) ∧
    (q.sprite0 = true ↔ p.sprite0 = true ∨
      bg ≠ 0 ∧ spShown ∧ p.sprite0Line = true ∧ pixelOf p.units[0] ≠ 0 ∧ px ≠ 255)

/-- R487, R489: a dot sets the sprite-zero flag only inside a visible line, left of column 255, with both layers shown
and sprite 0 on the line; with rendering off a dot changes neither `v` nor the sprite flags, and a visible pixel is the
backdrop. -/
def Obligations.SpriteZeroAndRenderingOff : Prop :=
  ∀ s : State,
    let p := s.ppu
    let q := (stepDot s).ppu
    (q.sprite0 = true → p.sprite0 = true ∨
      p.scanline ≤ 239 ∧ 1 ≤ p.dot ∧ p.dot ≤ 255 ∧ p.mask.getLsbD 3 = true ∧ p.mask.getLsbD 4 = true ∧
        p.sprite0Line = true) ∧
    (p.mask.getLsbD 3 = false → p.mask.getLsbD 4 = false →
      q.v = p.v ∧ (q.sprite0 = true → p.sprite0 = true) ∧ (q.overflow = true → p.overflow = true) ∧
      q.soam = p.soam ∧ q.soamCount = p.soamCount ∧
      ∀ (h : p.scanline < 240), 1 ≤ p.dot → p.dot ≤ 256 →
        (q.framebuffer[p.scanline])[p.dot - 1]? =
          some (Config.paletteRgb
            (if p.mask.getLsbD 0 then p.color 0x3F00 &&& 0x30 else p.color 0x3F00)))

/-! ### The APU -/

/-- R521-R531, R533: what a write of each APU register but 0x4015 stores, that it restarts what the rules say, and that it
changes nothing else; 0x4009 and 0x400D ignore it, and so does 0x400F of a disabled noise channel. -/
def Obligations.ApuRegisterWrites : Prop :=
  ∀ (s : State) (d : Byte),
    let u := s.apu
    let written (a : Word) (v : Apu) : Prop := busWrite a d s = { s with apu := v }
    let low (old : BitVec 11) : BitVec 11 := old.extractLsb 10 8 ++ d
    let high (old : BitVec 11) : BitVec 11 := d.extractLsb 2 0 ++ old.extractLsb 7 0
    let length (enabled : Bool) (old : Nat) : Nat := if enabled then lengthTable[d.toNat / 8]?.getD 0 else old
    let volume (p : Pulse) : Pulse :=
      { p with duty := d.extractLsb 7 6, halt := d.getLsbD 5, const := d.getLsbD 4, vol := d.extractLsb 3 0 }
    let sweep (p : Pulse) : Pulse :=
      { p with
        sweepEn := d.getLsbD 7, sweepPer := d.extractLsb 6 4, sweepNeg := d.getLsbD 3, sweepShift := d.extractLsb 2 0
        sweepReload := true }
    let load (p : Pulse) : Pulse :=
      { p with
        timerPer := high p.timerPer, length := length p.enabled p.length, seq := 0
        env := { p.env with start := true } }
    written 0x4000 { u with pulse1 := volume u.pulse1 } ∧ written 0x4004 { u with pulse2 := volume u.pulse2 } ∧
    written 0x4001 { u with pulse1 := sweep u.pulse1 } ∧ written 0x4005 { u with pulse2 := sweep u.pulse2 } ∧
    written 0x4002 { u with pulse1 := { u.pulse1 with timerPer := low u.pulse1.timerPer } } ∧
    written 0x4006 { u with pulse2 := { u.pulse2 with timerPer := low u.pulse2.timerPer } } ∧
    written 0x4003 { u with pulse1 := load u.pulse1 } ∧ written 0x4007 { u with pulse2 := load u.pulse2 } ∧
    written 0x4008
      { u with triangle := { u.triangle with ctrlHalt := d.getLsbD 7, linReloadVal := d.extractLsb 6 0 } } ∧
    written 0x4009 u ∧ written 0x400D u ∧
    written 0x400A { u with triangle := { u.triangle with timerPer := low u.triangle.timerPer } } ∧
    written 0x400B
      { u with
        triangle := { u.triangle with
          timerPer := high u.triangle.timerPer, length := length u.triangle.enabled u.triangle.length
          linReload := true } } ∧
    written 0x400C
      { u with noise := { u.noise with halt := d.getLsbD 5, const := d.getLsbD 4, vol := d.extractLsb 3 0 } } ∧
    written 0x400E { u with noise := { u.noise with mode := d.getLsbD 7, perIdx := d.extractLsb 3 0 } } ∧
    written 0x400F
      { u with
        noise := { u.noise with
          length := length u.noise.enabled u.noise.length
          env := if u.noise.enabled then { u.noise.env with start := true } else u.noise.env } } ∧
    written 0x4010
      { u with
        dmc := { u.dmc with irqEn := d.getLsbD 7, loop := d.getLsbD 6, rateIdx := d.extractLsb 3 0 }
        dmcIrq := if d.getLsbD 7 then u.dmcIrq else false } ∧
    written 0x4011 { u with dmc := { u.dmc with level := d.extractLsb 6 0 } } ∧
    written 0x4012 { u with dmc := { u.dmc with sampleAddr := 0xC000 + 64 * d.setWidth 16 } } ∧
    written 0x4013 { u with dmc := { u.dmc with sampleLen := 16 * d.setWidth 12 + 1 } } ∧
    (let set : Apu :=
      { u with
        fsMode := d.getLsbD 7, fsInhibit := d.getLsbD 6, fsCycle := 0
        frameIrq := if d.getLsbD 6 then false else u.frameIrq }
     written 0x4017 (if d.getLsbD 7 then set.quarterFrame.halfFrame else set))

/-- R532: the byte of a 0x4015 read and its side effect; the effect of a 0x4015 write on the channels, the DMC and the
DMC interrupt flag, and on nothing else. The form of the read's undriven bit, and the count of such reads, are
the model's choice (assumption log, entry 2). -/
def Obligations.ApuStatus : Prop :=
  ∀ (s : State) (d : Byte),
    let r := busRead 0x4015 s
    let u := s.apu
    [7, 6, 5, 4, 3, 2, 1, 0].map r.1.getLsbD =
      [u.dmcIrq, u.frameIrq, (Config.openBus 0x4015 s.openBusReads).getLsbD 5, decide (u.dmc.remaining ≠ 0),
        decide (u.noise.length ≠ 0), decide (u.triangle.length ≠ 0), decide (u.pulse2.length ≠ 0),
        decide (u.pulse1.length ≠ 0)] ∧
    r.2 = { s with apu := { u with frameIrq := false }, openBusReads := s.openBusReads + 1 } ∧
    busWrite 0x4015 d s =
      { s with
        apu := { u with
          pulse1 := { u.pulse1 with
            enabled := d.getLsbD 0, length := if d.getLsbD 0 then u.pulse1.length else 0 }
          pulse2 := { u.pulse2 with
            enabled := d.getLsbD 1, length := if d.getLsbD 1 then u.pulse2.length else 0 }
          triangle := { u.triangle with
            enabled := d.getLsbD 2, length := if d.getLsbD 2 then u.triangle.length else 0 }
          noise := { u.noise with
            enabled := d.getLsbD 3, length := if d.getLsbD 3 then u.noise.length else 0 }
          dmc :=
            if d.getLsbD 4 = false then { u.dmc with remaining := 0 }
            else if u.dmc.remaining = 0 then
              { u.dmc with curAddr := u.dmc.sampleAddr, remaining := u.dmc.sampleLen }
            else u.dmc
          dmcIrq := false } }

/-- R541-R544: the two clocks, spelt out for every channel (envelopes, linear counter and its reload; length counters,
sweeps with their target over the integers); the frame sequencer's events, the wrap of its count at 29,830 or 37,282, and the
frame interrupt: once per 4-step sequence unless inhibited, never in 5-step mode. -/
def Obligations.FrameSequencer : Prop :=
  ∀ u : Apu,
    let envelope (vol : BitVec 4) (halt : Bool) (e : Envelope) : Envelope :=
      if e.start = true then { start := false, decay := 15, div := vol }
      else if e.div ≠ 0 then { e with div := e.div - 1 }
      else { e with div := vol, decay := if e.decay ≠ 0 then e.decay - 1 else if halt = true then 15 else 0 }
    let counted (halt : Bool) (length : Nat) : Nat := if halt = true ∨ length = 0 then length else length - 1
    let sweepStep (first : Bool) (p q : Pulse) : Prop :=
      let change : Int := (p.timerPer.toNat : Int) / 2 ^ p.sweepShift.toNat
      let target : Int :=
        if p.sweepNeg = true then p.timerPer.toNat - change - first.toNat else p.timerPer.toNat + change
      let moves :=
        p.sweepDiv = 0 ∧ p.sweepEn = true ∧ p.sweepShift ≠ 0 ∧ 8 ≤ p.timerPer.toNat ∧ target ≤ 0x7FF
      let reloads := p.sweepDiv = 0 ∨ p.sweepReload = true
      (q.timerPer.toNat : Int) = (if moves then target else p.timerPer.toNat) ∧
      q =
        { p with
          length := counted p.halt p.length, timerPer := q.timerPer, sweepReload := false
          sweepDiv := if reloads then p.sweepPer else p.sweepDiv - 1 }
    let n := u.fsCycle + 1
    let half := n = 14913 ∨ (u.fsMode = false ∧ n = 29829) ∨ (u.fsMode = true ∧ n = 37281)
    let quarter := half ∨ n = 7457 ∨ n = 22371
    let t := u.sequencerTick
    u.quarterFrame =
      { u with
        pulse1 := { u.pulse1 with env := envelope u.pulse1.vol u.pulse1.halt u.pulse1.env }
        pulse2 := { u.pulse2 with env := envelope u.pulse2.vol u.pulse2.halt u.pulse2.env }
        noise := { u.noise with env := envelope u.noise.vol u.noise.halt u.noise.env }
        triangle := { u.triangle with
          lin :=
            if u.triangle.linReload = true then u.triangle.linReloadVal
            else if u.triangle.lin = 0 then 0 else u.triangle.lin - 1
          linReload := if u.triangle.ctrlHalt = false then false else u.triangle.linReload } } ∧
    sweepStep true u.pulse1 u.halfFrame.pulse1 ∧ sweepStep false u.pulse2 u.halfFrame.pulse2 ∧
    u.halfFrame =
      { u with
        pulse1 := u.halfFrame.pulse1
        pulse2 := u.halfFrame.pulse2
        triangle := { u.triangle with length := counted u.triangle.ctrlHalt u.triangle.length }
        noise := { u.noise with length := counted u.noise.halt u.noise.length } } ∧
    (quarter → half → t = { u.quarterFrame.halfFrame with frameIrq := t.frameIrq, fsCycle := t.fsCycle }) ∧
    (quarter → ¬half → t = { u.quarterFrame with frameIrq := t.frameIrq, fsCycle := t.fsCycle }) ∧
    (¬quarter → t = { u with frameIrq := t.frameIrq, fsCycle := t.fsCycle }) ∧
    (t.frameIrq = true ↔ u.frameIrq = true ∨ (u.fsMode = false ∧ u.fsInhibit = false ∧ n = 29829)) ∧
    t.fsCycle = if n = (if u.fsMode then 37282 else 29830) then 0 else n

/-- R565: every sample is a number from 0 up to, not including, 1. -/
def Obligations.MixIsNormalized : Prop := ∀ u : Apu, 0 ≤ u.mix ∧ u.mix < 1

/-- R566: over `n` APU cycles the sample stream grows by exactly as many samples as whole times `CPU_HZ` fits into the
accumulated sample rate, for every sample rate; the rest stays in the accumulator. -/
def Obligations.SampleStream : Prop :=
  ∀ (n : Nat) (s : State), 0 ≤ s.apu.sampleAcc → s.apu.sampleAcc < Config.cpuHz →
    let t := (apuCycles n s).apu
    ∃ k : Nat, t.samples.length = s.apu.samples.length + k ∧
      t.sampleAcc + k * Config.cpuHz = s.apu.sampleAcc + n * Config.sampleRate ∧
      0 ≤ t.sampleAcc ∧ t.sampleAcc < Config.cpuHz

/-- R560: the DMC's reader, with its address in PRG ROM: it takes one byte at the price of four stall cycles, steps its
address from 0xFFFF to 0x8000, and at the end of a sample restarts it or raises the DMC interrupt; with a full buffer or
nothing left it does nothing. -/
def Obligations.DmcReader : Prop :=
  ∀ s : State, 0x8000 ≤ s.apu.dmc.curAddr.toNat →
    let c := s.apu.dmc
    let last := c.remaining = 1
    (c.bufferFull = true ∨ c.remaining = 0 → dmcReaderTick s = s) ∧
    (c.bufferFull = false → c.remaining ≠ 0 →
      dmcReaderTick s =
        { s with
          cpu := { s.cpu with stall := s.cpu.stall + 4 }
          apu := { s.apu with
            dmcIrq := s.apu.dmcIrq || (decide last && !c.loop && c.irqEn)
            dmc := { c with
              buffer := (busRead c.curAddr s).1
              bufferFull := true
              curAddr :=
                if last ∧ c.loop = true then c.sampleAddr
                else if c.curAddr = 0xFFFF then 0x8000 else c.curAddr + 1
              remaining := if last ∧ c.loop = true then c.sampleLen else c.remaining - 1 } } })

/-! ### Controllers, reset, the scheduler, the host -/

/-- R580, R581: after the strobe goes to 1 and back to 0, the reads of a port give the eight buttons in order and then
ones; while it is 1 they give button A again and again. -/
def Obligations.ControllerShift : Prop :=
  ∀ (s : State) (d1 d0 : Byte) (n : Nat), d1.getLsbD 0 = true → d0.getLsbD 0 = false →
    let on := busWrite 0x4016 d1 s
    let t := busWrite 0x4016 d0 on
    (busRead 0x4016 (afterReads 0x4016 n on)).1.getLsbD 0 = s.pads.buttons1.getLsbD 0 ∧
    (busRead 0x4017 (afterReads 0x4017 n on)).1.getLsbD 0 = s.pads.buttons2.getLsbD 0 ∧
    (busRead 0x4016 (afterReads 0x4016 n t)).1.getLsbD 0 = (if n < 8 then s.pads.buttons1.getLsbD n else true) ∧
    (busRead 0x4017 (afterReads 0x4017 n t)).1.getLsbD 0 = (if n < 8 then s.pads.buttons2.getLsbD n else true)

/-- R610, R461, R520: a host reset: SP - 3, I clear, PC from 0xFFFC, the latches and the halt cleared, 7 cycles counted,
the RESET values of the PPU and the APU, and everything else kept. -/
def Obligations.HostReset : Prop :=
  ∀ s : State,
    hostReset s =
      { s with
        cpu := { s.cpu with
          sp := s.cpu.sp - 3, p := { s.cpu.p with i := false }, pc := s.vector 0xFFFC, nmiPending := false,
          stall := 0, oamDmaStarted := false, halted := false, cycles := s.cpu.cycles + 7 }
        ppu := { s.ppu with ctrl := 0, mask := 0, w := false, readBuffer := 0, frameComplete := false }
        apu := { s.apu with
          pulse1 := { s.apu.pulse1 with length := 0, enabled := false }
          pulse2 := { s.apu.pulse2 with length := 0, enabled := false }
          triangle := { s.apu.triangle with length := 0, enabled := false }
          noise := { s.apu.noise with length := 0, enabled := false }
          dmc := { s.apu.dmc with remaining := 0 }
          frameIrq := false, dmcIrq := false, fsCycle := 0 } }

/-- R590, R611, with the values of R30, R81, R461, R520 and R580: power-on with an accepted ROM: the cartridge's bytes come
from the file, past the header and any trainer, and its mirroring from byte 6; every field of the CPU, the PPU, the APU and
the controllers at the first instruction, whatever is drawn; and the invariant, when the drawn memories have their sizes. Of
empty secondary OAM and of the empty sprite units only the count and the valid bits are said. -/
def Obligations.PowerOnState : Prop :=
  ∀ (rom : List Byte) (draw : Draw) (s t : State), powerOn rom draw s = .ok t →
    let byte (k : Nat) : Byte := (rom[k]?).getD 0
    let prgAt := 16 + (if (byte 6).getLsbD 2 = true then 512 else 0)
    let prgBytes := 16384 * (byte 4).toNat
    let silent : Pulse :=
      { duty := 0, halt := false, const := false, vol := 0, sweepEn := false, sweepPer := 0, sweepNeg := false,
        sweepShift := 0, sweepReload := false, sweepDiv := 0, timerPer := 0, timer := 0, seq := 0,
        env := { start := false, div := 0, decay := 0 }, length := 0, enabled := false }
    (byte 4 = 1 ∧ t.cart.prgSize = .k16 ∨ byte 4 = 2 ∧ t.cart.prgSize = .k32) ∧
    (∀ k, k < prgBytes → t.cart.prg.read k = byte (prgAt + k)) ∧
    (byte 5 = 1 ∧ t.cart.chrIsRam = false ∧ (∀ k, k < 0x2000 → t.cart.chr.read k = byte (prgAt + prgBytes + k)) ∨
      byte 5 = 0 ∧ t.cart.chrIsRam = true ∧ t.cart.chr = draw.chrRam) ∧
    t.cart.mirroring = (if (byte 6).getLsbD 0 = true then .vertical else .horizontal) ∧
    t.cpu =
      { a := draw.a, x := draw.x, y := draw.y, sp := draw.sp - 3, pc := t.vector 0xFFFC
        p := { c := draw.c, z := draw.z, i := false, d := draw.d, v := draw.v, n := draw.n }
        cycles := 7, nmiPending := false, stall := 0, halted := false, oamDmaStarted := false, faultPc := 0
        faultOpcode := 0 } ∧
    t.ram = draw.ram ∧
    t.ppu =
      { ctrl := 0, mask := 0, vblank := false, sprite0 := false, overflow := false, oamaddr := 0, v := 0, t := 0, x := 0
        w := false, readBuffer := 0, vram := draw.vram, palette := draw.palette, oam := draw.oam, soam := t.ppu.soam
        soamCount := 0, sprite0Next := false, units := t.ppu.units, sprite0Line := false, ntLatch := 0, atLatch := 0
        ptLoLatch := 0, ptHiLatch := 0, bgLo := 0, bgHi := 0, atLo := 0, atHi := 0, scanline := 0, dot := 0
        framebuffer := draw.framebuffer, frameOut := draw.frameOut, frameComplete := false } ∧
    (∀ u ∈ t.ppu.units.toList, u.valid = false) ∧
    t.apu =
      { pulse1 := silent
        pulse2 := silent
        triangle :=
          { ctrlHalt := false, linReloadVal := 0, lin := 0, linReload := false, timerPer := 0, timer := 0, seq := 0
            length := 0, enabled := false }
        noise :=
          { halt := false, const := false, vol := 0, env := { start := false, div := 0, decay := 0 }, mode := false
            perIdx := 0, timer := 0, lfsr := 1, length := 0, enabled := false }
        dmc :=
          { irqEn := false, loop := false, rateIdx := 0, level := 0, sampleAddr := 0xC000, sampleLen := 1
            curAddr := 0x8000, remaining := 0, buffer := 0, bufferFull := false, shift := 0, bitsLeft := 8
            silence := true, timer := 0 }
        frameIrq := false, dmcIrq := false, fsMode := false, fsInhibit := false, fsCycle := 0, phase := false
        sampleAcc := 0, samples := [] } ∧
    t.pads = { strobe := false, shift1 := 0, shift2 := 0, buttons1 := 0, buttons2 := 0 } ∧
    (draw.ram.sized 0x800 = true → draw.chrRam.sized 0x2000 = true → draw.vram.sized 0x800 = true →
      draw.oam.sized 0x100 = true → t.Inv)

/-- R82: the loader rejects a file in exactly the listed cases, and then nothing is built. -/
def Obligations.RomRejected : Prop :=
  ∀ (rom : List Byte) (draw : Draw) (s : State),
    let byte (k : Nat) : Byte := (rom[k]?).getD 0
    powerOn rom draw s = .error .romFormat ↔
      rom.take 4 ≠ [0x4E, 0x45, 0x53, 0x1A] ∨ (byte 6 >>> 4 ≠ 0 ∨ byte 7 >>> 4 ≠ 0) ∨ rom.length < 16 ∨
      rom.length < 16 + (if (byte 6).getLsbD 2 then 512 else 0) + 16384 * (byte 4).toNat + 8192 * (byte 5).toNat ∨
      (byte 4 ≠ 1 ∧ byte 4 ≠ 2) ∨ 1 < (byte 5).toNat ∨ (byte 6).getLsbD 3 = true

/-- R594, R592: capturing and restoring at once changes nothing, whatever the wire format; restoring onto any other state
with the same cartridge loaded gives the captured state back, its CHR RAM included (but for the model's own count of
undriven reads, assumption log, entry 12); a snapshot with CHR RAM is refused by a CHR-ROM cartridge. -/
def Obligations.RestoreCapture : Prop :=
  ∀ (Blob : Type) (wire : WireFormat Blob) (s u : State), s.InRange →
    restore wire (capture wire s) s = .ok s ∧
    (u.cart = { s.cart with chr := u.cart.chr } → (s.cart.chrIsRam = false → u.cart.chr = s.cart.chr) →
      restore wire (capture wire s) u = .ok { s with openBusReads := u.openBusReads }) ∧
    (s.cart.chrIsRam = true → u.cart.chrIsRam = false → restore wire (capture wire s) u = .error .saveStateFormat)

/-- R585: a frame step always ends: from every position of the frame, in a fault that reports what the halted machine
holds, or in a completed frame whose pixels are those the PPU handed over. `runFrame` makes a bounded number of passes; that
the bound is never reached is the model's inference (assumption log, entry 10). -/
def Obligations.FrameStepEnds : Prop :=
  ∀ s : State, s.ppu.inFrame →
    ∃ r t, runFrame s = some (r, t) ∧
      ((r = .fault t.cpu.faultPc t.cpu.faultOpcode ∧ t.cpu.halted = true) ∨
        (r = .frame t.ppu.frameOut t.apu.samples ∧ t.ppu.frameComplete = true))

/-- R585-R587: every step that goes on counts at least two CPU cycles, moves the PPU by exactly three dots for each CPU
cycle it counts, DMA stalls included, and leaves no stall and no DMA mark behind. -/
def Obligations.ThreeDotsPerCycle : Prop :=
  ∀ s t : State, s.ppu.inFrame → step s = .next t →
    s.cpu.cycles + 2 ≤ t.cpu.cycles ∧ t.ppu.inFrame ∧
    t.ppu.position = (s.ppu.position + 3 * (t.cpu.cycles - s.cpu.cycles)) % dotsPerFrame ∧
    t.cpu.stall = 0 ∧ t.cpu.oamDmaStarted = false

/-- R462, R520, R544, R548, R560, R48: every step keeps the invariant: memories canonical and sized, device fields in
their ranges, disabled channels silent, the noise register never 0, the DMC in PRG ROM, no DMA owed. -/
def Obligations.StepKeepsInv : Prop := ∀ s t : State, s.Inv → step s = .next t → t.Inv

/-- The state after reset meets the invariant. Its memories, register draws and cartridge are the model's choice
(assumption log, entries 3, 4 and 5). -/
def Obligations.ResetMeetsInv : Prop := State.reset.Inv
end

