-- ==== Sys2Proof/Laws/Memory.lean ====
section
/-! SUPPORT. The laws of a memory: what a read gives after a write, and that every operation keeps the canonical form
and the size. -/

namespace Sys2Proof.Machine

/-! ### Listed cells -/

theorem Memory.mem_cons {a : Nat} {v : Byte} {m : Memory} {c : Host.Cell} (h : c ∈ Memory.cons a v m) :
    c = (a, v) ∧ v ≠ blankByte ∨ c ∈ m := by
  unfold Memory.cons at h
  split at h
  · exact .inr h
  · next hv => exact (List.mem_cons.mp h).imp (fun e => ⟨e, hv⟩) id

theorem Memory.mem_write {c : Host.Cell} {a : Nat} {v : Byte} :
    ∀ {m : Memory}, c ∈ Memory.write m a v → c = (a, v) ∧ v ≠ blankByte ∨ c ∈ m
  | [], h => by simpa using Memory.mem_cons h
  | (k, u) :: rest, h => by
    unfold Memory.write at h
    split at h
    · exact Memory.mem_cons h
    · split at h
      · exact (Memory.mem_cons h).imp id (List.mem_cons_of_mem _)
      · rcases List.mem_cons.mp h with e | h
        · exact .inr (e ▸ List.mem_cons_self)
        · exact (Memory.mem_write h).imp id (List.mem_cons_of_mem _)

theorem Memory.mem_ofBytes {c : Host.Cell} :
    ∀ {base : Nat} {bs : List Byte}, c ∈ Memory.ofBytes base bs → base ≤ c.1 ∧ c.1 < base + bs.length
  | _, [], h => by simp [Memory.ofBytes] at h
  | base, v :: rest, h => by
    rcases Memory.mem_cons h with ⟨rfl, -⟩ | h
    · simp
    · have := Memory.mem_ofBytes h
      simp only [List.length_cons]
      omega

/-! ### The canonical form -/

theorem Memory.wf_nil : Memory.wf [] := by simp [Memory.wf]

theorem Memory.wf_cons {a : Nat} {v : Byte} {m : Memory} (h : m.wf) (ha : ∀ c ∈ m, a < c.1) :
    (Memory.cons a v m).wf := by
  unfold Memory.cons
  split
  · exact h
  · next hv =>
    refine ⟨List.pairwise_cons.mpr ⟨ha, h.1⟩, fun c hc => ?_⟩
    rcases List.mem_cons.mp hc with rfl | hc
    · exact hv
    · exact h.2 c hc

theorem Memory.wf_tail {c : Host.Cell} {m : Memory} (h : Memory.wf (c :: m)) : m.wf :=
  ⟨(List.pairwise_cons.mp h.1).2, fun d hd => h.2 d (List.mem_cons_of_mem _ hd)⟩

theorem Memory.wf_head {c : Host.Cell} {m : Memory} (h : Memory.wf (c :: m)) : ∀ d ∈ m, c.1 < d.1 :=
  (List.pairwise_cons.mp h.1).1

/-- A write keeps the canonical form. -/
theorem Memory.wf_write (a : Nat) (v : Byte) : ∀ {m : Memory}, m.wf → (Memory.write m a v).wf
  | [], _ => Memory.wf_cons Memory.wf_nil (by simp)
  | (k, u) :: rest, h => by
    unfold Memory.write
    split
    · next hk =>
      refine Memory.wf_cons h fun c hc => ?_
      rcases List.mem_cons.mp hc with rfl | hc
      · exact hk
      · exact Nat.lt_trans hk (Memory.wf_head h c hc)
    · split
      · next hk =>
        subst hk
        exact Memory.wf_cons (Memory.wf_tail h) (Memory.wf_head h)
      · have ih := Memory.wf_write a v (Memory.wf_tail h)
        refine ⟨List.pairwise_cons.mpr ⟨fun c hc => ?_, ih.1⟩, fun c hc => ?_⟩
        · rcases Memory.mem_write hc with ⟨rfl, -⟩ | hc
          · simp only
            omega
          · exact Memory.wf_head h c hc
        · rcases List.mem_cons.mp hc with rfl | hc
          · exact h.2 _ List.mem_cons_self
          · exact ih.2 c hc

/-- Loading bytes gives the canonical form. -/
theorem Memory.wf_ofBytes : ∀ (base : Nat) (bs : List Byte), (Memory.ofBytes base bs).wf
  | _, [] => Memory.wf_nil
  | base, _ :: rest =>
    Memory.wf_cons (Memory.wf_ofBytes (base + 1) rest) fun _ hc => (Memory.mem_ofBytes hc).1

/-! ### Sizes -/

theorem Memory.below_write {n a : Nat} (v : Byte) {m : Memory} (ha : a < n) (h : m.below n) :
    (Memory.write m a v).below n := by
  intro c hc
  rcases Memory.mem_write hc with ⟨rfl, -⟩ | hc
  · exact ha
  · exact h c hc

theorem Memory.below_ofBytes (base : Nat) (bs : List Byte) : (Memory.ofBytes base bs).below (base + bs.length) :=
  fun _ hc => (Memory.mem_ofBytes hc).2

theorem Memory.sized_iff {n : Nat} {m : Memory} : m.sized n = true ↔ m.wf ∧ m.below n := by
  simp [Memory.sized]

@[simp] theorem Memory.sized_nil (n : Nat) : Memory.sized n [] = true := by
  simp [Memory.sized_iff, Memory.wf, Memory.below]

/-- A write within the size keeps a memory canonical and sized. -/
theorem Memory.sized_write {n a : Nat} (v : Byte) {m : Memory} (ha : a < n) (h : m.sized n = true) :
    (Memory.write m a v).sized n = true := by
  rw [Memory.sized_iff] at *
  exact ⟨Memory.wf_write a v h.1, Memory.below_write v ha h.2⟩

theorem Memory.sized_ofBytes {n : Nat} {bs : List Byte} (h : bs.length ≤ n) :
    (Memory.ofBytes 0 bs).sized n = true :=
  Memory.sized_iff.mpr
    ⟨Memory.wf_ofBytes 0 bs, fun c hc => Nat.lt_of_lt_of_le (Memory.below_ofBytes 0 bs c hc) (by omega)⟩

/-! ### Reads -/

@[simp] theorem Memory.read_nil (a : Nat) : Memory.read [] a = blankByte := rfl

theorem Memory.read_of_not_mem {a : Nat} : ∀ {m : Memory}, (∀ c ∈ m, c.1 ≠ a) → Memory.read m a = blankByte
  | [], _ => rfl
  | (k, u) :: rest, h => by
    rw [Memory.read, if_neg (h (k, u) List.mem_cons_self)]
    exact Memory.read_of_not_mem fun c hc => h c (List.mem_cons_of_mem _ hc)

theorem Memory.read_cons (a b : Nat) (v : Byte) (m : Memory) (h : ∀ c ∈ m, a < c.1) :
    Memory.read (Memory.cons a v m) b = if b = a then v else Memory.read m b := by
  unfold Memory.cons
  split
  · next hv =>
    split
    · next hb =>
      subst hb hv
      exact Memory.read_of_not_mem fun c hc => Nat.ne_of_gt (h c hc)
    · rfl
  · simp [Memory.read, eq_comm]

/-- The law of a memory: a read after a write. -/
theorem Memory.read_write (a b : Nat) (v : Byte) :
    ∀ {m : Memory}, m.wf → Memory.read (Memory.write m a v) b = if b = a then v else Memory.read m b
  | [], _ => Memory.read_cons a b v [] (by simp)
  | (k, u) :: rest, h => by
    unfold Memory.write
    split
    · next hk =>
      refine Memory.read_cons a b v _ fun c hc => ?_
      rcases List.mem_cons.mp hc with rfl | hc
      · exact hk
      · exact Nat.lt_trans hk (Memory.wf_head h c hc)
    · split
      · next hk =>
        subst hk
        rw [Memory.read_cons a b v rest (Memory.wf_head h)]
        by_cases hb : b = a
        · simp [hb]
        · simp [hb, Memory.read, Ne.symm hb]
      · next h1 h2 =>
        have ih := Memory.read_write a b v (Memory.wf_tail h)
        by_cases hb : k = b
        · subst hb
          simp [Memory.read, Ne.symm h2]
        · simp [Memory.read, hb, ih]

theorem Memory.read_write_same {m : Memory} (h : m.wf) (a : Nat) (v : Byte) :
    Memory.read (Memory.write m a v) a = v := by
  simp [Memory.read_write a a v h]

theorem Memory.read_write_other {m : Memory} (h : m.wf) {a b : Nat} (hb : b ≠ a) (v : Byte) :
    Memory.read (Memory.write m a v) b = Memory.read m b := by
  simp [Memory.read_write a b v h, hb]

/-- What loaded bytes read as. -/
theorem Memory.read_ofBytes : ∀ (base k : Nat) (bs : List Byte),
    Memory.read (Memory.ofBytes base bs) (base + k) = (bs[k]?).getD blankByte
  | _, _, [] => rfl
  | base, k, v :: rest => by
    rw [Memory.ofBytes, Memory.read_cons _ _ _ _ fun c hc => (Memory.mem_ofBytes hc).1]
    cases k with
    | zero => simp
    | succ k =>
      rw [if_neg (by omega), show base + (k + 1) = base + 1 + k by omega, Memory.read_ofBytes (base + 1) k rest,
        List.getElem?_cons_succ]

end Sys2Proof.Machine
end

