-- ==== Sys2Proof/Laws/State.lean ====
section
/-! SUPPORT. What each update of the state changes and what it leaves, one lemma per field, each true by rfl, so that no
proof unfolds a record update. -/

namespace Sys2Proof.Machine

/-! ### Register updates -/

@[simp] theorem Cpu.setA_a (v : Byte) (c : Cpu) : (c.setA v).a = v := rfl
@[simp] theorem Cpu.setA_x (v : Byte) (c : Cpu) : (c.setA v).x = c.x := rfl
@[simp] theorem Cpu.setA_y (v : Byte) (c : Cpu) : (c.setA v).y = c.y := rfl
@[simp] theorem Cpu.setA_sp (v : Byte) (c : Cpu) : (c.setA v).sp = c.sp := rfl
@[simp] theorem Cpu.setA_pc (v : Byte) (c : Cpu) : (c.setA v).pc = c.pc := rfl
@[simp] theorem Cpu.setA_p (v : Byte) (c : Cpu) : (c.setA v).p = c.p := rfl
@[simp] theorem Cpu.setA_cycles (v : Byte) (c : Cpu) : (c.setA v).cycles = c.cycles := rfl
@[simp] theorem Cpu.setA_nmiPending (v : Byte) (c : Cpu) : (c.setA v).nmiPending = c.nmiPending := rfl
@[simp] theorem Cpu.setA_stall (v : Byte) (c : Cpu) : (c.setA v).stall = c.stall := rfl
@[simp] theorem Cpu.setA_halted (v : Byte) (c : Cpu) : (c.setA v).halted = c.halted := rfl
@[simp] theorem Cpu.setA_oamDmaStarted (v : Byte) (c : Cpu) : (c.setA v).oamDmaStarted = c.oamDmaStarted := rfl
@[simp] theorem Cpu.setA_faultPc (v : Byte) (c : Cpu) : (c.setA v).faultPc = c.faultPc := rfl
@[simp] theorem Cpu.setA_faultOpcode (v : Byte) (c : Cpu) : (c.setA v).faultOpcode = c.faultOpcode := rfl

@[simp] theorem Cpu.setX_a (v : Byte) (c : Cpu) : (c.setX v).a = c.a := rfl
@[simp] theorem Cpu.setX_x (v : Byte) (c : Cpu) : (c.setX v).x = v := rfl
@[simp] theorem Cpu.setX_y (v : Byte) (c : Cpu) : (c.setX v).y = c.y := rfl
@[simp] theorem Cpu.setX_sp (v : Byte) (c : Cpu) : (c.setX v).sp = c.sp := rfl
@[simp] theorem Cpu.setX_pc (v : Byte) (c : Cpu) : (c.setX v).pc = c.pc := rfl
@[simp] theorem Cpu.setX_p (v : Byte) (c : Cpu) : (c.setX v).p = c.p := rfl
@[simp] theorem Cpu.setX_cycles (v : Byte) (c : Cpu) : (c.setX v).cycles = c.cycles := rfl
@[simp] theorem Cpu.setX_nmiPending (v : Byte) (c : Cpu) : (c.setX v).nmiPending = c.nmiPending := rfl
@[simp] theorem Cpu.setX_stall (v : Byte) (c : Cpu) : (c.setX v).stall = c.stall := rfl
@[simp] theorem Cpu.setX_halted (v : Byte) (c : Cpu) : (c.setX v).halted = c.halted := rfl
@[simp] theorem Cpu.setX_oamDmaStarted (v : Byte) (c : Cpu) : (c.setX v).oamDmaStarted = c.oamDmaStarted := rfl
@[simp] theorem Cpu.setX_faultPc (v : Byte) (c : Cpu) : (c.setX v).faultPc = c.faultPc := rfl
@[simp] theorem Cpu.setX_faultOpcode (v : Byte) (c : Cpu) : (c.setX v).faultOpcode = c.faultOpcode := rfl

@[simp] theorem Cpu.setY_a (v : Byte) (c : Cpu) : (c.setY v).a = c.a := rfl
@[simp] theorem Cpu.setY_x (v : Byte) (c : Cpu) : (c.setY v).x = c.x := rfl
@[simp] theorem Cpu.setY_y (v : Byte) (c : Cpu) : (c.setY v).y = v := rfl
@[simp] theorem Cpu.setY_sp (v : Byte) (c : Cpu) : (c.setY v).sp = c.sp := rfl
@[simp] theorem Cpu.setY_pc (v : Byte) (c : Cpu) : (c.setY v).pc = c.pc := rfl
@[simp] theorem Cpu.setY_p (v : Byte) (c : Cpu) : (c.setY v).p = c.p := rfl
@[simp] theorem Cpu.setY_cycles (v : Byte) (c : Cpu) : (c.setY v).cycles = c.cycles := rfl
@[simp] theorem Cpu.setY_nmiPending (v : Byte) (c : Cpu) : (c.setY v).nmiPending = c.nmiPending := rfl
@[simp] theorem Cpu.setY_stall (v : Byte) (c : Cpu) : (c.setY v).stall = c.stall := rfl
@[simp] theorem Cpu.setY_halted (v : Byte) (c : Cpu) : (c.setY v).halted = c.halted := rfl
@[simp] theorem Cpu.setY_oamDmaStarted (v : Byte) (c : Cpu) : (c.setY v).oamDmaStarted = c.oamDmaStarted := rfl
@[simp] theorem Cpu.setY_faultPc (v : Byte) (c : Cpu) : (c.setY v).faultPc = c.faultPc := rfl
@[simp] theorem Cpu.setY_faultOpcode (v : Byte) (c : Cpu) : (c.setY v).faultOpcode = c.faultOpcode := rfl

@[simp] theorem Cpu.setSp_a (v : Byte) (c : Cpu) : (c.setSp v).a = c.a := rfl
@[simp] theorem Cpu.setSp_x (v : Byte) (c : Cpu) : (c.setSp v).x = c.x := rfl
@[simp] theorem Cpu.setSp_y (v : Byte) (c : Cpu) : (c.setSp v).y = c.y := rfl
@[simp] theorem Cpu.setSp_sp (v : Byte) (c : Cpu) : (c.setSp v).sp = v := rfl
@[simp] theorem Cpu.setSp_pc (v : Byte) (c : Cpu) : (c.setSp v).pc = c.pc := rfl
@[simp] theorem Cpu.setSp_p (v : Byte) (c : Cpu) : (c.setSp v).p = c.p := rfl
@[simp] theorem Cpu.setSp_cycles (v : Byte) (c : Cpu) : (c.setSp v).cycles = c.cycles := rfl
@[simp] theorem Cpu.setSp_nmiPending (v : Byte) (c : Cpu) : (c.setSp v).nmiPending = c.nmiPending := rfl
@[simp] theorem Cpu.setSp_stall (v : Byte) (c : Cpu) : (c.setSp v).stall = c.stall := rfl
@[simp] theorem Cpu.setSp_halted (v : Byte) (c : Cpu) : (c.setSp v).halted = c.halted := rfl
@[simp] theorem Cpu.setSp_oamDmaStarted (v : Byte) (c : Cpu) : (c.setSp v).oamDmaStarted = c.oamDmaStarted := rfl
@[simp] theorem Cpu.setSp_faultPc (v : Byte) (c : Cpu) : (c.setSp v).faultPc = c.faultPc := rfl
@[simp] theorem Cpu.setSp_faultOpcode (v : Byte) (c : Cpu) : (c.setSp v).faultOpcode = c.faultOpcode := rfl

@[simp] theorem Cpu.setPc_a (v : Word) (c : Cpu) : (c.setPc v).a = c.a := rfl
@[simp] theorem Cpu.setPc_x (v : Word) (c : Cpu) : (c.setPc v).x = c.x := rfl
@[simp] theorem Cpu.setPc_y (v : Word) (c : Cpu) : (c.setPc v).y = c.y := rfl
@[simp] theorem Cpu.setPc_sp (v : Word) (c : Cpu) : (c.setPc v).sp = c.sp := rfl
@[simp] theorem Cpu.setPc_pc (v : Word) (c : Cpu) : (c.setPc v).pc = v := rfl
@[simp] theorem Cpu.setPc_p (v : Word) (c : Cpu) : (c.setPc v).p = c.p := rfl
@[simp] theorem Cpu.setPc_cycles (v : Word) (c : Cpu) : (c.setPc v).cycles = c.cycles := rfl
@[simp] theorem Cpu.setPc_nmiPending (v : Word) (c : Cpu) : (c.setPc v).nmiPending = c.nmiPending := rfl
@[simp] theorem Cpu.setPc_stall (v : Word) (c : Cpu) : (c.setPc v).stall = c.stall := rfl
@[simp] theorem Cpu.setPc_halted (v : Word) (c : Cpu) : (c.setPc v).halted = c.halted := rfl
@[simp] theorem Cpu.setPc_oamDmaStarted (v : Word) (c : Cpu) : (c.setPc v).oamDmaStarted = c.oamDmaStarted := rfl
@[simp] theorem Cpu.setPc_faultPc (v : Word) (c : Cpu) : (c.setPc v).faultPc = c.faultPc := rfl
@[simp] theorem Cpu.setPc_faultOpcode (v : Word) (c : Cpu) : (c.setPc v).faultOpcode = c.faultOpcode := rfl

@[simp] theorem Cpu.setP_a (v : Flags) (c : Cpu) : (c.setP v).a = c.a := rfl
@[simp] theorem Cpu.setP_x (v : Flags) (c : Cpu) : (c.setP v).x = c.x := rfl
@[simp] theorem Cpu.setP_y (v : Flags) (c : Cpu) : (c.setP v).y = c.y := rfl
@[simp] theorem Cpu.setP_sp (v : Flags) (c : Cpu) : (c.setP v).sp = c.sp := rfl
@[simp] theorem Cpu.setP_pc (v : Flags) (c : Cpu) : (c.setP v).pc = c.pc := rfl
@[simp] theorem Cpu.setP_p (v : Flags) (c : Cpu) : (c.setP v).p = v := rfl
@[simp] theorem Cpu.setP_cycles (v : Flags) (c : Cpu) : (c.setP v).cycles = c.cycles := rfl
@[simp] theorem Cpu.setP_nmiPending (v : Flags) (c : Cpu) : (c.setP v).nmiPending = c.nmiPending := rfl
@[simp] theorem Cpu.setP_stall (v : Flags) (c : Cpu) : (c.setP v).stall = c.stall := rfl
@[simp] theorem Cpu.setP_halted (v : Flags) (c : Cpu) : (c.setP v).halted = c.halted := rfl
@[simp] theorem Cpu.setP_oamDmaStarted (v : Flags) (c : Cpu) : (c.setP v).oamDmaStarted = c.oamDmaStarted := rfl
@[simp] theorem Cpu.setP_faultPc (v : Flags) (c : Cpu) : (c.setP v).faultPc = c.faultPc := rfl
@[simp] theorem Cpu.setP_faultOpcode (v : Flags) (c : Cpu) : (c.setP v).faultOpcode = c.faultOpcode := rfl

/-! ### Updates of one part of the machine -/

@[simp] theorem State.mapCpu_cpu (f : Cpu → Cpu) (s : State) : (s.mapCpu f).cpu = f s.cpu := rfl
@[simp] theorem State.mapCpu_ram (f : Cpu → Cpu) (s : State) : (s.mapCpu f).ram = s.ram := rfl
@[simp] theorem State.mapCpu_cart (f : Cpu → Cpu) (s : State) : (s.mapCpu f).cart = s.cart := rfl
@[simp] theorem State.mapCpu_ppu (f : Cpu → Cpu) (s : State) : (s.mapCpu f).ppu = s.ppu := rfl
@[simp] theorem State.mapCpu_apu (f : Cpu → Cpu) (s : State) : (s.mapCpu f).apu = s.apu := rfl
@[simp] theorem State.mapCpu_pads (f : Cpu → Cpu) (s : State) : (s.mapCpu f).pads = s.pads := rfl
@[simp] theorem State.mapCpu_openBusReads (f : Cpu → Cpu) (s : State) : (s.mapCpu f).openBusReads = s.openBusReads := rfl

@[simp] theorem State.mapPpu_cpu (f : Ppu → Ppu) (s : State) : (s.mapPpu f).cpu = s.cpu := rfl
@[simp] theorem State.mapPpu_ram (f : Ppu → Ppu) (s : State) : (s.mapPpu f).ram = s.ram := rfl
@[simp] theorem State.mapPpu_cart (f : Ppu → Ppu) (s : State) : (s.mapPpu f).cart = s.cart := rfl
@[simp] theorem State.mapPpu_ppu (f : Ppu → Ppu) (s : State) : (s.mapPpu f).ppu = f s.ppu := rfl
@[simp] theorem State.mapPpu_apu (f : Ppu → Ppu) (s : State) : (s.mapPpu f).apu = s.apu := rfl
@[simp] theorem State.mapPpu_pads (f : Ppu → Ppu) (s : State) : (s.mapPpu f).pads = s.pads := rfl
@[simp] theorem State.mapPpu_openBusReads (f : Ppu → Ppu) (s : State) : (s.mapPpu f).openBusReads = s.openBusReads := rfl

@[simp] theorem State.mapApu_cpu (f : Apu → Apu) (s : State) : (s.mapApu f).cpu = s.cpu := rfl
@[simp] theorem State.mapApu_ram (f : Apu → Apu) (s : State) : (s.mapApu f).ram = s.ram := rfl
@[simp] theorem State.mapApu_cart (f : Apu → Apu) (s : State) : (s.mapApu f).cart = s.cart := rfl
@[simp] theorem State.mapApu_ppu (f : Apu → Apu) (s : State) : (s.mapApu f).ppu = s.ppu := rfl
@[simp] theorem State.mapApu_apu (f : Apu → Apu) (s : State) : (s.mapApu f).apu = f s.apu := rfl
@[simp] theorem State.mapApu_pads (f : Apu → Apu) (s : State) : (s.mapApu f).pads = s.pads := rfl
@[simp] theorem State.mapApu_openBusReads (f : Apu → Apu) (s : State) : (s.mapApu f).openBusReads = s.openBusReads := rfl

@[simp] theorem State.mapPads_cpu (f : Pads → Pads) (s : State) : (s.mapPads f).cpu = s.cpu := rfl
@[simp] theorem State.mapPads_ram (f : Pads → Pads) (s : State) : (s.mapPads f).ram = s.ram := rfl
@[simp] theorem State.mapPads_cart (f : Pads → Pads) (s : State) : (s.mapPads f).cart = s.cart := rfl
@[simp] theorem State.mapPads_ppu (f : Pads → Pads) (s : State) : (s.mapPads f).ppu = s.ppu := rfl
@[simp] theorem State.mapPads_apu (f : Pads → Pads) (s : State) : (s.mapPads f).apu = s.apu := rfl
@[simp] theorem State.mapPads_pads (f : Pads → Pads) (s : State) : (s.mapPads f).pads = f s.pads := rfl
@[simp] theorem State.mapPads_openBusReads (f : Pads → Pads) (s : State) : (s.mapPads f).openBusReads = s.openBusReads := rfl

/-! ### PC and cycles -/

@[simp] theorem advancePc_cpu (n : Nat) (s : State) : (advancePc n s).cpu = s.cpu.setPc (s.cpu.pc + BitVec.ofNat 16 n) := rfl
@[simp] theorem advancePc_ram (n : Nat) (s : State) : (advancePc n s).ram = s.ram := rfl
@[simp] theorem advancePc_cart (n : Nat) (s : State) : (advancePc n s).cart = s.cart := rfl
@[simp] theorem advancePc_ppu (n : Nat) (s : State) : (advancePc n s).ppu = s.ppu := rfl
@[simp] theorem advancePc_apu (n : Nat) (s : State) : (advancePc n s).apu = s.apu := rfl
@[simp] theorem advancePc_pads (n : Nat) (s : State) : (advancePc n s).pads = s.pads := rfl
@[simp] theorem advancePc_openBusReads (n : Nat) (s : State) : (advancePc n s).openBusReads = s.openBusReads := rfl

@[simp] theorem spend_ram (n : Nat) (s : State) : (spend n s).ram = s.ram := rfl
@[simp] theorem spend_cart (n : Nat) (s : State) : (spend n s).cart = s.cart := rfl
@[simp] theorem spend_ppu (n : Nat) (s : State) : (spend n s).ppu = s.ppu := rfl
@[simp] theorem spend_apu (n : Nat) (s : State) : (spend n s).apu = s.apu := rfl
@[simp] theorem spend_pads (n : Nat) (s : State) : (spend n s).pads = s.pads := rfl
@[simp] theorem spend_openBusReads (n : Nat) (s : State) : (spend n s).openBusReads = s.openBusReads := rfl
@[simp] theorem spend_cpu_a (n : Nat) (s : State) : (spend n s).cpu.a = s.cpu.a := rfl
@[simp] theorem spend_cpu_x (n : Nat) (s : State) : (spend n s).cpu.x = s.cpu.x := rfl
@[simp] theorem spend_cpu_y (n : Nat) (s : State) : (spend n s).cpu.y = s.cpu.y := rfl
@[simp] theorem spend_cpu_sp (n : Nat) (s : State) : (spend n s).cpu.sp = s.cpu.sp := rfl
@[simp] theorem spend_cpu_pc (n : Nat) (s : State) : (spend n s).cpu.pc = s.cpu.pc := rfl
@[simp] theorem spend_cpu_p (n : Nat) (s : State) : (spend n s).cpu.p = s.cpu.p := rfl
@[simp] theorem spend_cpu_cycles (n : Nat) (s : State) : (spend n s).cpu.cycles = s.cpu.cycles + n := rfl
@[simp] theorem spend_cpu_nmiPending (n : Nat) (s : State) : (spend n s).cpu.nmiPending = s.cpu.nmiPending := rfl
@[simp] theorem spend_cpu_stall (n : Nat) (s : State) : (spend n s).cpu.stall = s.cpu.stall := rfl
@[simp] theorem spend_cpu_halted (n : Nat) (s : State) : (spend n s).cpu.halted = s.cpu.halted := rfl
@[simp] theorem spend_cpu_oamDmaStarted (n : Nat) (s : State) : (spend n s).cpu.oamDmaStarted = s.cpu.oamDmaStarted := rfl
@[simp] theorem spend_cpu_faultPc (n : Nat) (s : State) : (spend n s).cpu.faultPc = s.cpu.faultPc := rfl
@[simp] theorem spend_cpu_faultOpcode (n : Nat) (s : State) : (spend n s).cpu.faultOpcode = s.cpu.faultOpcode := rfl

/-! ### The undriven read -/

@[simp] theorem undrivenRead_cpu (a : Word) (s : State) : (undrivenRead a s).2.cpu = s.cpu := rfl
@[simp] theorem undrivenRead_ram (a : Word) (s : State) : (undrivenRead a s).2.ram = s.ram := rfl
@[simp] theorem undrivenRead_cart (a : Word) (s : State) : (undrivenRead a s).2.cart = s.cart := rfl
@[simp] theorem undrivenRead_ppu (a : Word) (s : State) : (undrivenRead a s).2.ppu = s.ppu := rfl
@[simp] theorem undrivenRead_apu (a : Word) (s : State) : (undrivenRead a s).2.apu = s.apu := rfl
@[simp] theorem undrivenRead_pads (a : Word) (s : State) : (undrivenRead a s).2.pads = s.pads := rfl
@[simp] theorem undrivenRead_openBusReads (a : Word) (s : State) : (undrivenRead a s).2.openBusReads = s.openBusReads + 1 := rfl
@[simp] theorem undrivenRead_value (a : Word) (s : State) : (undrivenRead a s).1 = Config.openBus a s.openBusReads := rfl

/-! ### Flags -/

@[simp] theorem Flags.setNZ_c (r : Byte) (p : Flags) : (Flags.setNZ r p).c = p.c := rfl
@[simp] theorem Flags.setNZ_z (r : Byte) (p : Flags) : (Flags.setNZ r p).z = decide (r = 0) := rfl
@[simp] theorem Flags.setNZ_i (r : Byte) (p : Flags) : (Flags.setNZ r p).i = p.i := rfl
@[simp] theorem Flags.setNZ_d (r : Byte) (p : Flags) : (Flags.setNZ r p).d = p.d := rfl
@[simp] theorem Flags.setNZ_v (r : Byte) (p : Flags) : (Flags.setNZ r p).v = p.v := rfl
@[simp] theorem Flags.setNZ_n (r : Byte) (p : Flags) : (Flags.setNZ r p).n = r.getLsbD 7 := rfl

@[simp] theorem Flags.adc_c (a m : Byte) (p : Flags) : (Flags.adc a m p).c = adcCarry a m p.c := rfl
@[simp] theorem Flags.adc_z (a m : Byte) (p : Flags) : (Flags.adc a m p).z = decide (adcResult a m p.c = 0) := rfl
@[simp] theorem Flags.adc_i (a m : Byte) (p : Flags) : (Flags.adc a m p).i = p.i := rfl
@[simp] theorem Flags.adc_d (a m : Byte) (p : Flags) : (Flags.adc a m p).d = p.d := rfl
@[simp] theorem Flags.adc_v (a m : Byte) (p : Flags) : (Flags.adc a m p).v = adcOverflow a m p.c := rfl
@[simp] theorem Flags.adc_n (a m : Byte) (p : Flags) : (Flags.adc a m p).n = (adcResult a m p.c).getLsbD 7 := rfl

@[simp] theorem Flags.compare_c (r m : Byte) (p : Flags) : (Flags.compare r m p).c = decide (m.toNat ≤ r.toNat) := rfl
@[simp] theorem Flags.compare_z (r m : Byte) (p : Flags) : (Flags.compare r m p).z = decide (r = m) := rfl
@[simp] theorem Flags.compare_i (r m : Byte) (p : Flags) : (Flags.compare r m p).i = p.i := rfl
@[simp] theorem Flags.compare_d (r m : Byte) (p : Flags) : (Flags.compare r m p).d = p.d := rfl
@[simp] theorem Flags.compare_v (r m : Byte) (p : Flags) : (Flags.compare r m p).v = p.v := rfl
@[simp] theorem Flags.compare_n (r m : Byte) (p : Flags) : (Flags.compare r m p).n = (r - m).getLsbD 7 := rfl

@[simp] theorem Flags.bitTest_c (a m : Byte) (p : Flags) : (Flags.bitTest a m p).c = p.c := rfl
@[simp] theorem Flags.bitTest_z (a m : Byte) (p : Flags) : (Flags.bitTest a m p).z = decide (a &&& m = 0) := rfl
@[simp] theorem Flags.bitTest_i (a m : Byte) (p : Flags) : (Flags.bitTest a m p).i = p.i := rfl
@[simp] theorem Flags.bitTest_d (a m : Byte) (p : Flags) : (Flags.bitTest a m p).d = p.d := rfl
@[simp] theorem Flags.bitTest_v (a m : Byte) (p : Flags) : (Flags.bitTest a m p).v = m.getLsbD 6 := rfl
@[simp] theorem Flags.bitTest_n (a m : Byte) (p : Flags) : (Flags.bitTest a m p).n = m.getLsbD 7 := rfl

@[simp] theorem Flags.shifted_c (c : Bool) (r : Byte) (p : Flags) : (Flags.shifted c r p).c = c := rfl
@[simp] theorem Flags.shifted_z (c : Bool) (r : Byte) (p : Flags) : (Flags.shifted c r p).z = decide (r = 0) := rfl
@[simp] theorem Flags.shifted_i (c : Bool) (r : Byte) (p : Flags) : (Flags.shifted c r p).i = p.i := rfl
@[simp] theorem Flags.shifted_d (c : Bool) (r : Byte) (p : Flags) : (Flags.shifted c r p).d = p.d := rfl
@[simp] theorem Flags.shifted_v (c : Bool) (r : Byte) (p : Flags) : (Flags.shifted c r p).v = p.v := rfl
@[simp] theorem Flags.shifted_n (c : Bool) (r : Byte) (p : Flags) : (Flags.shifted c r p).n = r.getLsbD 7 := rfl

@[simp] theorem unpackP_c (v : Byte) : (unpackP v).c = v.getLsbD 0 := rfl
@[simp] theorem unpackP_z (v : Byte) : (unpackP v).z = v.getLsbD 1 := rfl
@[simp] theorem unpackP_i (v : Byte) : (unpackP v).i = v.getLsbD 2 := rfl
@[simp] theorem unpackP_d (v : Byte) : (unpackP v).d = v.getLsbD 3 := rfl
@[simp] theorem unpackP_v (v : Byte) : (unpackP v).v = v.getLsbD 6 := rfl
@[simp] theorem unpackP_n (v : Byte) : (unpackP v).n = v.getLsbD 7 := rfl

end Sys2Proof.Machine
end

