-- ==== Sys2Proof/Laws/Bus.lean ====
section
/-! SUPPORT. The CPU bus: what each address selects, what a read and a write can change, the stack and the vectors, and
the effective addresses. Later proofs cite these and do not unfold the bus. -/

namespace Sys2Proof.Machine

/-! ### The decoder -/

theorem busTarget_ram {a : Word} (h : a.toNat < 0x2000) : busTarget a = .ram (a.toNat % 0x800) := by
  simp [busTarget, h]

theorem busTarget_prg {a : Word} (h : 0x8000 ≤ a.toNat) : busTarget a = .prg (a.toNat - 0x8000) := by
  simp only [busTarget]
  repeat rw [if_neg (by omega)]

theorem busTarget_ppu {a : Word} (h1 : 0x2000 ≤ a.toNat) (h2 : a.toNat < 0x4000) :
    busTarget a = .ppu (ppuRegOf (a.toNat % 8)) := by
  simp only [busTarget]
  rw [if_neg (by omega), if_pos h2]

/-- Whatever an address selects, one of these holds. -/
theorem busTarget_cases (a : Word) :
    (a.toNat < 0x2000 ∧ busTarget a = .ram (a.toNat % 0x800)) ∨
    (0x2000 ≤ a.toNat ∧ a.toNat < 0x4000 ∧ busTarget a = .ppu (ppuRegOf (a.toNat % 8))) ∨
    (0x4000 ≤ a.toNat ∧ a.toNat < 0x4014 ∧ busTarget a = .apu (a.toNat - 0x4000)) ∨
    (a.toNat = 0x4014 ∧ busTarget a = .oamDma) ∨ (a.toNat = 0x4015 ∧ busTarget a = .apuStatus) ∨
    (a.toNat = 0x4016 ∧ busTarget a = .port1) ∨ (a.toNat = 0x4017 ∧ busTarget a = .port2) ∨
    (0x4018 ≤ a.toNat ∧ a.toNat < 0x8000 ∧ busTarget a = .unmapped) ∨
    (0x8000 ≤ a.toNat ∧ busTarget a = .prg (a.toNat - 0x8000)) := by
  unfold busTarget
  split
  · exact .inl ⟨‹_›, rfl⟩
  split
  · exact .inr (.inl ⟨by omega, ‹_›, rfl⟩)
  split
  · exact .inr (.inr (.inl ⟨by omega, ‹_›, rfl⟩))
  split
  · exact .inr (.inr (.inr (.inl ⟨‹_›, rfl⟩)))
  split
  · exact .inr (.inr (.inr (.inr (.inl ⟨‹_›, rfl⟩))))
  split
  · exact .inr (.inr (.inr (.inr (.inr (.inl ⟨‹_›, rfl⟩)))))
  split
  · exact .inr (.inr (.inr (.inr (.inr (.inr (.inl ⟨‹_›, rfl⟩))))))
  split
  · exact .inr (.inr (.inr (.inr (.inr (.inr (.inr (.inl ⟨by omega, ‹_›, rfl⟩)))))))
  · exact .inr (.inr (.inr (.inr (.inr (.inr (.inr (.inr ⟨by omega, rfl⟩)))))))

@[simp] theorem zeroPage_toNat (z : Byte) : (zeroPage z).toNat = z.toNat := by
  simp only [zeroPage, wordOf, BitVec.toNat_append]
  simp

@[simp] theorem stackAddr_toNat (sp : Byte) : (stackAddr sp).toNat = 0x100 + sp.toNat := by
  have h := sp.isLt
  simp only [stackAddr, wordOf, BitVec.toNat_append]
  rw [← Nat.shiftLeft_add_eq_or_of_lt h]
  rfl

theorem busTarget_zeroPage (z : Byte) : busTarget (zeroPage z) = .ram z.toNat := by
  have h := z.isLt
  rw [busTarget_ram (by rw [zeroPage_toNat]; omega), zeroPage_toNat, Nat.mod_eq_of_lt (by omega)]

theorem busTarget_stackAddr (sp : Byte) : busTarget (stackAddr sp) = .ram (0x100 + sp.toNat) := by
  have h := sp.isLt
  rw [busTarget_ram (by rw [stackAddr_toNat]; omega), stackAddr_toNat, Nat.mod_eq_of_lt (by omega)]

/-! ### Reads -/

theorem busRead_of_ram {a : Word} {o : Nat} (h : busTarget a = .ram o) (s : State) :
    busRead a s = (s.ram.read o, s) := by simp [busRead, h]

theorem busRead_of_prg {a : Word} {o : Nat} (h : busTarget a = .prg o) (s : State) :
    busRead a s = (s.cart.prgByte o, s) := by simp [busRead, h]

theorem busRead_ram {a : Word} (h : a.toNat < 0x2000) (s : State) :
    busRead a s = (s.ram.read (a.toNat % 0x800), s) := busRead_of_ram (busTarget_ram h) s

theorem busRead_prg {a : Word} (h : 0x8000 ≤ a.toNat) (s : State) :
    busRead a s = (s.cart.prgByte (a.toNat - 0x8000), s) := busRead_of_prg (busTarget_prg h) s

/-- A read of memory has no side effect (20_memory R75). -/
theorem busRead_memory {a : Word} (h : isMemory a) (s : State) : (busRead a s).2 = s := by
  rcases h with h | h
  · rw [busRead_ram h]
  · rw [busRead_prg h]

theorem busRead_zeroPage (z : Byte) (s : State) : busRead (zeroPage z) s = (s.ram.read z.toNat, s) :=
  busRead_of_ram (busTarget_zeroPage z) s

theorem busRead_stackAddr (sp : Byte) (s : State) :
    busRead (stackAddr sp) s = (s.ram.read (0x100 + sp.toNat), s) :=
  busRead_of_ram (busTarget_stackAddr sp) s

/-- Everything a bus read can change. -/
theorem busRead_cases (a : Word) (s : State) :
    ∃ n p u k, (busRead a s).2 = { s with ppu := p, apu := u, pads := k, openBusReads := n } ∧
      (p = s.ppu ∨ p = s.ppu.afterStatusRead ∨ p = s.ppu.afterDataRead s.cart) ∧
      (u = s.apu ∨ u = s.apu.afterStatusRead) ∧
      (k = s.pads ∨ k = s.pads.afterRead1 ∨ k = s.pads.afterRead2) := by
  unfold busRead
  cases busTarget a with
  | ram o => exact ⟨_, _, _, _, rfl, .inl rfl, .inl rfl, .inl rfl⟩
  | ppu r =>
    cases r with
    | ppustatus => exact ⟨_, _, _, _, rfl, .inr (.inl rfl), .inl rfl, .inl rfl⟩
    | ppudata =>
      simp only [ppuRegRead]
      split
      · exact ⟨_, _, _, _, rfl, .inr (.inr rfl), .inl rfl, .inl rfl⟩
      · exact ⟨_, _, _, _, rfl, .inr (.inr rfl), .inl rfl, .inl rfl⟩
    | ppuctrl | ppumask | oamaddr | oamdata | ppuscroll | ppuaddr =>
      exact ⟨_, _, _, _, rfl, .inl rfl, .inl rfl, .inl rfl⟩
  | apu o | oamDma | unmapped => exact ⟨_, _, _, _, rfl, .inl rfl, .inl rfl, .inl rfl⟩
  | apuStatus => exact ⟨_, _, _, _, rfl, .inl rfl, .inr rfl, .inl rfl⟩
  | port1 => exact ⟨_, _, _, _, rfl, .inl rfl, .inl rfl, .inr (.inl rfl)⟩
  | port2 => exact ⟨_, _, _, _, rfl, .inl rfl, .inl rfl, .inr (.inr rfl)⟩
  | prg o => exact ⟨_, _, _, _, rfl, .inl rfl, .inl rfl, .inl rfl⟩

@[simp] theorem busRead_cpu (a : Word) (s : State) : (busRead a s).2.cpu = s.cpu := by
  obtain ⟨_, _, _, _, h, -⟩ := busRead_cases a s
  rw [h]

@[simp] theorem busRead_ram_kept (a : Word) (s : State) : (busRead a s).2.ram = s.ram := by
  obtain ⟨_, _, _, _, h, -⟩ := busRead_cases a s
  rw [h]

@[simp] theorem busRead_cart (a : Word) (s : State) : (busRead a s).2.cart = s.cart := by
  obtain ⟨_, _, _, _, h, -⟩ := busRead_cases a s
  rw [h]

/-- A bus read writes no PPU memory and no palette cell, and moves no dot. -/
theorem busRead_ppu_kept (a : Word) (s : State) :
    (busRead a s).2.ppu.vram = s.ppu.vram ∧ (busRead a s).2.ppu.oam = s.ppu.oam ∧
      (busRead a s).2.ppu.palette = s.ppu.palette ∧ (busRead a s).2.ppu.soamCount = s.ppu.soamCount ∧
      (busRead a s).2.ppu.scanline = s.ppu.scanline ∧ (busRead a s).2.ppu.dot = s.ppu.dot ∧
      (busRead a s).2.ppu.frameComplete = s.ppu.frameComplete ∧
      (busRead a s).2.ppu.oamaddr = s.ppu.oamaddr := by
  obtain ⟨_, _, _, _, h, hp, -⟩ := busRead_cases a s
  rw [h]
  rcases hp with rfl | rfl | rfl <;> simp [Ppu.afterStatusRead, Ppu.afterDataRead, Ppu.bumpV]

/-- The one change a bus read makes to the APU: the frame interrupt flag. -/
theorem busRead_apu (a : Word) (s : State) :
    ∃ f, (busRead a s).2.apu = { s.apu with frameIrq := f } := by
  obtain ⟨_, _, _, _, h, -, hu, -⟩ := busRead_cases a s
  rw [h]
  rcases hu with rfl | rfl
  · exact ⟨_, rfl⟩
  · exact ⟨_, rfl⟩

/-- A memory byte depends on RAM and the cartridge alone. -/
theorem busRead_memory_congr {a : Word} (h : isMemory a) {s t : State} (hr : t.ram = s.ram)
    (hc : t.cart.prg = s.cart.prg) (hz : t.cart.prgSize = s.cart.prgSize) : (busRead a t).1 = (busRead a s).1 := by
  rcases h with h | h
  · rw [busRead_ram h, busRead_ram h, hr]
  · rw [busRead_prg h, busRead_prg h, Cartridge.prgByte, Cartridge.prgByte, hc, hz]

/-- A bus read does not look at the CPU registers. -/
theorem busRead_withCpu (a : Word) (c : Cpu) (s : State) :
    busRead a { s with cpu := c } = ((busRead a s).1, { (busRead a s).2 with cpu := c }) := by
  unfold busRead
  cases busTarget a with
  | ppu r =>
    cases r with
    | ppudata => by_cases h : s.ppu.dataIsPalette = true <;> simp only [ppuRegRead, h] <;> rfl
    | ppuctrl | ppumask | ppustatus | oamaddr | oamdata | ppuscroll | ppuaddr => rfl
  | ram o | apu o | oamDma | apuStatus | port1 | port2 | unmapped | prg o => rfl

/-! ### Writes -/

theorem busWrite_of_ram {a : Word} {o : Nat} (h : busTarget a = .ram o) (d : Byte) (s : State) :
    busWrite a d s = { s with ram := s.ram.write o d } := by simp [busWrite, h]

theorem busWrite_ram {a : Word} (h : a.toNat < 0x2000) (d : Byte) (s : State) :
    busWrite a d s = { s with ram := s.ram.write (a.toNat % 0x800) d } := busWrite_of_ram (busTarget_ram h) d s

theorem busWrite_stackAddr (sp v : Byte) (s : State) :
    busWrite (stackAddr sp) v s = { s with ram := s.ram.write (0x100 + sp.toNat) v } :=
  busWrite_of_ram (busTarget_stackAddr sp) v s

/-- Folding a step that keeps something keeps it. -/
theorem foldl_keeps {α β γ : Type} (f : α → β → α) (g : α → γ) (h : ∀ a b, g (f a b) = g a) :
    ∀ (l : List β) (a : α), g (l.foldl f a) = g a
  | [], _ => rfl
  | b :: l, a => (foldl_keeps f g h l (f a b)).trans (h a b)

/-- Folding a step that keeps a property keeps it. -/
theorem foldl_invariant {α β : Type} (f : α → β → α) (P : α → Prop) (h : ∀ a b, P a → P (f a b)) :
    ∀ (l : List β) (a : α), P a → P (l.foldl f a)
  | [], _, ha => ha
  | b :: l, a, ha => foldl_invariant f P h l (f a b) (h a b ha)

@[simp] theorem oamDmaByte_cpu (d : Byte) (s : State) (i : Nat) : (oamDmaByte d s i).cpu = s.cpu := by
  simp [oamDmaByte]

@[simp] theorem oamDmaByte_ram (d : Byte) (s : State) (i : Nat) : (oamDmaByte d s i).ram = s.ram := by
  simp [oamDmaByte]

@[simp] theorem oamDmaByte_cart (d : Byte) (s : State) (i : Nat) : (oamDmaByte d s i).cart = s.cart := by
  simp [oamDmaByte]

@[simp] theorem oamDma_cpu (d : Byte) (s : State) : (oamDma d s).cpu = { s.cpu with oamDmaStarted := true } := by
  simp [oamDma, foldl_keeps (oamDmaByte d) State.cpu (oamDmaByte_cpu d)]

@[simp] theorem oamDma_ram (d : Byte) (s : State) : (oamDma d s).ram = s.ram := by
  simp [oamDma, foldl_keeps (oamDmaByte d) State.ram (oamDmaByte_ram d)]

@[simp] theorem oamDma_cart (d : Byte) (s : State) : (oamDma d s).cart = s.cart := by
  simp [oamDma, foldl_keeps (oamDmaByte d) State.cart (oamDmaByte_cart d)]

theorem ppuWrite_cpu (a : BitVec 14) (d : Byte) (s : State) : (ppuWrite a d s).cpu = s.cpu := by
  unfold ppuWrite
  repeat' split
  all_goals rfl

theorem ppuWrite_ram (a : BitVec 14) (d : Byte) (s : State) : (ppuWrite a d s).ram = s.ram := by
  unfold ppuWrite
  repeat' split
  all_goals rfl

/-- A write of PPU memory keeps the cartridge but for CHR RAM. -/
theorem ppuWrite_cart (a : BitVec 14) (d : Byte) (s : State) :
    ∃ c, (ppuWrite a d s).cart = { s.cart with chr := c } ∧ (s.cart.chrIsRam = false → c = s.cart.chr) := by
  unfold ppuWrite
  split
  · split
    · next h => exact ⟨_, rfl, by simp [h]⟩
    · exact ⟨_, rfl, fun _ => rfl⟩
  · split
    · exact ⟨_, rfl, fun _ => rfl⟩
    · exact ⟨_, rfl, fun _ => rfl⟩

theorem ppuRegWrite_ram (r : PpuReg) (d : Byte) (s : State) : (ppuRegWrite r d s).ram = s.ram := by
  cases r <;> simp [ppuRegWrite, ppuWrite_ram]

/-- The CPU registers a PPU register write can change: the NMI latch. -/
theorem ppuRegWrite_cpu (r : PpuReg) (d : Byte) (s : State) :
    ∃ n, (ppuRegWrite r d s).cpu = { s.cpu with nmiPending := n } := by
  cases r
  case ppuctrl => exact ⟨_, rfl⟩
  case ppudata => exact ⟨s.cpu.nmiPending, by simp [ppuRegWrite, ppuWrite_cpu]⟩
  all_goals exact ⟨_, rfl⟩

theorem ppuRegWrite_cart (r : PpuReg) (d : Byte) (s : State) :
    ∃ c, (ppuRegWrite r d s).cart = { s.cart with chr := c } ∧ (s.cart.chrIsRam = false → c = s.cart.chr) := by
  cases r
  case ppudata => simpa [ppuRegWrite] using ppuWrite_cart s.ppu.dataAddr d s
  all_goals exact ⟨_, rfl, fun _ => rfl⟩

/-- The CPU registers a bus write can change: the NMI latch and the OAM DMA mark. -/
theorem busWrite_cpu (a : Word) (d : Byte) (s : State) :
    ∃ n o, (busWrite a d s).cpu = { s.cpu with nmiPending := n, oamDmaStarted := o } := by
  unfold busWrite
  cases busTarget a with
  | ppu r =>
    obtain ⟨n, h⟩ := ppuRegWrite_cpu r d s
    exact ⟨n, _, h⟩
  | oamDma => exact ⟨_, true, oamDma_cpu d s⟩
  | ram o | apu o | apuStatus | port1 | port2 | unmapped | prg o => exact ⟨_, _, rfl⟩

theorem busWrite_cpu_eq (a : Word) (d : Byte) (s : State) :
    (busWrite a d s).cpu =
      { s.cpu with nmiPending := (busWrite a d s).cpu.nmiPending,
                   oamDmaStarted := (busWrite a d s).cpu.oamDmaStarted } := by
  obtain ⟨n, o, h⟩ := busWrite_cpu a d s
  rw [h]

/-- A bus write keeps the cartridge but for CHR RAM (20_memory R78-R80). -/
theorem busWrite_cart (a : Word) (d : Byte) (s : State) :
    ∃ c, (busWrite a d s).cart = { s.cart with chr := c } ∧ (s.cart.chrIsRam = false → c = s.cart.chr) := by
  unfold busWrite
  cases busTarget a with
  | ppu r => exact ppuRegWrite_cart r d s
  | oamDma => exact ⟨_, oamDma_cart d s, fun _ => rfl⟩
  | ram o | apu o | apuStatus | port1 | port2 | unmapped | prg o => exact ⟨_, rfl, fun _ => rfl⟩

theorem busWrite_of_oamDma {a : Word} (h : busTarget a = .oamDma) (d : Byte) (s : State) :
    busWrite a d s = oamDma d s := by
  unfold busWrite
  rw [h]

theorem foldl_oamDmaByte_withCpu (d : Byte) (c : Cpu) :
    ∀ (l : List Nat) (s : State),
      l.foldl (oamDmaByte d) { s with cpu := c } = { l.foldl (oamDmaByte d) s with cpu := c }
  | [], _ => rfl
  | i :: l, s => by
    have h : oamDmaByte d { s with cpu := c } i = { oamDmaByte d s i with cpu := c } := by
      simp only [oamDmaByte, busRead_withCpu]
      rfl
    rw [List.foldl_cons, List.foldl_cons, h]
    exact foldl_oamDmaByte_withCpu d c l _

theorem ppuWrite_withCpu (a : BitVec 14) (d : Byte) (c : Cpu) (s : State) :
    ppuWrite a d { s with cpu := c } = { ppuWrite a d s with cpu := c } := by
  by_cases h1 : a.toNat ≤ 0x1FFF
  · by_cases h2 : s.cart.chrIsRam = true <;> simp only [ppuWrite, h1, h2] <;> rfl
  · by_cases h2 : a.toNat ≤ 0x3EFF <;> simp only [ppuWrite, h1, h2] <;> rfl

/-- A bus write does not look at the CPU registers; it may raise NMI and mark an OAM DMA. -/
theorem busWrite_withCpu (a : Word) (d : Byte) (c : Cpu) (s : State)
    (hn : c.nmiPending = s.cpu.nmiPending) (ho : c.oamDmaStarted = s.cpu.oamDmaStarted) :
    busWrite a d { s with cpu := c } =
      { busWrite a d s with
        cpu := { c with
          nmiPending := (busWrite a d s).cpu.nmiPending
          oamDmaStarted := (busWrite a d s).cpu.oamDmaStarted } } := by
  obtain ⟨ca, cx, cy, csp, cpc, cp, ccy, cn, cst, ch, co, cf, cg⟩ := c
  subst hn ho
  cases e : busTarget a with
  | oamDma =>
    rw [busWrite_of_oamDma e, busWrite_of_oamDma e, oamDma_cpu]
    unfold oamDma
    rw [foldl_oamDmaByte_withCpu]
    have h := foldl_keeps (oamDmaByte d) State.cpu (oamDmaByte_cpu d) (List.range 256) s
    generalize List.foldl (oamDmaByte d) s (List.range 256) = u at h
    simp only [State.mapCpu, h]
  | ppu r =>
    simp only [busWrite, e]
    cases r with
    | ppudata =>
      simp only [ppuRegWrite, ppuWrite_withCpu, State.mapPpu, ppuWrite_cpu]
    | ppuctrl | ppumask | ppustatus | oamaddr | oamdata | ppuscroll | ppuaddr => rfl
  | ram o | apu o | apuStatus | port1 | port2 | unmapped | prg o => simp only [busWrite, e] <;> rfl

/-- Only a write of internal RAM changes internal RAM. -/
theorem busWrite_ram_kept {a : Word} (h : ¬a.toNat < 0x2000) (d : Byte) (s : State) :
    (busWrite a d s).ram = s.ram := by
  cases e : busTarget a with
  | ram o =>
    rcases busTarget_cases a with h' | h' | h' | h' | h' | h' | h' | h' | h' <;> simp_all
  | oamDma => rw [busWrite_of_oamDma e, oamDma_ram]
  | ppu r => simp only [busWrite, e, ppuRegWrite_ram]
  | apu o | apuStatus | port1 | port2 | unmapped | prg o => simp only [busWrite, e, State.mapApu_ram, State.mapPads_ram]

/-- A write of the channel register 0x4000 + r goes to the APU alone. -/
theorem busWrite_apuReg {a : Word} {r : Nat} (h : a.toNat = 0x4000 + r) (hr : r < 0x14) (d : Byte) (s : State) :
    busWrite a d s = { s with apu := s.apu.writeReg r d } := by
  have e : busTarget a = .apu r := by
    simp only [busTarget]
    rw [if_neg (by omega), if_neg (by omega), if_pos (by omega), show a.toNat - 0x4000 = r by omega]
  simp only [busWrite, e, State.mapApu]

theorem busWrite_prg {a : Word} (h : 0x8000 ≤ a.toNat) (d : Byte) (s : State) : busWrite a d s = s := by
  simp [busWrite, busTarget_prg h]

/-- A write that selects no device register changes internal RAM at most. -/
theorem busWrite_not_device {a : Word} (h : ¬isDevice a) (d : Byte) (s : State) :
    ∃ m, busWrite a d s = { s with ram := m } := by
  unfold isDevice at h
  rcases busTarget_cases a with ⟨h1, e⟩ | ⟨h1, h2, -⟩ | ⟨h1, h2, -⟩ | ⟨h1, -⟩ | ⟨h1, -⟩ | ⟨h1, -⟩ | ⟨h1, -⟩ |
    ⟨h1, h2, e⟩ | ⟨h1, e⟩
  · exact ⟨_, busWrite_of_ram e d s⟩
  · omega
  · omega
  · omega
  · omega
  · omega
  · omega
  · exact ⟨s.ram, by simp only [busWrite, e]⟩
  · exact ⟨s.ram, busWrite_prg h1 d s⟩

/-- A write leaves every byte of memory but the one it stores to (20_memory R71, R78, R83). -/
theorem busRead_busWrite_other {a b : Word} (ha : isMemory a) (hb : ¬sameRamByte a b) (d : Byte) {s : State}
    (hs : s.ram.wf) : (busRead a (busWrite b d s)).1 = (busRead a s).1 := by
  obtain ⟨c, hc, -⟩ := busWrite_cart b d s
  by_cases h : b.toNat < 0x2000
  · rcases ha with ha | ha
    · rw [busRead_ram ha, busRead_ram ha, busWrite_ram h]
      exact Memory.read_write_other hs (fun e => hb ⟨ha, h, e⟩) d
    · rw [busRead_prg ha, busRead_prg ha, busWrite_ram h]
  · exact busRead_memory_congr ha (busWrite_ram_kept h d s) (by rw [hc]) (by rw [hc])

/-- A write keeps the canonical form of internal RAM. -/
theorem busWrite_ram_wf (a : Word) (d : Byte) {s : State} (h : s.ram.wf) : (busWrite a d s).ram.wf := by
  by_cases ha : a.toNat < 0x2000
  · rw [busWrite_ram ha]
    exact Memory.wf_write _ _ h
  · rw [busWrite_ram_kept ha]
    exact h

/-! ### The stack -/

/-- A push stores one byte of RAM and decrements SP (10_state R34). -/
theorem push_eq (v : Byte) (s : State) :
    push v s =
      { s with ram := s.ram.write (0x100 + s.cpu.sp.toNat) v, cpu := { s.cpu with sp := s.cpu.sp - 1 } } := by
  simp only [push, busWrite_stackAddr]
  rfl

/-- A pull increments SP and reads one byte of RAM (10_state R34). -/
theorem pull_eq (s : State) :
    pull s = (s.ram.read (0x100 + (s.cpu.sp + 1).toNat), { s with cpu := { s.cpu with sp := s.cpu.sp + 1 } }) := by
  simp only [pull, busRead_stackAddr]
  rfl

theorem sp_sub_two (p : Byte) : p - 1 - 1 = p - 2 := by bv_omega

theorem sp_sub_three (p : Byte) : p - 2 - 1 = p - 3 := by bv_omega

theorem sp_add_two (p : Byte) : p + 1 + 1 = p + 2 := by bv_omega

theorem sp_add_three (p : Byte) : p + 2 + 1 = p + 3 := by bv_omega

/-- Different stack slots are different bytes of RAM, for every SP. -/
theorem stack_slot_ne (p : Byte) {k l : Byte} (h : k ≠ l) : 0x100 + (p - k).toNat ≠ 0x100 + (p - l).toNat := by
  intro e
  apply h
  have e := BitVec.eq_of_toNat_eq (show (p - k).toNat = (p - l).toNat by omega)
  bv_omega

theorem pushWord_eq (w : Word) (s : State) :
    pushWord w s =
      { s with
        ram := (s.ram.write (0x100 + s.cpu.sp.toNat) (hiByte w)).write (0x100 + (s.cpu.sp - 1).toNat) (loByte w)
        cpu := { s.cpu with sp := s.cpu.sp - 2 } } := by
  simp only [pushWord, push_eq, sp_sub_two]

theorem pullWord_eq (s : State) :
    pullWord s =
      (wordOf (s.ram.read (0x100 + (s.cpu.sp + 1).toNat)) (s.ram.read (0x100 + (s.cpu.sp + 2).toNat)),
        { s with cpu := { s.cpu with sp := s.cpu.sp + 2 } }) := by
  simp only [pullWord, pull_eq, sp_add_two]

/-! ### Vectors and exceptions -/

/-- A vector is read from PRG ROM, without a side effect (60_exceptions R401). -/
theorem busRead16_vector {a : Word} (h1 : 0x8000 ≤ a.toNat) (h2 : a.toNat < 0xFFFF) (s : State) :
    busRead16 a s = (s.vector a, s) := by
  have h3 : (a + 1).toNat = a.toNat + 1 := by
    have := BitVec.toNat_add a 1
    simp only [BitVec.ofNat_eq_ofNat, BitVec.toNat_ofNat, Nat.reducePow, Nat.reduceMod] at this
    rw [Nat.mod_eq_of_lt (by omega)] at this
    exact this
  simp only [busRead16, busRead_prg h1, busRead_prg (show 0x8000 ≤ (a + 1).toNat by omega), h3, State.vector]

theorem State.vector_congr {s t : State} (h : t.cart = s.cart) (a : Word) : t.vector a = s.vector a := by
  simp [State.vector, h]

/-- The three bytes an exception pushes. -/
theorem enterException_eq {vector : Word} (h1 : 0x8000 ≤ vector.toNat) (h2 : vector.toNat < 0xFFFF) (b : Bool)
    (ret : Word) (s : State) :
    enterException vector b ret s =
      { s with
        ram := ((s.ram.write (0x100 + s.cpu.sp.toNat) (hiByte ret)).write (0x100 + (s.cpu.sp - 1).toNat)
          (loByte ret)).write (0x100 + (s.cpu.sp - 2).toNat) (packP b s.cpu.p)
        cpu := { s.cpu with
          sp := s.cpu.sp - 3
          p := { s.cpu.p with i := true }
          pc := s.vector vector } } := by
  simp only [enterException, busRead16_vector h1 h2, pushWord_eq, push_eq, sp_sub_three]
  rfl

theorem pullP_eq (s : State) :
    pullP s =
      { s with cpu := { s.cpu with
          sp := s.cpu.sp + 1
          p := unpackP (s.ram.read (0x100 + (s.cpu.sp + 1).toNat)) } } := by
  simp only [pullP, pull_eq]
  rfl

theorem returnFromException_eq (s : State) :
    returnFromException s =
      { s with cpu := { s.cpu with
          sp := s.cpu.sp + 3
          p := unpackP (s.ram.read (0x100 + (s.cpu.sp + 1).toNat))
          pc := wordOf (s.ram.read (0x100 + (s.cpu.sp + 2).toNat)) (s.ram.read (0x100 + (s.cpu.sp + 3).toNat)) } } := by
  have h : s.cpu.sp + 1 + 2 = s.cpu.sp + 3 := by bv_omega
  simp only [returnFromException, pullP_eq, pullWord_eq, sp_add_two, h]
  rfl

/-- What is packed and pulled again is the flags (10_state R44, R45). -/
theorem unpackP_packP (b : Bool) (p : Flags) : unpackP (packP b p) = p := by
  obtain ⟨c, z, i, d, v, n⟩ := p
  revert b c z i d v n
  decide

/-- The reset sequence reads the vector from PRG ROM and writes the CPU record alone (70_reset_and_hazards R610). -/
theorem resetSequence_eq (s : State) : resetSequence s = { s with cpu := s.cpu.afterReset (s.vector resetVector) } := by
  simp only [resetSequence, busRead16_vector (show 0x8000 ≤ resetVector.toNat by decide) (by decide), State.mapCpu]

/-! ### Effective addresses -/

/-- Forming an effective address has no side effect: its pointers lie in the zero page. -/
@[simp] theorem locate_st (m : Mode) (s : State) : (locate m s).st = s := by
  cases m <;> simp [locate, indexed, zeroPagePointer, busRead_zeroPage]

theorem zeroPagePointer_eq (z : Byte) (s : State) :
    zeroPagePointer z s = (wordOf (s.ram.read z.toNat) (s.ram.read (z + 1).toNat), s) := by
  simp [zeroPagePointer, busRead_zeroPage]

end Sys2Proof.Machine
end

