-- ==== Sys2Proof/Laws/Operands.lean ====
section
/-! SUPPORT. What each instruction class of Operands.lean leaves, said once as one equation: the bus accesses at the
effective address, and the CPU record with PC advanced and the cost counted. -/

namespace Sys2Proof.Machine

theorem impliedClass_eq (cost : Nat) (f : Cpu → Cpu) (s : State) :
    impliedClass cost f s =
      let c := f (s.cpu.setPc (s.cpu.pc + 1))
      .next { s with cpu := { c with cycles := c.cycles + cost } } := rfl

theorem immediateClass_eq (cost : Nat) (f : Byte → Cpu → Cpu) (v : Byte) (s : State) :
    immediateClass cost f v s =
      let c := f v (s.cpu.setPc (s.cpu.pc + 2))
      .next { s with cpu := { c with cycles := c.cycles + cost } } := rfl

/-- A read-class instruction: the effect `f` on the byte read, with the devices as the read left them. -/
theorem readClass_eq (m : Mode) (len base : Nat) (f : Byte → Cpu → Cpu) (s : State) :
    readClass m len base f s =
      let at_ := locate m (advancePc len s)
      let r := busRead at_.ea (advancePc len s)
      let c := f r.1 (s.cpu.setPc (s.cpu.pc + BitVec.ofNat 16 len))
      .next { r.2 with cpu := { c with cycles := c.cycles + (base + crossCost at_.cross) } } := by
  simp only [readClass, locate_st, spend, State.mapCpu, busRead_cpu, advancePc_cpu]

/-- A write-class instruction: one write of the register. -/
theorem writeClass_eq (m : Mode) (len cost : Nat) (reg : Cpu → Byte) (s : State) :
    writeClass m len cost reg s =
      let at_ := locate m (advancePc len s)
      let w := busWrite at_.ea (reg (advancePc len s).cpu) (advancePc len s)
      .next { w with
        cpu := { s.cpu with
          pc := s.cpu.pc + BitVec.ofNat 16 len
          cycles := s.cpu.cycles + cost
          nmiPending := w.cpu.nmiPending
          oamDmaStarted := w.cpu.oamDmaStarted } } := by
  simp only [writeClass, locate_st, spend, State.mapCpu]
  rw [busWrite_cpu_eq]
  rfl

/-- A read-modify-write instruction: the byte read goes through `f` and is written back, and then the flags. -/
theorem rmwClass_eq (m : Mode) (len cost : Nat) (f : Byte → Flags → Modified) (s : State) :
    rmwClass m len cost f s =
      let at_ := locate m (advancePc len s)
      let r := busRead at_.ea (advancePc len s)
      let out := f r.1 s.cpu.p
      let w := busWrite at_.ea out.r r.2
      .next { w with
        cpu := { s.cpu with
          pc := s.cpu.pc + BitVec.ofNat 16 len
          p := out.p
          cycles := s.cpu.cycles + cost
          nmiPending := w.cpu.nmiPending
          oamDmaStarted := w.cpu.oamDmaStarted } } := by
  simp only [rmwClass, locate_st, spend, State.mapCpu]
  rw [busWrite_cpu_eq]
  simp only [busRead_cpu, advancePc_cpu]
  rfl

/-- A branch: PC at the target or past the branch, and 2, 3 or 4 cycles. -/
theorem branchClass_eq (taken : Flags → Bool) (d : Int) (s : State) :
    branchClass taken d s =
      let next := s.cpu.pc + 2
      let target := next + displacement d
      .next { s with
        cpu := { s.cpu with
          pc := if taken s.cpu.p then target else next
          cycles := s.cpu.cycles + (if taken s.cpu.p then (if page next ≠ page target then 4 else 3) else 2) } } := by
  unfold branchClass
  cases taken s.cpu.p
  · rfl
  · have h : (advancePc 2 s).cpu.pc = s.cpu.pc + 2 := rfl
    simp only [h, branchTarget, if_true]
    split <;> rfl

end Sys2Proof.Machine
end

