-- ==== Sys2Proof/Laws/Exec.lean ====
section
/-! SUPPORT. What a meaning can do, said once: every instruction has one of a dozen shapes over the shared classes, and
from the shapes follows what every instruction keeps. -/

namespace Sys2Proof.Machine

/-! ### Updates that keep the hidden registers -/

/-- `d` differs from `c` at most in A, X, Y, SP, PC and P. -/
structure Cpu.SameHidden (c d : Cpu) : Prop where
  cycles : d.cycles = c.cycles
  nmiPending : d.nmiPending = c.nmiPending
  stall : d.stall = c.stall
  halted : d.halted = c.halted
  oamDmaStarted : d.oamDmaStarted = c.oamDmaStarted
  faultPc : d.faultPc = c.faultPc
  faultOpcode : d.faultOpcode = c.faultOpcode

/-- An update of the CPU record that keeps the hidden registers and PC. -/
structure Cpu.Plain (f : Cpu → Cpu) : Prop where
  hidden : ∀ c, Cpu.SameHidden c (f c)
  pc : ∀ c, (f c).pc = c.pc

theorem Cpu.plain_of {f : Cpu → Cpu}
    (h : ∀ c, f c = { c with a := (f c).a, x := (f c).x, y := (f c).y, sp := (f c).sp, p := (f c).p }) :
    Cpu.Plain f := by
  constructor
  · intro c
    rw [h c]
    constructor <;> rfl
  · intro c
    rw [h c]

theorem plain_loadA (m : Byte) : Cpu.Plain (loadA m) := Cpu.plain_of fun _ => rfl
theorem plain_loadX (m : Byte) : Cpu.Plain (loadX m) := Cpu.plain_of fun _ => rfl
theorem plain_loadY (m : Byte) : Cpu.Plain (loadY m) := Cpu.plain_of fun _ => rfl
theorem plain_addA (m : Byte) : Cpu.Plain (addA m) := Cpu.plain_of fun _ => rfl
theorem plain_subA (m : Byte) : Cpu.Plain (subA m) := Cpu.plain_of fun _ => rfl
theorem plain_andA (m : Byte) : Cpu.Plain (andA m) := Cpu.plain_of fun _ => rfl
theorem plain_orA (m : Byte) : Cpu.Plain (orA m) := Cpu.plain_of fun _ => rfl
theorem plain_eorA (m : Byte) : Cpu.Plain (eorA m) := Cpu.plain_of fun _ => rfl
theorem plain_bitA (m : Byte) : Cpu.Plain (bitA m) := Cpu.plain_of fun _ => rfl
theorem plain_cmpA (m : Byte) : Cpu.Plain (cmpA m) := Cpu.plain_of fun _ => rfl
theorem plain_cmpX (m : Byte) : Cpu.Plain (cmpX m) := Cpu.plain_of fun _ => rfl
theorem plain_cmpY (m : Byte) : Cpu.Plain (cmpY m) := Cpu.plain_of fun _ => rfl
theorem plain_transferAX : Cpu.Plain transferAX := Cpu.plain_of fun _ => rfl
theorem plain_transferAY : Cpu.Plain transferAY := Cpu.plain_of fun _ => rfl
theorem plain_transferXA : Cpu.Plain transferXA := Cpu.plain_of fun _ => rfl
theorem plain_transferYA : Cpu.Plain transferYA := Cpu.plain_of fun _ => rfl
theorem plain_transferSX : Cpu.Plain transferSX := Cpu.plain_of fun _ => rfl
theorem plain_transferXS : Cpu.Plain transferXS := Cpu.plain_of fun _ => rfl
theorem plain_incX : Cpu.Plain incX := Cpu.plain_of fun _ => rfl
theorem plain_incY : Cpu.Plain incY := Cpu.plain_of fun _ => rfl
theorem plain_decX : Cpu.Plain decX := Cpu.plain_of fun _ => rfl
theorem plain_decY : Cpu.Plain decY := Cpu.plain_of fun _ => rfl
theorem plain_id : Cpu.Plain id := Cpu.plain_of fun _ => rfl

/-! ### The shapes -/

/-- The shapes of the answers that instructions give in a state, each with the addresses it stores to. -/
inductive Shape (s : State) : List Word → Result → Prop where
  | implied (f : Cpu → Cpu) (hf : Cpu.Plain f) : Shape s [] (impliedClass 2 f s)
  | immediate (f : Byte → Cpu → Cpu) (v : Byte) (hf : ∀ m, Cpu.Plain (f m)) :
      Shape s [] (immediateClass 2 f v s)
  | accumulator (f : Byte → Flags → Modified) : Shape s [] (accumulatorClass 2 f s)
  | read (m : Mode) (len base : Nat) (hc : 2 ≤ base) (f : Byte → Cpu → Cpu) (hf : ∀ m, Cpu.Plain (f m)) :
      Shape s [] (readClass m len base f s)
  | write (m : Mode) (len cost : Nat) (hc : 2 ≤ cost) (reg : Cpu → Byte) :
      Shape s [(locate m (advancePc len s)).ea] (writeClass m len cost reg s)
  | rmw (m : Mode) (len cost : Nat) (hc : 2 ≤ cost) (f : Byte → Flags → Modified) :
      Shape s [(locate m (advancePc len s)).ea] (rmwClass m len cost f s)
  | branch (taken : Flags → Bool) (d : Int) : Shape s [] (branchClass taken d s)
  | pushByte (v : Byte) : Shape s [stackAddr s.cpu.sp] (.next (spend 3 (push v (advancePc 1 s))))
  | pla : Shape s [] (execPla s)
  | plp : Shape s [] (execPlp s)
  | jmpAbs (a : Word) : Shape s [] (execJmpAbs a s)
  | jmpInd (a : Word) : Shape s [] (execJmpInd a s)
  | jsr (a : Word) : Shape s [stackAddr s.cpu.sp, stackAddr (s.cpu.sp - 1)] (execJsr a s)
  | rts : Shape s [] (execRts s)
  | brk : Shape s [stackAddr s.cpu.sp, stackAddr (s.cpu.sp - 1), stackAddr (s.cpu.sp - 2)] (execBrk s)
  | rti : Shape s [] (execRti s)

/-- Every instruction has one of the shapes. -/
theorem exec_shape (i : Instr) (s : State) : Shape s (i.storeAddresses s) (exec i s) :=
  match i with
  | .ldaImm v => .immediate loadA v plain_loadA
  | .ldaZp z => .read (.zp z) 2 3 (by decide) loadA plain_loadA
  | .ldaZpx z => .read (.zpx z) 2 4 (by decide) loadA plain_loadA
  | .ldaAbs a => .read (.abs a) 3 4 (by decide) loadA plain_loadA
  | .ldaAbsx a => .read (.absx a) 3 4 (by decide) loadA plain_loadA
  | .ldaAbsy a => .read (.absy a) 3 4 (by decide) loadA plain_loadA
  | .ldaIzx z => .read (.izx z) 2 6 (by decide) loadA plain_loadA
  | .ldaIzy z => .read (.izy z) 2 5 (by decide) loadA plain_loadA
  | .ldxImm v => .immediate loadX v plain_loadX
  | .ldxZp z => .read (.zp z) 2 3 (by decide) loadX plain_loadX
  | .ldxZpy z => .read (.zpy z) 2 4 (by decide) loadX plain_loadX
  | .ldxAbs a => .read (.abs a) 3 4 (by decide) loadX plain_loadX
  | .ldxAbsy a => .read (.absy a) 3 4 (by decide) loadX plain_loadX
  | .ldyImm v => .immediate loadY v plain_loadY
  | .ldyZp z => .read (.zp z) 2 3 (by decide) loadY plain_loadY
  | .ldyZpx z => .read (.zpx z) 2 4 (by decide) loadY plain_loadY
  | .ldyAbs a => .read (.abs a) 3 4 (by decide) loadY plain_loadY
  | .ldyAbsx a => .read (.absx a) 3 4 (by decide) loadY plain_loadY
  | .staZp z => .write (.zp z) 2 3 (by decide) Cpu.a
  | .staZpx z => .write (.zpx z) 2 4 (by decide) Cpu.a
  | .staAbs a => .write (.abs a) 3 4 (by decide) Cpu.a
  | .staAbsx a => .write (.absx a) 3 5 (by decide) Cpu.a
  | .staAbsy a => .write (.absy a) 3 5 (by decide) Cpu.a
  | .staIzx z => .write (.izx z) 2 6 (by decide) Cpu.a
  | .staIzy z => .write (.izy z) 2 6 (by decide) Cpu.a
  | .stxZp z => .write (.zp z) 2 3 (by decide) Cpu.x
  | .stxZpy z => .write (.zpy z) 2 4 (by decide) Cpu.x
  | .stxAbs a => .write (.abs a) 3 4 (by decide) Cpu.x
  | .styZp z => .write (.zp z) 2 3 (by decide) Cpu.y
  | .styZpx z => .write (.zpx z) 2 4 (by decide) Cpu.y
  | .styAbs a => .write (.abs a) 3 4 (by decide) Cpu.y
  | .tax => .implied transferAX plain_transferAX
  | .tay => .implied transferAY plain_transferAY
  | .txa => .implied transferXA plain_transferXA
  | .tya => .implied transferYA plain_transferYA
  | .tsx => .implied transferSX plain_transferSX
  | .txs => .implied transferXS plain_transferXS
  | .pha => .pushByte _
  | .php => .pushByte _
  | .pla => .pla
  | .plp => .plp
  | .adcImm v => .immediate addA v plain_addA
  | .adcZp z => .read (.zp z) 2 3 (by decide) addA plain_addA
  | .adcZpx z => .read (.zpx z) 2 4 (by decide) addA plain_addA
  | .adcAbs a => .read (.abs a) 3 4 (by decide) addA plain_addA
  | .adcAbsx a => .read (.absx a) 3 4 (by decide) addA plain_addA
  | .adcAbsy a => .read (.absy a) 3 4 (by decide) addA plain_addA
  | .adcIzx z => .read (.izx z) 2 6 (by decide) addA plain_addA
  | .adcIzy z => .read (.izy z) 2 5 (by decide) addA plain_addA
  | .sbcImm v => .immediate subA v plain_subA
  | .sbcZp z => .read (.zp z) 2 3 (by decide) subA plain_subA
  | .sbcZpx z => .read (.zpx z) 2 4 (by decide) subA plain_subA
  | .sbcAbs a => .read (.abs a) 3 4 (by decide) subA plain_subA
  | .sbcAbsx a => .read (.absx a) 3 4 (by decide) subA plain_subA
  | .sbcAbsy a => .read (.absy a) 3 4 (by decide) subA plain_subA
  | .sbcIzx z => .read (.izx z) 2 6 (by decide) subA plain_subA
  | .sbcIzy z => .read (.izy z) 2 5 (by decide) subA plain_subA
  | .andImm v => .immediate andA v plain_andA
  | .andZp z => .read (.zp z) 2 3 (by decide) andA plain_andA
  | .andZpx z => .read (.zpx z) 2 4 (by decide) andA plain_andA
  | .andAbs a => .read (.abs a) 3 4 (by decide) andA plain_andA
  | .andAbsx a => .read (.absx a) 3 4 (by decide) andA plain_andA
  | .andAbsy a => .read (.absy a) 3 4 (by decide) andA plain_andA
  | .andIzx z => .read (.izx z) 2 6 (by decide) andA plain_andA
  | .andIzy z => .read (.izy z) 2 5 (by decide) andA plain_andA
  | .oraImm v => .immediate orA v plain_orA
  | .oraZp z => .read (.zp z) 2 3 (by decide) orA plain_orA
  | .oraZpx z => .read (.zpx z) 2 4 (by decide) orA plain_orA
  | .oraAbs a => .read (.abs a) 3 4 (by decide) orA plain_orA
  | .oraAbsx a => .read (.absx a) 3 4 (by decide) orA plain_orA
  | .oraAbsy a => .read (.absy a) 3 4 (by decide) orA plain_orA
  | .oraIzx z => .read (.izx z) 2 6 (by decide) orA plain_orA
  | .oraIzy z => .read (.izy z) 2 5 (by decide) orA plain_orA
  | .eorImm v => .immediate eorA v plain_eorA
  | .eorZp z => .read (.zp z) 2 3 (by decide) eorA plain_eorA
  | .eorZpx z => .read (.zpx z) 2 4 (by decide) eorA plain_eorA
  | .eorAbs a => .read (.abs a) 3 4 (by decide) eorA plain_eorA
  | .eorAbsx a => .read (.absx a) 3 4 (by decide) eorA plain_eorA
  | .eorAbsy a => .read (.absy a) 3 4 (by decide) eorA plain_eorA
  | .eorIzx z => .read (.izx z) 2 6 (by decide) eorA plain_eorA
  | .eorIzy z => .read (.izy z) 2 5 (by decide) eorA plain_eorA
  | .bitZp z => .read (.zp z) 2 3 (by decide) bitA plain_bitA
  | .bitAbs a => .read (.abs a) 3 4 (by decide) bitA plain_bitA
  | .cmpImm v => .immediate cmpA v plain_cmpA
  | .cmpZp z => .read (.zp z) 2 3 (by decide) cmpA plain_cmpA
  | .cmpZpx z => .read (.zpx z) 2 4 (by decide) cmpA plain_cmpA
  | .cmpAbs a => .read (.abs a) 3 4 (by decide) cmpA plain_cmpA
  | .cmpAbsx a => .read (.absx a) 3 4 (by decide) cmpA plain_cmpA
  | .cmpAbsy a => .read (.absy a) 3 4 (by decide) cmpA plain_cmpA
  | .cmpIzx z => .read (.izx z) 2 6 (by decide) cmpA plain_cmpA
  | .cmpIzy z => .read (.izy z) 2 5 (by decide) cmpA plain_cmpA
  | .cpxImm v => .immediate cmpX v plain_cmpX
  | .cpxZp z => .read (.zp z) 2 3 (by decide) cmpX plain_cmpX
  | .cpxAbs a => .read (.abs a) 3 4 (by decide) cmpX plain_cmpX
  | .cpyImm v => .immediate cmpY v plain_cmpY
  | .cpyZp z => .read (.zp z) 2 3 (by decide) cmpY plain_cmpY
  | .cpyAbs a => .read (.abs a) 3 4 (by decide) cmpY plain_cmpY
  | .incZp z => .rmw (.zp z) 2 5 (by decide) incModify
  | .incZpx z => .rmw (.zpx z) 2 6 (by decide) incModify
  | .incAbs a => .rmw (.abs a) 3 6 (by decide) incModify
  | .incAbsx a => .rmw (.absx a) 3 7 (by decide) incModify
  | .decZp z => .rmw (.zp z) 2 5 (by decide) decModify
  | .decZpx z => .rmw (.zpx z) 2 6 (by decide) decModify
  | .decAbs a => .rmw (.abs a) 3 6 (by decide) decModify
  | .decAbsx a => .rmw (.absx a) 3 7 (by decide) decModify
  | .inx => .implied incX plain_incX
  | .iny => .implied incY plain_incY
  | .dex => .implied decX plain_decX
  | .dey => .implied decY plain_decY
  | .aslAcc => .accumulator aslModify
  | .aslZp z => .rmw (.zp z) 2 5 (by decide) aslModify
  | .aslZpx z => .rmw (.zpx z) 2 6 (by decide) aslModify
  | .aslAbs a => .rmw (.abs a) 3 6 (by decide) aslModify
  | .aslAbsx a => .rmw (.absx a) 3 7 (by decide) aslModify
  | .lsrAcc => .accumulator lsrModify
  | .lsrZp z => .rmw (.zp z) 2 5 (by decide) lsrModify
  | .lsrZpx z => .rmw (.zpx z) 2 6 (by decide) lsrModify
  | .lsrAbs a => .rmw (.abs a) 3 6 (by decide) lsrModify
  | .lsrAbsx a => .rmw (.absx a) 3 7 (by decide) lsrModify
  | .rolAcc => .accumulator rolModify
  | .rolZp z => .rmw (.zp z) 2 5 (by decide) rolModify
  | .rolZpx z => .rmw (.zpx z) 2 6 (by decide) rolModify
  | .rolAbs a => .rmw (.abs a) 3 6 (by decide) rolModify
  | .rolAbsx a => .rmw (.absx a) 3 7 (by decide) rolModify
  | .rorAcc => .accumulator rorModify
  | .rorZp z => .rmw (.zp z) 2 5 (by decide) rorModify
  | .rorZpx z => .rmw (.zpx z) 2 6 (by decide) rorModify
  | .rorAbs a => .rmw (.abs a) 3 6 (by decide) rorModify
  | .rorAbsx a => .rmw (.absx a) 3 7 (by decide) rorModify
  | .jmpAbs a => .jmpAbs a
  | .jmpInd a => .jmpInd a
  | .jsr a => .jsr a
  | .rts => .rts
  | .bcc d => .branch (fun p => !p.c) d
  | .bcs d => .branch (fun p => p.c) d
  | .beq d => .branch (fun p => p.z) d
  | .bmi d => .branch (fun p => p.n) d
  | .bne d => .branch (fun p => !p.z) d
  | .bpl d => .branch (fun p => !p.n) d
  | .bvc d => .branch (fun p => !p.v) d
  | .bvs d => .branch (fun p => p.v) d
  | .clc => .implied _ (Cpu.plain_of fun _ => rfl)
  | .sec => .implied _ (Cpu.plain_of fun _ => rfl)
  | .cli => .implied _ (Cpu.plain_of fun _ => rfl)
  | .sei => .implied _ (Cpu.plain_of fun _ => rfl)
  | .cld => .implied _ (Cpu.plain_of fun _ => rfl)
  | .sed => .implied _ (Cpu.plain_of fun _ => rfl)
  | .clv => .implied _ (Cpu.plain_of fun _ => rfl)
  | .brk => .brk
  | .rti => .rti
  | .nop => .implied id plain_id

/-! ### Every instruction answers a next state -/

theorem Shape.next {s : State} {l : List Word} {r : Result} (h : Shape s l r) : ∃ t, r = .next t := by
  cases h with
  | branch taken d =>
    unfold branchClass
    split
    · exact ⟨_, rfl⟩
    · exact ⟨_, rfl⟩
  | implied | immediate | accumulator | read | write | rmw | pushByte | pla | plp | jmpAbs | jmpInd | jsr | rts | brk
  | rti => exact ⟨_, rfl⟩

/-- Every instruction costs at least two cycles. -/
theorem Shape.cycles {s t : State} {l : List Word} {r : Result} (h : Shape s l r) (ht : r = .next t) :
    s.cpu.cycles + 2 ≤ t.cpu.cycles := by
  cases h with
  | implied f hf =>
    cases ht
    have := (hf.hidden (advancePc 1 s).cpu).cycles
    simp only [spend_cpu_cycles, State.mapCpu_cpu, this]
    exact Nat.le_refl _
  | immediate f v hf =>
    cases ht
    have := ((hf v).hidden (advancePc 2 s).cpu).cycles
    simp only [spend_cpu_cycles, State.mapCpu_cpu, this]
    exact Nat.le_refl _
  | accumulator f =>
    cases ht
    exact Nat.le_refl _
  | read m len base hc f hf =>
    rw [readClass_eq] at ht
    cases ht
    have := fun b => ((hf b).hidden (s.cpu.setPc (s.cpu.pc + BitVec.ofNat 16 len))).cycles
    simp only [this, Cpu.setPc_cycles]
    omega
  | write m len cost hc reg =>
    rw [writeClass_eq] at ht
    cases ht
    simp only
    omega
  | rmw m len cost hc f =>
    rw [rmwClass_eq] at ht
    cases ht
    simp only
    omega
  | branch taken d =>
    rw [branchClass_eq] at ht
    cases ht
    simp only
    repeat' split
    all_goals omega
  | pushByte v =>
    cases ht
    simp only [spend_cpu_cycles, push_eq, advancePc_cpu, Cpu.setPc_cycles]
    omega
  | pla =>
    cases ht
    simp only [spend_cpu_cycles, State.mapCpu_cpu, pull_eq, loadA, Cpu.setA_cycles, Cpu.setP_cycles, advancePc_cpu,
      Cpu.setPc_cycles]
    omega
  | plp =>
    cases ht
    simp only [spend_cpu_cycles, pullP_eq, advancePc_cpu, Cpu.setPc_cycles]
    omega
  | jmpAbs a =>
    cases ht
    simp only [spend_cpu_cycles, State.mapCpu_cpu, Cpu.setPc_cycles, advancePc_cpu]
    omega
  | jmpInd a =>
    cases ht
    simp only [spend_cpu_cycles, State.mapCpu_cpu, Cpu.setPc_cycles, indirectTarget, busRead_cpu, advancePc_cpu]
    omega
  | jsr a =>
    cases ht
    simp only [spend_cpu_cycles, State.mapCpu_cpu, Cpu.setPc_cycles, pushWord_eq, advancePc_cpu]
    omega
  | rts =>
    cases ht
    simp only [spend_cpu_cycles, State.mapCpu_cpu, Cpu.setPc_cycles, pullWord_eq, advancePc_cpu]
    omega
  | brk =>
    cases ht
    rw [spend_cpu_cycles, enterException_eq (by decide) (by decide)]
    simp only [advancePc_cpu, Cpu.setPc_cycles]
    omega
  | rti =>
    cases ht
    simp only [spend_cpu_cycles, returnFromException_eq, advancePc_cpu, Cpu.setPc_cycles]
    omega

/-! ### What every instruction keeps -/

/-- A property of states that reads of the bus and its writes at the addresses `A` keep, and that does not look at A, X,
Y, SP, PC, P or the cycles. -/
structure BusInvariant (A : Word → Prop) (P : State → Prop) : Prop where
  cpu : ∀ s c, c.nmiPending = s.cpu.nmiPending → c.stall = s.cpu.stall → c.halted = s.cpu.halted →
    c.oamDmaStarted = s.cpu.oamDmaStarted → c.faultPc = s.cpu.faultPc → c.faultOpcode = s.cpu.faultOpcode →
    P s → P { s with cpu := c }
  read : ∀ a s, P s → P (busRead a s).2
  write : ∀ a d s, A a → P s → P (busWrite a d s)

namespace BusInvariant

variable {A : Word → Prop} {P : State → Prop}

theorem mapCpu (h : BusInvariant A P) {s : State} {f : Cpu → Cpu} (hf : Cpu.SameHidden s.cpu (f s.cpu)) (hs : P s) :
    P (s.mapCpu f) :=
  h.cpu s _ hf.nmiPending hf.stall hf.halted hf.oamDmaStarted hf.faultPc hf.faultOpcode hs

theorem advancePc (h : BusInvariant A P) (n : Nat) {s : State} (hs : P s) : P (advancePc n s) :=
  h.cpu s _ rfl rfl rfl rfl rfl rfl hs

theorem spend (h : BusInvariant A P) (n : Nat) {s : State} (hs : P s) : P (spend n s) :=
  h.cpu s _ rfl rfl rfl rfl rfl rfl hs

theorem setPc (h : BusInvariant A P) (v : Word) {s : State} (hs : P s) : P (s.mapCpu (Cpu.setPc v)) :=
  h.cpu s _ rfl rfl rfl rfl rfl rfl hs

theorem push (h : BusInvariant A P) (v : Byte) {s : State} (ha : A (stackAddr s.cpu.sp)) (hs : P s) : P (push v s) :=
  h.cpu _ _ rfl rfl rfl rfl rfl rfl (h.write _ v s ha hs)

theorem pull (h : BusInvariant A P) {s : State} (hs : P s) : P (pull s).2 :=
  h.read _ _ (h.cpu s _ rfl rfl rfl rfl rfl rfl hs)

theorem pushWord (h : BusInvariant A P) (w : Word) {s : State} (h0 : A (stackAddr s.cpu.sp))
    (h1 : A (stackAddr (s.cpu.sp - 1))) (hs : P s) : P (pushWord w s) :=
  h.push _ (by rw [push_eq]; exact h1) (h.push _ h0 hs)

theorem pullWord (h : BusInvariant A P) {s : State} (hs : P s) : P (pullWord s).2 :=
  h.pull (h.pull hs)

theorem pullP (h : BusInvariant A P) {s : State} (hs : P s) : P (pullP s) :=
  h.cpu _ _ rfl rfl rfl rfl rfl rfl (h.pull hs)

theorem enterException (h : BusInvariant A P) (vector : Word) (b : Bool) (ret : Word) {s : State}
    (h0 : A (stackAddr s.cpu.sp)) (h1 : A (stackAddr (s.cpu.sp - 1))) (h2 : A (stackAddr (s.cpu.sp - 2)))
    (hs : P s) : P (enterException vector b ret s) :=
  h.cpu _ _ rfl rfl rfl rfl rfl rfl
    (h.read _ _ (h.read _ _ (h.push _ (by rw [pushWord_eq]; exact h2) (h.pushWord _ h0 h1 hs))))

theorem indirectTarget (h : BusInvariant A P) (a : Word) {s : State} (hs : P s) : P (indirectTarget a s).2 :=
  h.read _ _ (h.read _ _ hs)

/-- What reads of the bus and writes at an instruction's stored addresses keep, the instruction keeps. -/
theorem shape (h : BusInvariant A P) {s t : State} {l : List Word} {r : Result} (hr : Shape s l r) (hl : ∀ a ∈ l, A a)
    (hs : P s) (ht : r = .next t) : P t := by
  cases hr with
  | implied f hf =>
    cases ht
    exact h.spend _ (h.mapCpu (hf.hidden _) (h.advancePc 1 hs))
  | immediate f v hf =>
    cases ht
    exact h.spend _ (h.mapCpu ((hf v).hidden _) (h.advancePc 2 hs))
  | accumulator f =>
    cases ht
    exact h.spend _ (h.cpu _ _ rfl rfl rfl rfl rfl rfl (h.advancePc 1 hs))
  | read m len base hc f hf =>
    cases ht
    exact h.spend _ (h.mapCpu ((hf _).hidden _) (h.read _ _ (by rw [locate_st]; exact h.advancePc len hs)))
  | write m len cost hc reg =>
    cases ht
    exact h.spend _ (h.write _ _ _ (hl _ (by simp)) (by rw [locate_st]; exact h.advancePc len hs))
  | rmw m len cost hc f =>
    cases ht
    exact h.spend _ (h.cpu _ _ rfl rfl rfl rfl rfl rfl
      (h.write _ _ _ (hl _ (by simp)) (h.read _ _ (by rw [locate_st]; exact h.advancePc len hs))))
  | branch taken d =>
    unfold branchClass at ht
    split at ht
    · cases ht
      exact h.spend _ (h.setPc _ hs)
    · cases ht
      exact h.spend _ (h.advancePc 2 hs)
  | pushByte v =>
    cases ht
    exact h.spend _ (h.push v (hl _ (by simp)) (h.advancePc 1 hs))
  | pla =>
    cases ht
    exact h.spend _ (h.mapCpu ((plain_loadA _).hidden _) (h.pull (h.advancePc 1 hs)))
  | plp =>
    cases ht
    exact h.spend _ (h.pullP (h.advancePc 1 hs))
  | jmpAbs a =>
    cases ht
    exact h.spend _ (h.setPc a (h.advancePc 3 hs))
  | jmpInd a =>
    cases ht
    exact h.spend _ (h.setPc _ (h.indirectTarget a (h.advancePc 3 hs)))
  | jsr a =>
    cases ht
    exact h.spend _ (h.setPc a (h.pushWord _ (hl _ (by simp)) (hl _ (by simp)) (h.advancePc 3 hs)))
  | rts =>
    cases ht
    exact h.spend _ (h.setPc _ (h.pullWord (h.advancePc 1 hs)))
  | brk =>
    cases ht
    exact h.spend _ (h.enterException _ _ _ (hl _ (by simp)) (hl _ (by simp)) (hl _ (by simp)) (h.advancePc 1 hs))
  | rti =>
    cases ht
    exact h.spend _ (h.setPc _ (h.pullWord (h.pullP (h.advancePc 1 hs))))

/-- What reads of the bus and writes at the stored addresses keep, `exec` keeps. -/
theorem exec (h : BusInvariant A P) {i : Instr} {s t : State} (hl : ∀ a ∈ i.storeAddresses s, A a) (hs : P s)
    (ht : exec i s = .next t) : P t :=
  h.shape (exec_shape i s) hl hs ht

end BusInvariant

end Sys2Proof.Machine
end

