-- ==== Sys2Proof/Laws/Ppu.lean ====
section
/-! SUPPORT. What one dot can change, and that register accesses, OAM DMA and dots keep the PPU's fields in range. -/

namespace Sys2Proof.Machine

/-! ### The bits of `t` after a register write (65_ppu R451, R456, R457) -/

theorem writeCtrl_t_bit (p : Ppu) (d : Byte) {k : Nat} (hk : k < 15) :
    (p.writeCtrl d).t.getLsbD k =
      if k = 10 then d.getLsbD 0 else if k = 11 then d.getLsbD 1 else p.t.getLsbD k := by
  simp only [Ppu.writeCtrl]
  rw [BitVec.getLsbD_append, BitVec.getLsbD_append]
  simp only [BitVec.getLsbD_extractLsb]
  repeat' split
  all_goals first
    | omega
    | (rw [decide_eq_true (by omega), Bool.true_and]; congr 1; omega)
    | rfl

theorem writeScroll_first {p : Ppu} (h : p.w = false) (d : Byte) :
    p.writeScroll d = { p with t := (p.writeScroll d).t, x := d.extractLsb 2 0, w := true } := by
  simp [Ppu.writeScroll, h]

theorem writeScroll_second {p : Ppu} (h : p.w = true) (d : Byte) :
    p.writeScroll d = { p with t := (p.writeScroll d).t, w := false } := by
  simp [Ppu.writeScroll, h]

theorem writeAddr_first {p : Ppu} (h : p.w = false) (d : Byte) :
    p.writeAddr d = { p with t := (p.writeAddr d).t, w := true } := by
  simp [Ppu.writeAddr, h]

theorem writeAddr_second {p : Ppu} (h : p.w = true) (d : Byte) :
    p.writeAddr d = { p with t := (p.writeAddr d).t, v := (p.writeAddr d).t, w := false } := by
  simp [Ppu.writeAddr, h]

theorem writeScroll_first_t_bit {p : Ppu} (h : p.w = false) (d : Byte) {k : Nat} (hk : k < 15) :
    (p.writeScroll d).t.getLsbD k = if k < 5 then d.getLsbD (k + 3) else p.t.getLsbD k := by
  simp only [Ppu.writeScroll, h, Bool.false_eq_true, if_false]
  rw [BitVec.getLsbD_append]
  simp only [BitVec.getLsbD_extractLsb]
  repeat' split
  all_goals first
    | omega
    | (rw [decide_eq_true (by omega), Bool.true_and]; congr 1; omega)
    | rfl

theorem writeScroll_second_t_bit {p : Ppu} (h : p.w = true) (d : Byte) {k : Nat} (hk : k < 15) :
    (p.writeScroll d).t.getLsbD k =
      if 12 ≤ k then d.getLsbD (k - 12) else if 5 ≤ k ∧ k < 10 then d.getLsbD (k - 2) else p.t.getLsbD k := by
  simp only [Ppu.writeScroll, h, if_true]
  rw [BitVec.getLsbD_append, BitVec.getLsbD_append, BitVec.getLsbD_append]
  simp only [BitVec.getLsbD_extractLsb]
  repeat' split
  all_goals first
    | omega
    | (rw [decide_eq_true (by omega), Bool.true_and]; congr 1; omega)
    | rfl

theorem bit1_false_getLsbD (n : Nat) : (bit1 false).getLsbD n = false := by simp [bit1]

theorem writeAddr_first_t_bit {p : Ppu} (h : p.w = false) (d : Byte) {k : Nat} (hk : k < 15) :
    (p.writeAddr d).t.getLsbD k =
      if k = 14 then false else if 8 ≤ k then d.getLsbD (k - 8) else p.t.getLsbD k := by
  unfold Ppu.writeAddr
  rw [h, if_neg (by decide)]
  dsimp only
  rw [BitVec.getLsbD_append, BitVec.getLsbD_append, bit1_false_getLsbD]
  simp only [BitVec.getLsbD_extractLsb]
  repeat' split
  all_goals first
    | omega
    | (rw [decide_eq_true (by omega), Bool.true_and]; congr 1; omega)
    | rfl

theorem writeAddr_second_t_bit {p : Ppu} (h : p.w = true) (d : Byte) {k : Nat} (hk : k < 15) :
    (p.writeAddr d).t.getLsbD k = if k < 8 then d.getLsbD k else p.t.getLsbD k := by
  simp only [Ppu.writeAddr, h, if_true]
  rw [BitVec.getLsbD_append]
  simp only [BitVec.getLsbD_extractLsb]
  repeat' split
  all_goals first
    | omega
    | (rw [decide_eq_true (by omega), Bool.true_and]; congr 1; omega)
    | rfl


/-! ### Ranges -/

theorem Ppu.inRange_iff (p : Ppu) :
    p.inRange = true ↔
      p.vram.sized 0x800 = true ∧ p.oam.sized 0x100 = true ∧ p.soamCount ≤ 8 ∧ p.scanline ≤ 261 ∧ p.dot ≤ 340 := by
  simp [Ppu.inRange, and_assoc]

/-- The range of the PPU depends on five fields. -/
theorem Ppu.inRange_congr {p q : Ppu} (h1 : q.vram = p.vram) (h2 : q.oam = p.oam) (h3 : q.soamCount = p.soamCount)
    (h4 : q.scanline = p.scanline) (h5 : q.dot = p.dot) : q.inRange = p.inRange := by
  simp [Ppu.inRange, h1, h2, h3, h4, h5]

theorem ntIndex_lt (m : Mirroring) (a : Nat) : ntIndex m a < 0x800 := by
  cases m <;> simp only [ntIndex] <;> omega

theorem palIndex_lt (a : Nat) : palIndex a < 0x20 := by
  unfold palIndex
  split <;> omega

/-! ### The PPU's address space (65_ppu R463-R465) -/

/-- A palette cell after a write of the palette. -/
theorem ppuWrite_color {a : BitVec 14} (h : 0x3F00 ≤ a.toNat) (b : Nat) (d : Byte) (s : State) :
    (ppuWrite a d s).ppu.color b = if palIndex b = palIndex a.toNat then d.extractLsb 5 0 else s.ppu.color b := by
  have ha := palIndex_lt a.toNat
  simp only [ppuWrite, Ppu.color, if_neg (show ¬a.toNat ≤ 0x1FFF by omega), if_neg (show ¬a.toNat ≤ 0x3EFF by omega),
    Vector.getElem?_setIfInBounds, eq_comm (a := palIndex a.toNat)]
  by_cases e : palIndex b = palIndex a.toNat
  · simp [e, ha]
  · simp [e]

theorem extractLsb_setWidth_and (d : Byte) : (d.extractLsb 5 0).setWidth 8 = d &&& 0x3F := by
  revert d
  decide +kernel

/-- What the PPU reads anywhere after a write: at the written cell what was stored, elsewhere what it read before. -/
theorem ppuRead_ppuWrite {s : State} (hc : s.cart.chr.wf) (hv : s.ppu.vram.wf) (a b : BitVec 14) (d : Byte) :
    ppuRead (ppuWrite a d s).cart (ppuWrite a d s).ppu b =
      if samePpuCell s.cart.mirroring a b ∧ (0x2000 ≤ a.toNat ∨ s.cart.chrIsRam = true) then
        (if a.toNat < 0x3F00 then d else d &&& 0x3F)
      else ppuRead s.cart s.ppu b := by
  have hb := b.isLt
  rcases show a.toNat < 0x2000 ∨ (0x2000 ≤ a.toNat ∧ a.toNat < 0x3F00) ∨ 0x3F00 ≤ a.toNat by omega with h | h | h
  · by_cases hr : s.cart.chrIsRam = true
    · simp only [ppuWrite, if_pos (show a.toNat ≤ 0x1FFF by omega), hr, if_true, ppuRead, Memory.read_write _ _ _ hc]
      by_cases e : a = b
      · subst e
        rw [if_pos (by omega), if_pos rfl, if_pos ⟨.inl ⟨h, rfl⟩, .inr trivial⟩, if_pos (by omega)]
      · have e' : b.toNat ≠ a.toNat := fun e' => e (BitVec.eq_of_toNat_eq e'.symm)
        have hne : ¬samePpuCell s.cart.mirroring a b := by
          rintro (h' | h' | h')
          · exact e h'.2
          · omega
          · omega
        simp only [if_neg e', hne, false_and, if_false]
    · have : ppuWrite a d s = s := by simp [ppuWrite, hr]; omega
      rw [this, if_neg (by rintro ⟨-, h' | h'⟩ <;> first | exact hr h' | omega)]
  · simp only [ppuWrite, if_neg (show ¬a.toNat ≤ 0x1FFF by omega), if_pos (show a.toNat ≤ 0x3EFF by omega), ppuRead,
      Memory.read_write _ _ _ hv]
    by_cases hb1 : b.toNat ≤ 0x1FFF
    · rw [if_pos hb1, if_neg, if_pos hb1]
      simp only [samePpuCell]
      omega
    · by_cases hb2 : b.toNat ≤ 0x3EFF
      · simp only [if_neg hb1, if_pos hb2, samePpuCell, eq_comm (a := ntIndex s.cart.mirroring a.toNat)]
        by_cases e : ntIndex s.cart.mirroring b.toNat = ntIndex s.cart.mirroring a.toNat
        · rw [if_pos e, if_pos ⟨.inr (.inl ⟨h, by omega, e⟩), .inl h.1⟩, if_pos h.2]
        · rw [if_neg e, if_neg]
          rintro ⟨h' | h' | h', -⟩
          · omega
          · exact e h'.2.2
          · omega
      · rw [if_neg hb1, if_neg hb2, if_neg, if_neg hb1, if_neg hb2]
        · rfl
        · simp only [samePpuCell]
          omega
  · have hcart : (ppuWrite a d s).cart = s.cart := by
      simp only [ppuWrite, if_neg (show ¬a.toNat ≤ 0x1FFF by omega), if_neg (show ¬a.toNat ≤ 0x3EFF by omega)]
    have hvram : (ppuWrite a d s).ppu.vram = s.ppu.vram := by
      simp only [ppuWrite, if_neg (show ¬a.toNat ≤ 0x1FFF by omega), if_neg (show ¬a.toNat ≤ 0x3EFF by omega)]
    simp only [ppuRead, hcart, hvram, ppuWrite_color h]
    by_cases hb1 : b.toNat ≤ 0x3EFF
    · rw [if_neg (show ¬(samePpuCell _ a b ∧ _) by simp only [samePpuCell]; omega)]
      by_cases hb2 : b.toNat ≤ 0x1FFF <;> simp [hb1, hb2]
    · simp only [if_neg (show ¬b.toNat ≤ 0x1FFF by omega), if_neg hb1, samePpuCell, eq_comm (a := palIndex a.toNat)]
      by_cases e : palIndex b.toNat = palIndex a.toNat
      · rw [if_pos e, if_pos ⟨.inr (.inr ⟨h, by omega, e⟩), .inl (by omega)⟩, if_neg (by omega),
          extractLsb_setWidth_and]
      · rw [if_neg e, if_neg]
        rintro ⟨h' | h' | h', -⟩
        · omega
        · omega
        · exact e h'.2.2

/-- A write changes at most the one memory its address selects. -/
theorem ppuWrite_eq (a : BitVec 14) (d : Byte) (s : State) :
    ppuWrite a d s =
      { s with
        ppu := { s.ppu with vram := (ppuWrite a d s).ppu.vram, palette := (ppuWrite a d s).ppu.palette }
        cart := { s.cart with chr := (ppuWrite a d s).cart.chr } } := by
  unfold ppuWrite
  repeat' split
  all_goals rfl

/-! ### Register accesses -/

theorem busRead_ppu_inRange (a : Word) (s : State) : (busRead a s).2.ppu.inRange = s.ppu.inRange := by
  obtain ⟨h1, h2, -, h3, h4, h5, -⟩ := busRead_ppu_kept a s
  exact Ppu.inRange_congr h1 h2 h3 h4 h5

theorem ppuWrite_inRange {a : BitVec 14} {d : Byte} {s : State} (h : s.ppu.inRange = true) :
    (ppuWrite a d s).ppu.inRange = true := by
  unfold ppuWrite
  split
  · split <;> exact h
  · split
    · rw [Ppu.inRange_iff] at *
      exact ⟨Memory.sized_write d (ntIndex_lt _ _) h.1, h.2⟩
    · exact h

theorem writeOamData_inRange {d : Byte} {p : Ppu} (h : p.inRange = true) : (p.writeOamData d).inRange = true := by
  rw [Ppu.inRange_iff] at *
  exact ⟨h.1, Memory.sized_write d p.oamaddr.isLt h.2.1, h.2.2⟩

theorem writeScroll_inRange {d : Byte} {p : Ppu} (h : p.inRange = true) : (p.writeScroll d).inRange = true := by
  unfold Ppu.writeScroll
  split <;> exact h

theorem writeAddr_inRange {d : Byte} {p : Ppu} (h : p.inRange = true) : (p.writeAddr d).inRange = true := by
  unfold Ppu.writeAddr
  split <;> exact h

theorem ppuRegWrite_inRange {r : PpuReg} {d : Byte} {s : State} (h : s.ppu.inRange = true) :
    (ppuRegWrite r d s).ppu.inRange = true := by
  cases r with
  | ppuctrl | ppumask | ppustatus | oamaddr => exact h
  | oamdata => exact writeOamData_inRange h
  | ppuscroll => exact writeScroll_inRange h
  | ppuaddr => exact writeAddr_inRange h
  | ppudata => exact ppuWrite_inRange (a := s.ppu.dataAddr) (d := d) h

theorem oamDmaByte_inRange {d : Byte} {s : State} (i : Nat) (h : s.ppu.inRange = true) :
    (oamDmaByte d s i).ppu.inRange = true := by
  have hr : (busRead (wordOf (BitVec.ofNat 8 i) d) s).2.ppu.inRange = true := by rw [busRead_ppu_inRange, h]
  rw [Ppu.inRange_iff] at *
  exact ⟨hr.1, Memory.sized_write _ (BitVec.isLt _) hr.2.1, hr.2.2⟩

theorem oamDma_inRange {d : Byte} {s : State} (h : s.ppu.inRange = true) : (oamDma d s).ppu.inRange = true :=
  foldl_invariant (oamDmaByte d) (fun s => s.ppu.inRange = true) (fun _ i h => oamDmaByte_inRange i h) _ s h

theorem busWrite_ppu_inRange {a : Word} {d : Byte} {s : State} (h : s.ppu.inRange = true) :
    (busWrite a d s).ppu.inRange = true := by
  cases e : busTarget a with
  | ppu r => simpa only [busWrite, e] using ppuRegWrite_inRange h
  | oamDma =>
    rw [busWrite_of_oamDma e]
    exact oamDma_inRange h
  | ram o | apu o | apuStatus | port1 | port2 | unmapped | prg o =>
    simpa only [busWrite, e, State.mapApu_ppu, State.mapPads_ppu] using h

/-! ### Everything a stage of a dot can write -/

theorem preRenderStage_eq (p : Ppu) :
    ∃ b s o, p.preRenderStage = { p with vblank := b, sprite0 := s, overflow := o } := by
  unfold Ppu.preRenderStage
  split
  · exact ⟨_, _, _, rfl⟩
  · exact ⟨p.vblank, p.sprite0, p.overflow, rfl⟩

theorem vblankStage_eq (p : Ppu) : ∃ b, p.vblankStage = { p with vblank := b } := by
  unfold Ppu.vblankStage
  split
  · exact ⟨_, rfl⟩
  · exact ⟨p.vblank, rfl⟩

theorem shiftStage_eq (p : Ppu) :
    ∃ a b c d, p.shiftStage = { p with bgLo := a, bgHi := b, atLo := c, atHi := d } := by
  unfold Ppu.shiftStage
  split
  · exact ⟨_, _, _, _, rfl⟩
  · exact ⟨p.bgLo, p.bgHi, p.atLo, p.atHi, rfl⟩

theorem reloadStage_eq (p : Ppu) :
    ∃ a b c d, p.reloadStage = { p with bgLo := a, bgHi := b, atLo := c, atHi := d } := by
  unfold Ppu.reloadStage
  split
  · exact ⟨_, _, _, _, rfl⟩
  · exact ⟨p.bgLo, p.bgHi, p.atLo, p.atHi, rfl⟩

theorem fetchStage_eq (c : Cartridge) (p : Ppu) :
    ∃ v n a l h, p.fetchStage c =
      { p with v := v, ntLatch := n, atLatch := a, ptLoLatch := l, ptHiLatch := h } := by
  unfold Ppu.fetchStage
  split
  · split
    · exact ⟨p.v, _, p.atLatch, p.ptLoLatch, p.ptHiLatch, rfl⟩
    · exact ⟨p.v, p.ntLatch, _, p.ptLoLatch, p.ptHiLatch, rfl⟩
    · exact ⟨p.v, p.ntLatch, p.atLatch, _, p.ptHiLatch, rfl⟩
    · exact ⟨_, p.ntLatch, p.atLatch, p.ptLoLatch, _, rfl⟩
    · exact ⟨p.v, p.ntLatch, p.atLatch, p.ptLoLatch, p.ptHiLatch, rfl⟩
  · exact ⟨p.v, p.ntLatch, p.atLatch, p.ptLoLatch, p.ptHiLatch, rfl⟩

theorem scrollStage_eq (p : Ppu) : ∃ v, p.scrollStage = { p with v := v } := by
  unfold Ppu.scrollStage
  repeat' split
  · exact ⟨_, rfl⟩
  · exact ⟨_, rfl⟩
  · exact ⟨_, rfl⟩
  · exact ⟨p.v, rfl⟩

/-- The background pipeline writes `v`, its latches and its shift registers. -/
theorem backgroundStage_eq (c : Cartridge) (p : Ppu) :
    ∃ v n a l h b1 b2 b3 b4, p.backgroundStage c =
      { p with
        v := v, ntLatch := n, atLatch := a, ptLoLatch := l, ptHiLatch := h, bgLo := b1, bgHi := b2, atLo := b3,
        atHi := b4 } := by
  unfold Ppu.backgroundStage
  split
  · obtain ⟨_, _, _, _, e1⟩ := shiftStage_eq p
    obtain ⟨_, _, _, _, e2⟩ := reloadStage_eq p.shiftStage
    obtain ⟨_, _, _, _, _, e3⟩ := fetchStage_eq c p.shiftStage.reloadStage
    obtain ⟨_, e4⟩ := scrollStage_eq (p.shiftStage.reloadStage.fetchStage c)
    rw [e4, e3, e2, e1]
    exact ⟨_, _, _, _, _, _, _, _, _, rfl⟩
  · exact ⟨p.v, p.ntLatch, p.atLatch, p.ptLoLatch, p.ptHiLatch, p.bgLo, p.bgHi, p.atLo, p.atHi, rfl⟩

theorem scanSprites_eq (s : Nat) : ∀ (l : List Nat) (p : Ppu),
    ∃ m n z o, scanSprites s l p = { p with soam := m, soamCount := n, sprite0Next := z, overflow := o }
  | [], p => ⟨p.soam, p.soamCount, p.sprite0Next, p.overflow, rfl⟩
  | i :: rest, p => by
    unfold scanSprites
    split
    · split
      · obtain ⟨_, _, _, _, e⟩ := scanSprites_eq s rest (p.addSprite i)
        rw [e]
        exact ⟨_, _, _, _, rfl⟩
      · exact ⟨p.soam, p.soamCount, p.sprite0Next, _, rfl⟩
    · exact scanSprites_eq s rest p

/-- Evaluation writes secondary OAM, its count and mark, and the overflow flag. -/
theorem evaluateStage_eq (p : Ppu) :
    ∃ m n z o, p.evaluateStage = { p with soam := m, soamCount := n, sprite0Next := z, overflow := o } := by
  unfold Ppu.evaluateStage
  split
  · obtain ⟨_, _, _, _, e⟩ := scanSprites_eq p.scanline (List.range 64) p.clearSoam
    rw [e]
    exact ⟨_, _, _, _, rfl⟩
  · exact ⟨p.soam, p.soamCount, p.sprite0Next, p.overflow, rfl⟩

theorem loadStage_eq (c : Cartridge) (p : Ppu) :
    ∃ u z, p.loadStage c = { p with units := u, sprite0Line := z } := by
  unfold Ppu.loadStage
  split
  · exact ⟨_, _, rfl⟩
  · exact ⟨p.units, p.sprite0Line, rfl⟩

theorem pixelStage_eq (p : Ppu) : ∃ z f, p.pixelStage = { p with sprite0 := z, framebuffer := f } := by
  unfold Ppu.pixelStage
  split
  · exact ⟨_, _, rfl⟩
  · exact ⟨p.sprite0, p.framebuffer, rfl⟩

theorem advance_eq (p : Ppu) :
    ∃ d s f k, p.advance = { p with dot := d, scanline := s, frameOut := f, frameComplete := k } := by
  unfold Ppu.advance
  repeat' split
  · exact ⟨_, _, _, _, rfl⟩
  · exact ⟨_, _, p.frameOut, p.frameComplete, rfl⟩
  · exact ⟨_, p.scanline, p.frameOut, p.frameComplete, rfl⟩

/-! ### What sprite evaluation finds (65_ppu R483) -/

theorem addSprite_new (i : Nat) {p : Ppu} (h : p.soamCount < 8) {j : Nat} (hj : j < 4) :
    (p.addSprite i).soam[4 * p.soamCount + j]? = some (p.oamByte i j) := by
  have : j = 0 ∨ j = 1 ∨ j = 2 ∨ j = 3 := by omega
  rcases this with rfl | rfl | rfl | rfl <;> simp [Ppu.addSprite, Vector.getElem?_setIfInBounds] <;> omega

theorem addSprite_old (i : Nat) (p : Ppu) {m : Nat} (hm : m < 4 * p.soamCount) :
    (p.addSprite i).soam[m]? = p.soam[m]? := by
  simp only [Ppu.addSprite, Vector.getElem?_setIfInBounds]
  rw [if_neg (by omega), if_neg (by omega), if_neg (by omega), if_neg (by omega)]

/-- A scan appends the sprites in range, in order, until secondary OAM holds eight; one more sets the overflow flag. -/
theorem scanSprites_spec (s : Nat) : ∀ (l : List Nat) (p : Ppu), p.soamCount ≤ 8 →
    let found := l.filter (p.spriteInRange s)
    let q := scanSprites s l p
    q.soamCount = min 8 (p.soamCount + found.length) ∧
      (q.overflow = true ↔ p.overflow = true ∨ 8 < p.soamCount + found.length) ∧
      (q.sprite0Next = true ↔ p.sprite0Next = true ∨ 0 ∈ found.take (8 - p.soamCount)) ∧
      (∀ m, m < 4 * p.soamCount → q.soam[m]? = p.soam[m]?) ∧
      ∀ k i j, p.soamCount + k < 8 → found[k]? = some i → j < 4 →
        q.soam[4 * (p.soamCount + k) + j]? = some (p.oamByte i j)
  | [], p, h => by
    simp only [scanSprites, List.filter_nil, List.length_nil, List.take_nil, List.not_mem_nil, or_false]
    refine ⟨by omega, ⟨.inl, ?_⟩, trivial, fun _ _ => trivial, fun k i j _ hf => ?_⟩
    · rintro (h' | h')
      · exact h'
      · omega
    · simp at hf
  | i :: l, p, h => by
    by_cases hr : p.spriteInRange s i = true
    · by_cases hc : p.soamCount < 8
      · have ih := scanSprites_spec s l (p.addSprite i) (show p.soamCount + 1 ≤ 8 by omega)
        have e1 : (p.addSprite i).soamCount = p.soamCount + 1 := rfl
        have e2 : (p.addSprite i).spriteInRange s = p.spriteInRange s := rfl
        have e3 : (p.addSprite i).overflow = p.overflow := rfl
        have e4 : (p.addSprite i).sprite0Next = (p.sprite0Next || decide (i = 0)) := rfl
        have e5 : (p.addSprite i).oamByte = p.oamByte := rfl
        simp only [e1, e2, e3, e4, e5] at ih
        simp only [scanSprites, hr, if_true, hc, List.filter_cons]
        refine ⟨?_, ?_, ?_, ?_, ?_⟩
        · rw [ih.1]
          simp only [List.length_cons]
          omega
        · rw [ih.2.1]
          simp only [List.length_cons]
          constructor <;> rintro (h | h) <;> first | exact .inl h | (right; omega)
        · rw [ih.2.2.1]
          obtain ⟨m, hm⟩ : ∃ m, 8 - p.soamCount = m + 1 := ⟨7 - p.soamCount, by omega⟩
          rw [hm, List.take_succ_cons, show 8 - (p.soamCount + 1) = m by omega]
          simp only [List.mem_cons, Bool.or_eq_true, decide_eq_true_eq]
          constructor
          · rintro ((h | h) | h)
            · exact .inl h
            · exact .inr (.inl h.symm)
            · exact .inr (.inr h)
          · rintro (h | h | h)
            · exact .inl (.inl h)
            · exact .inl (.inr h.symm)
            · exact .inr h
        · intro m hm
          rw [ih.2.2.2.1 m (by omega), addSprite_old i p hm]
        · intro k i' j hk hf hj
          cases k with
          | zero =>
            simp only [List.getElem?_cons_zero, Option.some.injEq] at hf
            subst hf
            rw [Nat.add_zero, ih.2.2.2.1 _ (by omega), addSprite_new i hc hj]
          | succ k =>
            simp only [List.getElem?_cons_succ] at hf
            rw [← ih.2.2.2.2 k i' j (by omega) hf hj]
            congr 1
            omega
      · simp only [scanSprites, hr, if_true, hc, if_false, List.filter_cons]
        have : p.soamCount = 8 := by omega
        exact ⟨by simp; omega, by simp; omega, by simp [this], fun m hm => trivial, fun k i j hk => by omega⟩
    · have ih := scanSprites_spec s l p h
      simp only [scanSprites, hr, if_false, List.filter_cons, Bool.false_eq_true]
      exact ih

/-- A scan leaves the bytes past the sprites it found. -/
theorem scanSprites_rest (s : Nat) : ∀ (l : List Nat) (p : Ppu),
    p.soamCount ≤ (scanSprites s l p).soamCount ∧
      ∀ m, 4 * (scanSprites s l p).soamCount ≤ m → (scanSprites s l p).soam[m]? = p.soam[m]?
  | [], p => ⟨Nat.le_refl _, fun _ _ => rfl⟩
  | i :: l, p => by
    unfold scanSprites
    split
    · split
      · obtain ⟨h1, h2⟩ := scanSprites_rest s l (p.addSprite i)
        have e : (p.addSprite i).soamCount = p.soamCount + 1 := rfl
        refine ⟨by omega, fun m hm => (h2 m hm).trans ?_⟩
        simp only [Ppu.addSprite, Vector.getElem?_setIfInBounds]
        rw [if_neg (by omega), if_neg (by omega), if_neg (by omega), if_neg (by omega)]
      · exact ⟨Nat.le_refl _, fun _ _ => rfl⟩
    · exact scanSprites_rest s l p

/-! ### What an OAM DMA of a memory page copies (65_ppu R470) -/

theorem isMemory_page {d : Byte} (hd : d.toNat < 0x20 ∨ 0x80 ≤ d.toNat) (k : Byte) : isMemory (wordOf k d) := by
  have := k.isLt
  simp only [isMemory, wordOf, BitVec.toNat_append]
  rw [← Nat.shiftLeft_add_eq_or_of_lt this, Nat.shiftLeft_eq]
  omega

/-- A byte of a memory page copied: no side effect, one byte of OAM. -/
theorem oamDmaByte_memory {d : Byte} (hd : d.toNat < 0x20 ∨ 0x80 ≤ d.toNat) (s : State) (i : Nat) :
    oamDmaByte d s i =
      { s with ppu := { s.ppu with
          oam := s.ppu.oam.write (s.ppu.oamaddr + BitVec.ofNat 8 i).toNat
            (busRead (wordOf (BitVec.ofNat 8 i) d) s).1 } } := by
  simp only [oamDmaByte]
  rw [busRead_memory (isMemory_page hd _)]
  rfl

/-- The first `n` bytes of a memory page copied to OAM, from `oamaddr` on and wrapping; nothing else changes. -/
theorem oamDma_memory {d : Byte} (hd : d.toNat < 0x20 ∨ 0x80 ≤ d.toNat) {s : State} (hw : s.ppu.oam.wf) :
    ∀ n, n ≤ 256 → ∃ m,
      (List.range n).foldl (oamDmaByte d) s = { s with ppu := { s.ppu with oam := m } } ∧ m.wf ∧
        ∀ k : Byte, k.toNat < n → m.read (s.ppu.oamaddr + k).toNat = (busRead (wordOf k d) s).1
  | 0, _ => ⟨s.ppu.oam, rfl, hw, fun k hk => by omega⟩
  | n + 1, hn => by
    obtain ⟨m, e, hm, hr⟩ := oamDma_memory hd hw n (by omega)
    rw [List.range_succ, List.foldl_append, e]
    simp only [List.foldl_cons, List.foldl_nil]
    rw [oamDmaByte_memory hd]
    refine ⟨_, rfl, Memory.wf_write _ _ hm, fun k hk => ?_⟩
    rw [Memory.read_write _ _ _ hm]
    by_cases hkn : k.toNat = n
    · have : k = BitVec.ofNat 8 n := by rw [← hkn]; simp
      rw [← this, if_pos rfl]
      exact busRead_memory_congr (isMemory_page hd k) rfl rfl rfl
    · rw [if_neg, hr k (by omega)]
      intro h
      apply hkn
      have h := BitVec.eq_of_toNat_eq h
      have : k = BitVec.ofNat 8 n := by bv_omega
      rw [this, BitVec.toNat_ofNat]
      omega

/-! ### The stages of a dot -/

/-- The fields no dot's work changes. -/
structure Ppu.WorkKeeps (p q : Ppu) : Prop where
  ctrl : q.ctrl = p.ctrl
  mask : q.mask = p.mask
  oamaddr : q.oamaddr = p.oamaddr
  t : q.t = p.t
  x : q.x = p.x
  w : q.w = p.w
  readBuffer : q.readBuffer = p.readBuffer
  vram : q.vram = p.vram
  palette : q.palette = p.palette
  oam : q.oam = p.oam
  scanline : q.scanline = p.scanline
  dot : q.dot = p.dot
  frameOut : q.frameOut = p.frameOut
  frameComplete : q.frameComplete = p.frameComplete

theorem Ppu.WorkKeeps.refl (p : Ppu) : Ppu.WorkKeeps p p := by constructor <;> rfl

theorem Ppu.WorkKeeps.trans {p q r : Ppu} (h1 : Ppu.WorkKeeps p q) (h2 : Ppu.WorkKeeps q r) : Ppu.WorkKeeps p r := by
  constructor
  · rw [h2.ctrl, h1.ctrl]
  · rw [h2.mask, h1.mask]
  · rw [h2.oamaddr, h1.oamaddr]
  · rw [h2.t, h1.t]
  · rw [h2.x, h1.x]
  · rw [h2.w, h1.w]
  · rw [h2.readBuffer, h1.readBuffer]
  · rw [h2.vram, h1.vram]
  · rw [h2.palette, h1.palette]
  · rw [h2.oam, h1.oam]
  · rw [h2.scanline, h1.scanline]
  · rw [h2.dot, h1.dot]
  · rw [h2.frameOut, h1.frameOut]
  · rw [h2.frameComplete, h1.frameComplete]

theorem preRenderStage_keeps (p : Ppu) : Ppu.WorkKeeps p p.preRenderStage := by
  unfold Ppu.preRenderStage
  split <;> constructor <;> rfl

theorem vblankStage_keeps (p : Ppu) : Ppu.WorkKeeps p p.vblankStage := by
  unfold Ppu.vblankStage
  split <;> constructor <;> rfl

theorem shiftStage_keeps (p : Ppu) : Ppu.WorkKeeps p p.shiftStage := by
  unfold Ppu.shiftStage
  split <;> constructor <;> rfl

theorem reloadStage_keeps (p : Ppu) : Ppu.WorkKeeps p p.reloadStage := by
  unfold Ppu.reloadStage
  split <;> constructor <;> rfl

theorem fetchStage_keeps (c : Cartridge) (p : Ppu) : Ppu.WorkKeeps p (p.fetchStage c) := by
  unfold Ppu.fetchStage
  split
  · split <;> constructor <;> rfl
  · exact .refl p

theorem scrollStage_keeps (p : Ppu) : Ppu.WorkKeeps p p.scrollStage := by
  unfold Ppu.scrollStage
  repeat' split
  all_goals constructor <;> rfl

theorem backgroundStage_keeps (c : Cartridge) (p : Ppu) : Ppu.WorkKeeps p (p.backgroundStage c) := by
  unfold Ppu.backgroundStage
  split
  · exact (((shiftStage_keeps p).trans (reloadStage_keeps _)).trans (fetchStage_keeps c _)).trans (scrollStage_keeps _)
  · exact .refl p

theorem scanSprites_keeps (s : Nat) : ∀ (l : List Nat) (p : Ppu), Ppu.WorkKeeps p (scanSprites s l p)
  | [], p => .refl p
  | i :: rest, p => by
    unfold scanSprites
    split
    · split
      · exact Ppu.WorkKeeps.trans (q := p.addSprite i) (by constructor <;> rfl) (scanSprites_keeps s rest _)
      · constructor <;> rfl
    · exact scanSprites_keeps s rest p

/-- Evaluation finds at most eight sprites (65_ppu R483). -/
theorem scanSprites_count (s : Nat) : ∀ (l : List Nat) (p : Ppu), p.soamCount ≤ 8 → (scanSprites s l p).soamCount ≤ 8
  | [], _, h => h
  | i :: rest, p, h => by
    unfold scanSprites
    split
    · split
      · next hc => exact scanSprites_count s rest _ (show p.soamCount + 1 ≤ 8 by omega)
      · exact h
    · exact scanSprites_count s rest p h

theorem evaluateStage_keeps (p : Ppu) : Ppu.WorkKeeps p p.evaluateStage := by
  unfold Ppu.evaluateStage
  split
  · exact Ppu.WorkKeeps.trans (q := p.clearSoam) (by constructor <;> rfl) (scanSprites_keeps _ _ _)
  · exact .refl p

theorem loadStage_keeps (c : Cartridge) (p : Ppu) : Ppu.WorkKeeps p (p.loadStage c) := by
  unfold Ppu.loadStage
  split <;> constructor <;> rfl

theorem pixelStage_keeps (p : Ppu) : Ppu.WorkKeeps p p.pixelStage := by
  unfold Ppu.pixelStage
  split <;> constructor <;> rfl

/-- Everything the work of a dot keeps. -/
theorem dotWork_keeps (c : Cartridge) (p : Ppu) : Ppu.WorkKeeps p (p.dotWork c) :=
  (((((preRenderStage_keeps p).trans (vblankStage_keeps _)).trans (backgroundStage_keeps c _)).trans
    (evaluateStage_keeps _)).trans (loadStage_keeps c _)).trans (pixelStage_keeps _)

/-! ### Secondary OAM through a dot -/

theorem shiftStage_soamCount (p : Ppu) : p.shiftStage.soamCount = p.soamCount := by
  unfold Ppu.shiftStage
  split <;> rfl

theorem reloadStage_soamCount (p : Ppu) : p.reloadStage.soamCount = p.soamCount := by
  unfold Ppu.reloadStage
  split <;> rfl

theorem fetchStage_soamCount (c : Cartridge) (p : Ppu) : (p.fetchStage c).soamCount = p.soamCount := by
  unfold Ppu.fetchStage
  split
  · split <;> rfl
  · rfl

theorem scrollStage_soamCount (p : Ppu) : p.scrollStage.soamCount = p.soamCount := by
  unfold Ppu.scrollStage
  repeat' split
  all_goals rfl

theorem beforeEvaluation_soamCount (c : Cartridge) (p : Ppu) :
    (p.preRenderStage.vblankStage.backgroundStage c).soamCount = p.soamCount := by
  have h1 : p.preRenderStage.vblankStage.soamCount = p.soamCount := by
    unfold Ppu.vblankStage Ppu.preRenderStage
    split <;> split <;> rfl
  unfold Ppu.backgroundStage
  split
  · rw [scrollStage_soamCount, fetchStage_soamCount, reloadStage_soamCount, shiftStage_soamCount, h1]
  · exact h1

theorem evaluateStage_soamCount {p : Ppu} (h : p.soamCount ≤ 8) : p.evaluateStage.soamCount ≤ 8 := by
  unfold Ppu.evaluateStage
  split
  · exact scanSprites_count _ _ _ (by simp [Ppu.clearSoam])
  · exact h

theorem dotWork_soamCount (c : Cartridge) {p : Ppu} (h : p.soamCount ≤ 8) : (p.dotWork c).soamCount ≤ 8 := by
  have h1 : ∀ q : Ppu, (q.loadStage c).pixelStage.soamCount = q.soamCount := fun q => by
    unfold Ppu.pixelStage Ppu.loadStage
    split <;> split <;> rfl
  rw [Ppu.dotWork, h1]
  exact evaluateStage_soamCount (by rw [beforeEvaluation_soamCount]; exact h)

/-! ### The dot -/

/-- The position after a dot, and the end of a frame (65_ppu R480, R488). -/
theorem advance_position {p : Ppu} (h : p.inFrame) :
    p.advance.inFrame ∧ p.advance.position = (p.position + 1) % dotsPerFrame ∧
      p.advance.frameComplete = (p.frameComplete || decide (p.position + 1 = dotsPerFrame)) := by
  obtain ⟨h1, h2⟩ := h
  unfold Ppu.advance
  split
  · split
    · have hp : p.position + 1 = dotsPerFrame := by
        unfold Ppu.position dotsPerFrame
        omega
      exact ⟨by simp [Ppu.inFrame], by rw [hp, Nat.mod_self]; simp [Ppu.position], by simp [hp]⟩
    · refine ⟨by simp only [Ppu.inFrame]; omega, ?_, ?_⟩
      · simp only [Ppu.position, dotsPerFrame]
        omega
      · have hp : p.position + 1 ≠ dotsPerFrame := by
          unfold Ppu.position dotsPerFrame
          omega
        simp [hp]
  · refine ⟨by simp only [Ppu.inFrame]; omega, ?_, ?_⟩
    · simp only [Ppu.position, dotsPerFrame]
      omega
    · have hp : p.position + 1 ≠ dotsPerFrame := by
        unfold Ppu.position dotsPerFrame
        omega
      simp [hp]

theorem advance_vram (p : Ppu) : p.advance.vram = p.vram ∧ p.advance.oam = p.oam ∧ p.advance.soamCount = p.soamCount := by
  unfold Ppu.advance
  repeat' split
  all_goals exact ⟨rfl, rfl, rfl⟩

theorem dotWork_inFrame {c : Cartridge} {p : Ppu} (h : p.inFrame) : (p.dotWork c).inFrame := by
  have k := dotWork_keeps c p
  exact ⟨k.scanline ▸ h.1, k.dot ▸ h.2⟩

theorem dotWork_position (c : Cartridge) (p : Ppu) : (p.dotWork c).position = p.position := by
  have k := dotWork_keeps c p
  simp [Ppu.position, k.scanline, k.dot]

theorem Ppu.inRange_inFrame {p : Ppu} (h : p.inRange = true) : p.inFrame :=
  ((Ppu.inRange_iff p).mp h).2.2.2

theorem advance_inRange {p : Ppu} (h : p.inRange = true) : p.advance.inRange = true := by
  have hf := (advance_position (Ppu.inRange_inFrame h)).1
  obtain ⟨h1, h2, h3⟩ := advance_vram p
  rw [Ppu.inRange_iff] at *
  rw [h1, h2, h3]
  exact ⟨h.1, h.2.1, h.2.2.1, hf⟩

theorem dotWork_inRange (c : Cartridge) {p : Ppu} (h : p.inRange = true) : (p.dotWork c).inRange = true := by
  have k := dotWork_keeps c p
  rw [Ppu.inRange_iff] at *
  rw [k.vram, k.oam, k.scanline, k.dot]
  exact ⟨h.1, h.2.1, dotWork_soamCount c h.2.2.1, h.2.2.2⟩

/-- A dot changes the PPU and the NMI latch, nothing else. -/
theorem stepDot_eq (s : State) :
    stepDot s =
      { s with
        ppu := (s.ppu.dotWork s.cart).advance
        cpu := { s.cpu with nmiPending := s.cpu.nmiPending || (s.ppu.atVblankStart && s.ppu.nmiEnable) } } := by
  simp only [stepDot, State.mapPpu, State.mapCpu]

theorem stepDot_ppu (s : State) : (stepDot s).ppu = (s.ppu.dotWork s.cart).advance := by
  rw [stepDot_eq]

theorem stepDot_inRange {s : State} (h : s.ppu.inRange = true) : (stepDot s).ppu.inRange = true := by
  rw [stepDot_ppu]
  exact advance_inRange (dotWork_inRange s.cart h)

/-- The position moves on by one dot, and the frame ends at the wrap. -/
theorem stepDot_position {s : State} (h : s.ppu.inFrame) :
    (stepDot s).ppu.inFrame ∧ (stepDot s).ppu.position = (s.ppu.position + 1) % dotsPerFrame ∧
      (stepDot s).ppu.frameComplete = (s.ppu.frameComplete || decide (s.ppu.position + 1 = dotsPerFrame)) := by
  have k := advance_position (dotWork_inFrame (c := s.cart) h)
  rw [dotWork_position, (dotWork_keeps s.cart s.ppu).frameComplete] at k
  rw [stepDot_ppu]
  exact k

end Sys2Proof.Machine
end

