-- ==== Sys2Proof/Laws/Apu.lean ====
section
/-! SUPPORT. Register accesses, the frame sequencer, the channels, the DMC reader and the sample stream keep the APU's
fields in range; what one APU cycle can change. -/

namespace Sys2Proof.Machine

/-! ### The sample rate -/

theorem cpuHz_pos : 0 < Config.cpuHz := by norm_num [Config.cpuHz]

/-- `SAMPLE_RATE` is a positive rational below `CPU_HZ` (92 D52). -/
theorem sampleRate_pos : 0 < Config.sampleRate := by
  have := cpuHz_pos
  unfold Config.sampleRate
  positivity

theorem sampleRate_lt : Config.sampleRate < Config.cpuHz := by
  have hc := cpuHz_pos
  unfold Config.sampleRate
  rw [div_lt_iff₀ (by positivity)]
  have : ((Config.sampleRateNum + 1 : Nat) : Rat) < ((Config.sampleRateNum + Config.sampleRateGap + 2 : Nat) : Rat) := by
    exact_mod_cast (by omega : Config.sampleRateNum + 1 < Config.sampleRateNum + Config.sampleRateGap + 2)
  exact mul_lt_mul_of_pos_left this hc

/-! ### What must hold of the APU between cycles -/

/-- The APU's part of `State.InRange`. -/
structure Apu.Good (u : Apu) : Prop where
  p1 : u.pulse1.length ≤ 254
  p2 : u.pulse2.length ≤ 254
  tri : u.triangle.length ≤ 254
  noise : u.noise.length ≤ 254
  lfsr : u.noise.lfsr ≠ 0
  bitsLow : 1 ≤ u.dmc.bitsLeft
  bitsHigh : u.dmc.bitsLeft ≤ 8
  cycle : u.fsCycle ≤ lastSequencerCycle u.fsMode
  accLow : 0 ≤ u.sampleAcc
  accHigh : u.sampleAcc < Config.cpuHz
  silent1 : u.pulse1.enabled = false → u.pulse1.length = 0
  silent2 : u.pulse2.enabled = false → u.pulse2.length = 0
  silent3 : u.triangle.enabled = false → u.triangle.length = 0
  silent4 : u.noise.enabled = false → u.noise.length = 0
  dmcAddr : 0x8000 ≤ u.dmc.curAddr.toNat
  dmcSample : 0xC000 ≤ u.dmc.sampleAddr.toNat

theorem Apu.good_iff (u : Apu) :
    u.Good ↔ u.inRange = true ∧ u.silentWhenDisabled ∧ 0x8000 ≤ u.dmc.curAddr.toNat ∧
      0xC000 ≤ u.dmc.sampleAddr.toNat := by
  simp only [Apu.inRange, Bool.and_eq_true, decide_eq_true_eq, Apu.silentWhenDisabled]
  constructor
  · intro h
    exact ⟨⟨⟨⟨⟨⟨⟨⟨h.p1, h.p2⟩, h.tri⟩, h.noise⟩, h.lfsr⟩, h.bitsLow, h.bitsHigh⟩, h.cycle⟩, h.accLow, h.accHigh⟩,
      ⟨h.silent1, h.silent2, h.silent3, h.silent4⟩, h.dmcAddr, h.dmcSample⟩
  · rintro ⟨⟨⟨⟨⟨⟨⟨⟨h1, h2⟩, h3⟩, h4⟩, h5⟩, h6, h7⟩, h8⟩, h9, h10⟩, ⟨h11, h12, h13, h14⟩, h15, h16⟩
    exact ⟨h1, h2, h3, h4, h5, h6, h7, h8, h9, h10, h11, h12, h13, h14, h15, h16⟩

/-! ### Units -/

theorem lengthClock_le (halt : Bool) (n : Nat) : lengthClock halt n ≤ n := by
  unfold lengthClock
  split <;> omega

theorem loadedLength_le (d : Byte) : loadedLength d ≤ 254 := by
  revert d
  decide

theorem sweepClock_length (b : Bool) (p : Pulse) : (p.sweepClock b).length = p.length := by
  unfold Pulse.sweepClock
  split <;> rfl

theorem sweepClock_enabled (b : Bool) (p : Pulse) : (p.sweepClock b).enabled = p.enabled := by
  unfold Pulse.sweepClock
  split <;> rfl

theorem pulse_half_length_le (b : Bool) (p : Pulse) : (p.half b).length ≤ p.length := by
  rw [Pulse.half, sweepClock_length]
  exact lengthClock_le _ _

theorem pulse_half_enabled (b : Bool) (p : Pulse) : (p.half b).enabled = p.enabled := by
  rw [Pulse.half, sweepClock_enabled]

theorem Apu.Good.quarterFrame {u : Apu} (h : u.Good) : u.quarterFrame.Good := { h with }

theorem Apu.Good.halfFrame {u : Apu} (h : u.Good) : u.halfFrame.Good :=
  { h with
    p1 := (pulse_half_length_le true _).trans h.p1
    p2 := (pulse_half_length_le false _).trans h.p2
    tri := (lengthClock_le _ _).trans h.tri
    noise := (lengthClock_le _ _).trans h.noise
    silent1 := fun e => Nat.le_zero.mp
      ((pulse_half_length_le true _).trans_eq (h.silent1 ((pulse_half_enabled true _).symm.trans e)))
    silent2 := fun e => Nat.le_zero.mp
      ((pulse_half_length_le false _).trans_eq (h.silent2 ((pulse_half_enabled false _).symm.trans e)))
    silent3 := fun e => Nat.le_zero.mp ((lengthClock_le _ _).trans_eq (h.silent3 e))
    silent4 := fun e => Nat.le_zero.mp ((lengthClock_le _ _).trans_eq (h.silent4 e)) }

/-! ### Register writes -/

theorem loaded_le {e : Bool} {d : Byte} {n : Nat} (h : n ≤ 254) : (if e then loadedLength d else n) ≤ 254 := by
  split
  · exact loadedLength_le d
  · exact h

theorem loaded_silent {e : Bool} {d : Byte} {n : Nat} (h : e = false → n = 0) (he : e = false) :
    (if e then loadedLength d else n) = 0 := by
  simp [he, h he]

theorem sampleAddr_ge (d : Byte) : 0xC000 ≤ (BitVec.ofNat 16 (0xC000 + 64 * d.toNat)).toNat := by
  have := d.isLt
  rw [BitVec.toNat_ofNat, Nat.mod_eq_of_lt (by omega)]
  omega

/-- A write of a channel register keeps the ranges (66_apu R521-R531). -/
theorem Apu.Good.writeReg {u : Apu} (r : Nat) (d : Byte) (h : u.Good) : (u.writeReg r d).Good := by
  unfold Apu.writeReg
  split
  case h_4 => exact { h with p1 := loaded_le h.p1, silent1 := loaded_silent h.silent1 }
  case h_8 => exact { h with p2 := loaded_le h.p2, silent2 := loaded_silent h.silent2 }
  case h_11 => exact { h with tri := loaded_le h.tri, silent3 := loaded_silent h.silent3 }
  case h_14 => exact { h with noise := loaded_le h.noise, silent4 := loaded_silent h.silent4 }
  case h_17 => exact { h with dmcSample := sampleAddr_ge d }
  all_goals exact { h with }

theorem keptLength_le {b : Bool} {n : Nat} (h : n ≤ 254) : keptLength b n ≤ 254 := by
  cases b
  · simp [keptLength]
  · exact h

theorem keptLength_silent {b : Bool} {n : Nat} (h : b = false) : keptLength b n = 0 := by simp [h, keptLength]

/-- A write of 0x4015 keeps the ranges (66_apu R532). -/
theorem Apu.Good.writeStatus {u : Apu} (d : Byte) (h : u.Good) : (u.writeStatus d).Good := by
  have hd : (u.dmc.enable (d.getLsbD 4)).bitsLeft = u.dmc.bitsLeft ∧
      (u.dmc.enable (d.getLsbD 4)).sampleAddr = u.dmc.sampleAddr ∧
      0x8000 ≤ (u.dmc.enable (d.getLsbD 4)).curAddr.toNat := by
    unfold Dmc.enable
    split
    · split
      · exact ⟨rfl, rfl, Nat.le_trans (m := 0xC000) (by decide) h.dmcSample⟩
      · exact ⟨rfl, rfl, h.dmcAddr⟩
    · exact ⟨rfl, rfl, h.dmcAddr⟩
  exact
    { h with
      p1 := keptLength_le h.p1
      p2 := keptLength_le h.p2
      tri := keptLength_le h.tri
      noise := keptLength_le h.noise
      bitsLow := hd.1 ▸ h.bitsLow
      bitsHigh := hd.1 ▸ h.bitsHigh
      silent1 := keptLength_silent
      silent2 := keptLength_silent
      silent3 := keptLength_silent
      silent4 := keptLength_silent
      dmcAddr := hd.2.2
      dmcSample := hd.2.1 ▸ h.dmcSample }

/-- A write of 0x4017 keeps the ranges (66_apu R533). -/
theorem Apu.Good.writeFrameCounter {u : Apu} (d : Byte) (h : u.Good) : (u.writeFrameCounter d).Good := by
  have h' : (u.setFrameCounter d).Good := { h with cycle := Nat.zero_le _ }
  unfold Apu.writeFrameCounter
  split
  · exact h'.quarterFrame.halfFrame
  · exact h'

theorem busRead_good {s : State} (a : Word) (h : s.apu.Good) : (busRead a s).2.apu.Good := by
  obtain ⟨f, hf⟩ := busRead_apu a s
  rw [hf]
  exact { h with }

theorem ppuRegWrite_apu (r : PpuReg) (d : Byte) (s : State) : (ppuRegWrite r d s).apu = s.apu := by
  have hw : ∀ a, (ppuWrite a d s).apu = s.apu := fun a => by
    unfold ppuWrite
    repeat' split
    all_goals rfl
  cases r <;> simp [ppuRegWrite, hw]

theorem oamDma_good {s : State} (d : Byte) (h : s.apu.Good) : (oamDma d s).apu.Good :=
  foldl_invariant (oamDmaByte d) (fun s => s.apu.Good) (fun _ _ h => busRead_good _ h) _ s h

theorem busWrite_good {s : State} (a : Word) (d : Byte) (h : s.apu.Good) : (busWrite a d s).apu.Good := by
  cases e : busTarget a with
  | ppu r => simpa only [busWrite, e, ppuRegWrite_apu] using h
  | oamDma =>
    rw [busWrite_of_oamDma e]
    exact oamDma_good d h
  | apu r => simpa only [busWrite, e, State.mapApu_apu] using h.writeReg r d
  | apuStatus => simpa only [busWrite, e, State.mapApu_apu] using h.writeStatus d
  | port2 => simpa only [busWrite, e, State.mapApu_apu] using h.writeFrameCounter d
  | ram o | port1 | unmapped | prg o => simpa only [busWrite, e, State.mapPads_apu] using h

/-! ### One cycle -/

/-- The sequencer keeps the ranges: its count wraps within its mode's sequence (66_apu R541). -/
theorem Apu.Good.sequencerTick {u : Apu} (h : u.Good) : u.sequencerTick.Good := by
  have hc := h.cycle
  unfold lastSequencerCycle at hc
  unfold Apu.sequencerTick
  split
  · next hm =>
    rw [if_pos hm] at hc
    have step : u.fsCycle + 1 ≠ 37282 → u.countCycle.Good := fun hn =>
      { h with cycle := by simp only [Apu.countCycle, hm, lastSequencerCycle, if_true]; omega }
    unfold Apu.fiveStep
    split
    · next he => exact (step (by simp only [Apu.countCycle] at he; omega)).quarterFrame
    split
    · next he => exact (step (by simp only [Apu.countCycle] at he; omega)).quarterFrame.halfFrame
    split
    · next he => exact (step (by simp only [Apu.countCycle] at he; omega)).quarterFrame
    split
    · next he => exact (step (by simp only [Apu.countCycle] at he; omega)).quarterFrame.halfFrame
    split
    · exact { h with cycle := Nat.zero_le _ }
    · next he => exact step he
  · next hm =>
    rw [if_neg hm] at hc
    have step : u.fsCycle + 1 ≠ 29830 → u.countCycle.Good := fun hn =>
      { h with
        cycle := by
          have hl : lastSequencerCycle u.countCycle.fsMode = 29829 := if_neg hm
          rw [hl]
          simp only [Apu.countCycle]
          omega }
    unfold Apu.fourStep
    split
    · next he => exact (step (by simp only [Apu.countCycle] at he; omega)).quarterFrame
    split
    · next he => exact (step (by simp only [Apu.countCycle] at he; omega)).quarterFrame.halfFrame
    split
    · next he => exact (step (by simp only [Apu.countCycle] at he; omega)).quarterFrame
    split
    · next he =>
      exact { (step (by simp only [Apu.countCycle] at he; omega)).quarterFrame.halfFrame with }
    split
    · exact { h with cycle := Nat.zero_le _ }
    · next he => exact step he

/-- A right shift with feedback of a register that is not 0 is not 0, when the bit shifted out is fed back. -/
theorem lfsr_step_ne_zero (n : Noise) (h : n.lfsr ≠ 0) :
    bit1 n.feedback ++ n.lfsr.extractLsb 14 1 ≠ (0 : BitVec 15) := by
  intro h0
  apply h
  have hb : ∀ i, i < 15 → (bit1 n.feedback ++ n.lfsr.extractLsb 14 1 : BitVec 15).getLsbD i = false := by
    intro i hi
    rw [h0]
    simp
  have hi : ∀ i, 1 ≤ i → i < 15 → n.lfsr.getLsbD i = false := by
    intro i h1 h2
    have h3 := hb (i - 1) (by omega)
    rw [BitVec.getLsbD_append, if_pos (by omega), BitVec.getLsbD_extractLsb] at h3
    simpa [show i - 1 < 14 by omega, show 1 + (i - 1) = i by omega] using h3
  have hf : n.feedback = false := by
    have h3 := hb 14 (by omega)
    rw [BitVec.getLsbD_append, if_neg (by omega)] at h3
    simpa [bit1] using h3
  have h0' : n.lfsr.getLsbD 0 = false := by
    unfold Noise.feedback at hf
    split at hf
    · rw [hi 6 (by omega) (by omega)] at hf
      simpa using hf
    · rw [hi 1 (by omega) (by omega)] at hf
      simpa using hf
  apply BitVec.eq_of_getLsbD_eq
  intro i hi'
  rcases Nat.eq_zero_or_pos i with rfl | hp
  · simpa using h0'
  · simpa using hi i hp hi'

theorem noise_tick_kept (n : Noise) :
    n.tick.length = n.length ∧ n.tick.enabled = n.enabled ∧ (n.lfsr ≠ 0 → n.tick.lfsr ≠ 0) := by
  unfold Noise.tick
  split
  · exact ⟨rfl, rfl, fun h => lfsr_step_ne_zero n h⟩
  · exact ⟨rfl, rfl, id⟩

theorem pulse_tick_kept (p : Pulse) : p.tick.length = p.length ∧ p.tick.enabled = p.enabled := by
  unfold Pulse.tick
  split <;> exact ⟨rfl, rfl⟩

theorem triangle_tick_kept (t : Triangle) : t.tick.length = t.length ∧ t.tick.enabled = t.enabled := by
  unfold Triangle.tick
  split <;> exact ⟨rfl, rfl⟩

/-- What an output bit does to the DMC's counters. -/
theorem dmc_outputClock_kept (c : Dmc) :
    c.outputClock.curAddr = c.curAddr ∧ c.outputClock.sampleAddr = c.sampleAddr ∧
      c.outputClock.remaining = c.remaining ∧
      (if c.bitsLeft - 1 = 0 then c.outputClock.bitsLeft = 8 ∧ c.outputClock.bufferFull = false
        else c.outputClock.bitsLeft = c.bitsLeft - 1 ∧ c.outputClock.bufferFull = c.bufferFull) := by
  by_cases h : c.bitsLeft - 1 = 0
  · by_cases hb : c.bufferFull = true
    · simp [Dmc.outputClock, h, hb]
    · simp [Dmc.outputClock, h, hb]
  · simp [Dmc.outputClock, h]

theorem dmc_tick_kept (c : Dmc) :
    c.tick.curAddr = c.curAddr ∧ c.tick.sampleAddr = c.sampleAddr ∧ c.tick.remaining = c.remaining ∧
      (c.tick.bitsLeft = c.bitsLeft ∧ c.tick.bufferFull = c.bufferFull ∨
        c.bitsLeft - 1 = 0 ∧ c.tick.bitsLeft = 8 ∧ c.tick.bufferFull = false ∨
        c.bitsLeft - 1 ≠ 0 ∧ c.tick.bitsLeft = c.bitsLeft - 1 ∧ c.tick.bufferFull = c.bufferFull) := by
  unfold Dmc.tick
  split
  · have h := dmc_outputClock_kept { c with timer := BitVec.ofNat 9 (entry dmcRate c.rateIdx.toNat - 1) }
    refine ⟨h.1, h.2.1, h.2.2.1, .inr ?_⟩
    have h4 := h.2.2.2
    split at h4
    · next hb => exact .inl ⟨hb, h4⟩
    · next hb => exact .inr ⟨hb, h4⟩
  · exact ⟨rfl, rfl, rfl, .inl ⟨rfl, rfl⟩⟩

/-- The channel timers keep the ranges. -/
theorem Apu.Good.timersTick {u : Apu} (h : u.Good) : u.timersTick.Good := by
  have hp : ∀ (b : Bool) (p : Pulse), (if b then p else p.tick).length = p.length ∧
      (if b then p else p.tick).enabled = p.enabled := fun b p => by
    cases b
    · exact pulse_tick_kept p
    · exact ⟨rfl, rfl⟩
  have h1 := hp u.phase u.pulse1
  have h2 := hp u.phase u.pulse2
  have h3 := triangle_tick_kept u.triangle
  have h4 := noise_tick_kept u.noise
  obtain ⟨h5, h6, -, h7⟩ := dmc_tick_kept u.dmc
  have hb : 1 ≤ u.dmc.tick.bitsLeft ∧ u.dmc.tick.bitsLeft ≤ 8 := by
    have := h.bitsLow
    have := h.bitsHigh
    rcases h7 with ⟨e, -⟩ | ⟨-, e, -⟩ | ⟨hn, e, -⟩ <;> omega
  exact
    { h with
      p1 := h1.1 ▸ h.p1
      p2 := h2.1 ▸ h.p2
      tri := h3.1 ▸ h.tri
      noise := h4.1 ▸ h.noise
      lfsr := h4.2.2 h.lfsr
      bitsLow := hb.1
      bitsHigh := hb.2
      silent1 := fun e => h1.1 ▸ h.silent1 (h1.2 ▸ e)
      silent2 := fun e => h2.1 ▸ h.silent2 (h2.2 ▸ e)
      silent3 := fun e => h3.1 ▸ h.silent3 (h3.2 ▸ e)
      silent4 := fun e => h4.1 ▸ h.silent4 (h4.2.1 ▸ e)
      dmcAddr := h5 ▸ h.dmcAddr
      dmcSample := h6 ▸ h.dmcSample }

theorem dmc_take_sampleAddr (b : Byte) (c : Dmc) : (c.take b).sampleAddr = c.sampleAddr := by
  unfold Dmc.take
  split <;> rfl

theorem dmc_take_bitsLeft (b : Byte) (c : Dmc) : (c.take b).bitsLeft = c.bitsLeft ∧ (c.take b).bufferFull = true := by
  unfold Dmc.take
  split <;> exact ⟨rfl, rfl⟩

/-- The address the DMC reads next is in PRG ROM again (66_apu R560). -/
theorem dmc_take_curAddr (b : Byte) {c : Dmc} (h1 : 0x8000 ≤ c.curAddr.toNat) (h2 : 0xC000 ≤ c.sampleAddr.toNat) :
    0x8000 ≤ (c.take b).curAddr.toNat := by
  unfold Dmc.take
  split
  · exact Nat.le_trans (m := 0xC000) (by decide) h2
  · simp only
    split
    · simp
    · next hn =>
      have h3 : c.curAddr.toNat ≠ 0xFFFF := fun e => hn (BitVec.eq_of_toNat_eq (by simpa using e))
      have h4 := c.curAddr.isLt
      rw [BitVec.toNat_add]
      simp only [BitVec.ofNat_eq_ofNat, BitVec.toNat_ofNat]
      omega

theorem dmcReaderTick_good {s : State} (h : s.apu.Good) : (dmcReaderTick s).apu.Good := by
  unfold dmcReaderTick
  split
  · have hr : (busRead s.apu.dmc.curAddr
        (s.mapCpu fun c => { c with stall := c.stall + Config.dmcStallCycles })).2.apu.Good :=
      busRead_good _ (by simpa using h)
    have hb := dmc_take_bitsLeft (busRead s.apu.dmc.curAddr
        (s.mapCpu fun c => { c with stall := c.stall + Config.dmcStallCycles })).1 s.apu.dmc
    exact
      { hr with
        bitsLow := hb.1 ▸ h.bitsLow
        bitsHigh := hb.1 ▸ h.bitsHigh
        dmcAddr := dmc_take_curAddr _ h.dmcAddr h.dmcSample
        dmcSample := dmc_take_sampleAddr _ s.apu.dmc ▸ h.dmcSample }
  · exact h

theorem Apu.Good.sampleTick {u : Apu} (h : u.Good) : u.sampleTick.Good := by
  have h1 := h.accLow
  have h2 := h.accHigh
  have h3 := sampleRate_pos
  have h4 := sampleRate_lt
  by_cases hc : Config.cpuHz ≤ u.sampleAcc + Config.sampleRate
  · have e : u.sampleTick.sampleAcc = u.sampleAcc + Config.sampleRate - Config.cpuHz := by
      simp [Apu.sampleTick, Apu.sampleDue, hc]
    exact { h with accLow := by rw [e]; linarith, accHigh := by rw [e]; linarith }
  · have e : u.sampleTick.sampleAcc = u.sampleAcc + Config.sampleRate := by
      simp [Apu.sampleTick, Apu.sampleDue, hc]
    exact { h with accLow := by rw [e]; linarith, accHigh := by rw [e]; linarith [not_le.mp hc] }

/-- An APU cycle keeps the APU's ranges. -/
theorem stepCycle_good {s : State} (h : s.apu.Good) : (stepCycle s).apu.Good := by
  have h1 : (dmcReaderTick (s.mapApu fun u => u.sequencerTick.timersTick)).apu.Good :=
    dmcReaderTick_good h.sequencerTick.timersTick
  exact { h1.sampleTick with }

/-! ### What a cycle changes outside the APU -/

/-- The DMC reader changes, beside the APU, the stall and what its one bus read changes. -/
theorem dmcReaderTick_cpu (s : State) :
    (dmcReaderTick s).cpu =
      if s.apu.dmc.bufferFull = false ∧ s.apu.dmc.remaining ≠ 0 then { s.cpu with stall := s.cpu.stall + 4 }
      else s.cpu := by
  unfold dmcReaderTick
  split
  · simp [Config.dmcStallCycles]
  · rfl

/-- The CPU record after a cycle: at most the stall grew. -/
theorem stepCycle_cpu (s : State) : ∃ n, (stepCycle s).cpu = { s.cpu with stall := n } := by
  have h := dmcReaderTick_cpu (s.mapApu fun u => u.sequencerTick.timersTick)
  simp only [stepCycle, State.mapApu_cpu, h]
  split
  · exact ⟨_, rfl⟩
  · exact ⟨_, rfl⟩

/-- The rest of the machine after a cycle. -/
theorem stepCycle_kept (s : State) :
    (stepCycle s).ram = s.ram ∧ (stepCycle s).cart = s.cart ∧
      (stepCycle s).ppu.inRange = s.ppu.inRange ∧ (stepCycle s).ppu.scanline = s.ppu.scanline ∧
      (stepCycle s).ppu.dot = s.ppu.dot ∧ (stepCycle s).ppu.frameComplete = s.ppu.frameComplete := by
  simp only [stepCycle, State.mapApu_ram, State.mapApu_cart, State.mapApu_ppu, dmcReaderTick]
  split
  · have k := busRead_ppu_kept s.apu.sequencerTick.timersTick.dmc.curAddr
      ((s.mapApu fun u => u.sequencerTick.timersTick).mapCpu fun c =>
        { c with stall := c.stall + Config.dmcStallCycles })
    refine ⟨?_, ?_, ?_, ?_, ?_, ?_⟩
    · simp
    · simp
    · exact busRead_ppu_inRange _ _
    · exact k.2.2.2.2.1
    · exact k.2.2.2.2.2.1
    · exact k.2.2.2.2.2.2.1
  · simp

end Sys2Proof.Machine
end

