-- ==== Sys2Proof/Laws/Arith.lean ====
section
/-! SUPPORT. The bytes of the shifts and rotates as shifts of bit vectors, and the difference of two bytes over the
integers; and what the carry and the overflow of ADC and SBC say about numbers. -/

namespace Sys2Proof.Machine

theorem aslByte_eq (m : Byte) : aslByte m = m <<< 1 := by revert m; decide

theorem lsrByte_eq (m : Byte) : lsrByte m = m >>> 1 := by revert m; decide

theorem rolByte_eq (m : Byte) (c : Bool) : rolByte m c = m <<< 1 ||| (BitVec.ofBool c).setWidth 8 := by
  revert m c; decide

theorem rorByte_eq (m : Byte) (c : Bool) : rorByte m c = (BitVec.ofBool c).setWidth 8 <<< 7 ||| m >>> 1 := by
  revert m c; decide

/-- `u8(r - m)` (42_arithmetic_logic R270). -/
theorem ofInt_byte_sub (r m : Byte) : BitVec.ofInt 8 ((r.toNat : Int) - m.toNat) = r - m := by
  apply BitVec.eq_of_toNat_eq
  rw [BitVec.toNat_ofInt, BitVec.toNat_sub]
  have := r.isLt
  have := m.isLt
  omega

theorem adcOverflow_msb (a m : Byte) (c : Bool) :
    adcOverflow a m c = (a.msb == m.msb && (adcResult a m c).msb != a.msb) := by
  simp only [adcOverflow, BitVec.msb_eq_getLsbD_last]
  simp only [BitVec.getLsbD_and, BitVec.getLsbD_not, BitVec.getLsbD_xor]
  cases a.getLsbD 7 <;> cases m.getLsbD 7 <;> cases (adcResult a m c).getLsbD 7 <;> rfl

/-- V of ADC: the signed sum does not fit in a byte; without it the result is the signed sum. -/
theorem adcOverflow_iff (a m : Byte) (c : Bool) :
    (adcOverflow a m c = true ↔
        a.toInt + m.toInt + (c.toNat : Int) < -128 ∨ 127 < a.toInt + m.toInt + (c.toNat : Int)) ∧
      (adcOverflow a m c = false → (adcResult a m c).toInt = a.toInt + m.toInt + (c.toNat : Int)) := by
  have h : (adcResult a m c).toNat = (a.toNat + m.toNat + c.toNat) % 256 := by simp [adcResult, adcSum]
  rw [adcOverflow_msb]
  have := a.isLt
  have := m.isLt
  have hc : c.toNat ≤ 1 := by cases c <;> decide
  simp only [BitVec.toInt_eq_msb_cond, BitVec.msb_eq_decide] at *
  generalize adcResult a m c = r at *
  by_cases ha : 2 ^ (8 - 1) ≤ a.toNat <;> by_cases hm : 2 ^ (8 - 1) ≤ m.toNat <;>
    by_cases hr : 2 ^ (8 - 1) ≤ r.toNat <;> simp [ha, hm, hr] <;> omega

theorem toInt_complement (m : Byte) : (~~~m).toInt = -m.toInt - 1 := by revert m; decide

/-- C of SBC: no borrow was needed. -/
theorem sbcCarry_iff (a m : Byte) (c : Bool) :
    adcCarry a (~~~m) c = true ↔ (m.toNat : Int) + (1 - (c.toNat : Int)) ≤ a.toNat := by
  have := m.isLt
  have := a.isLt
  have hc : c.toNat ≤ 1 := by cases c <;> decide
  simp only [adcCarry, adcSum, decide_eq_true_eq, BitVec.toNat_not]
  omega

end Sys2Proof.Machine
end

