-- ==== Sys2Proof/Laws/PerInstr.lean ====
section
/-! SUPPORT. Decoding an encoded instruction, instruction by instruction (30_encoding R120-R126). -/

namespace Sys2Proof

/-! ### Operand bytes -/

/-- The bits of a word from its bytes. -/
theorem getLsbD_wordOf (lo hi : Byte) (i : Nat) :
    (wordOf lo hi).getLsbD i = if i < 8 then lo.getLsbD i else hi.getLsbD (i - 8) := by
  unfold wordOf
  rw [BitVec.getLsbD_append]

/-- The two bytes of a word make the word. -/
theorem wordOf_bytes (a : Word) : wordOf (loByte a) (hiByte a) = a := by
  apply BitVec.eq_of_getLsbD_eq
  intro i hi
  rw [getLsbD_wordOf, loByte, hiByte, BitVec.getLsbD_extractLsb, BitVec.getLsbD_extractLsb]
  by_cases h : i < 8
  · simp [h]
  · simp [h, show i - 8 < 8 by omega, show 8 + (i - 8) = i by omega]

/-- The byte of a displacement in range stands for it. -/
theorem relOfByte_byteOfRel {d : Int} (h : inRel8 d = true) : relOfByte (byteOfRel d) = d := by
  simp only [inRel8, Bool.and_eq_true, decide_eq_true_eq] at h
  unfold relOfByte byteOfRel
  rw [BitVec.toInt_ofInt, Int.bmod_eq_of_le_mul_two] <;> omega

/-- A displacement read from a byte is in range. -/
theorem inRel8_relOfByte (b : Byte) : inRel8 (relOfByte b) = true := by
  have h1 : -128 ≤ b.toInt := BitVec.le_toInt b
  have h2 : b.toInt < 128 := BitVec.toInt_lt (x := b)
  simp only [inRel8, Bool.and_eq_true, decide_eq_true_eq]
  unfold relOfByte
  omega

/-- The byte of the displacement a byte stands for is that byte. -/
theorem byteOfRel_relOfByte (b : Byte) : byteOfRel (relOfByte b) = b := by
  simp [byteOfRel, relOfByte]

theorem loByte_wordOf (lo hi : Byte) : loByte (wordOf lo hi) = lo := by
  apply BitVec.eq_of_getLsbD_eq
  intro i h
  rw [loByte, BitVec.getLsbD_extractLsb, getLsbD_wordOf]
  simp [show i < 8 by omega]

theorem hiByte_wordOf (lo hi : Byte) : hiByte (wordOf lo hi) = hi := by
  apply BitVec.eq_of_getLsbD_eq
  intro i h
  rw [hiByte, BitVec.getLsbD_extractLsb, getLsbD_wordOf]
  simp [show i < 8 by omega]

namespace Laws.DecodeEncode

/-- Decoding the bytes of a well-formed instruction gives it back, with whatever follows left over. -/
def Statement (i : Instr) : Prop := i.WellFormed → ∀ rest, decode (encode i ++ rest) = some (i, rest)

/-- A format F3 encoding decodes through its two operand bytes. -/
theorem ofAddr {op : Byte} {f : Word → Instr} {a : Word} {i : Instr} (hc : opcodeCell op = .f3 f) (hi : f a = i)
    (rest : List Byte) : decode (op :: addr16Bytes a ++ rest) = some (i, rest) := by
  simp [decode, hc, addr16Bytes, wordOf_bytes, hi]

/-- A branch's encoding decodes through its displacement. -/
theorem ofRel {op : Byte} {f : Int → Instr} {d : Int} (hc : opcodeCell op = .rel f) (hd : inRel8 d = true)
    (rest : List Byte) : decode ([op, byteOfRel d] ++ rest) = some (f d, rest) := by
  simp [decode, hc, OpcodeCell.rel, relOfByte_byteOfRel hd]

theorem ldaImm (v : Byte) : Statement (.ldaImm v) := fun _ _ => rfl
theorem ldaZp (z : Byte) : Statement (.ldaZp z) := fun _ _ => rfl
theorem ldaZpx (z : Byte) : Statement (.ldaZpx z) := fun _ _ => rfl
theorem ldaAbs (a : Word) : Statement (.ldaAbs a) := fun _ rest => ofAddr rfl rfl rest
theorem ldaAbsx (a : Word) : Statement (.ldaAbsx a) := fun _ rest => ofAddr rfl rfl rest
theorem ldaAbsy (a : Word) : Statement (.ldaAbsy a) := fun _ rest => ofAddr rfl rfl rest
theorem ldaIzx (z : Byte) : Statement (.ldaIzx z) := fun _ _ => rfl
theorem ldaIzy (z : Byte) : Statement (.ldaIzy z) := fun _ _ => rfl
theorem ldxImm (v : Byte) : Statement (.ldxImm v) := fun _ _ => rfl
theorem ldxZp (z : Byte) : Statement (.ldxZp z) := fun _ _ => rfl
theorem ldxZpy (z : Byte) : Statement (.ldxZpy z) := fun _ _ => rfl
theorem ldxAbs (a : Word) : Statement (.ldxAbs a) := fun _ rest => ofAddr rfl rfl rest
theorem ldxAbsy (a : Word) : Statement (.ldxAbsy a) := fun _ rest => ofAddr rfl rfl rest
theorem ldyImm (v : Byte) : Statement (.ldyImm v) := fun _ _ => rfl
theorem ldyZp (z : Byte) : Statement (.ldyZp z) := fun _ _ => rfl
theorem ldyZpx (z : Byte) : Statement (.ldyZpx z) := fun _ _ => rfl
theorem ldyAbs (a : Word) : Statement (.ldyAbs a) := fun _ rest => ofAddr rfl rfl rest
theorem ldyAbsx (a : Word) : Statement (.ldyAbsx a) := fun _ rest => ofAddr rfl rfl rest
theorem staZp (z : Byte) : Statement (.staZp z) := fun _ _ => rfl
theorem staZpx (z : Byte) : Statement (.staZpx z) := fun _ _ => rfl
theorem staAbs (a : Word) : Statement (.staAbs a) := fun _ rest => ofAddr rfl rfl rest
theorem staAbsx (a : Word) : Statement (.staAbsx a) := fun _ rest => ofAddr rfl rfl rest
theorem staAbsy (a : Word) : Statement (.staAbsy a) := fun _ rest => ofAddr rfl rfl rest
theorem staIzx (z : Byte) : Statement (.staIzx z) := fun _ _ => rfl
theorem staIzy (z : Byte) : Statement (.staIzy z) := fun _ _ => rfl
theorem stxZp (z : Byte) : Statement (.stxZp z) := fun _ _ => rfl
theorem stxZpy (z : Byte) : Statement (.stxZpy z) := fun _ _ => rfl
theorem stxAbs (a : Word) : Statement (.stxAbs a) := fun _ rest => ofAddr rfl rfl rest
theorem styZp (z : Byte) : Statement (.styZp z) := fun _ _ => rfl
theorem styZpx (z : Byte) : Statement (.styZpx z) := fun _ _ => rfl
theorem styAbs (a : Word) : Statement (.styAbs a) := fun _ rest => ofAddr rfl rfl rest
theorem tax : Statement (.tax) := fun _ _ => rfl
theorem tay : Statement (.tay) := fun _ _ => rfl
theorem txa : Statement (.txa) := fun _ _ => rfl
theorem tya : Statement (.tya) := fun _ _ => rfl
theorem tsx : Statement (.tsx) := fun _ _ => rfl
theorem txs : Statement (.txs) := fun _ _ => rfl
theorem pha : Statement (.pha) := fun _ _ => rfl
theorem php : Statement (.php) := fun _ _ => rfl
theorem pla : Statement (.pla) := fun _ _ => rfl
theorem plp : Statement (.plp) := fun _ _ => rfl
theorem adcImm (v : Byte) : Statement (.adcImm v) := fun _ _ => rfl
theorem adcZp (z : Byte) : Statement (.adcZp z) := fun _ _ => rfl
theorem adcZpx (z : Byte) : Statement (.adcZpx z) := fun _ _ => rfl
theorem adcAbs (a : Word) : Statement (.adcAbs a) := fun _ rest => ofAddr rfl rfl rest
theorem adcAbsx (a : Word) : Statement (.adcAbsx a) := fun _ rest => ofAddr rfl rfl rest
theorem adcAbsy (a : Word) : Statement (.adcAbsy a) := fun _ rest => ofAddr rfl rfl rest
theorem adcIzx (z : Byte) : Statement (.adcIzx z) := fun _ _ => rfl
theorem adcIzy (z : Byte) : Statement (.adcIzy z) := fun _ _ => rfl
theorem sbcImm (v : Byte) : Statement (.sbcImm v) := fun _ _ => rfl
theorem sbcZp (z : Byte) : Statement (.sbcZp z) := fun _ _ => rfl
theorem sbcZpx (z : Byte) : Statement (.sbcZpx z) := fun _ _ => rfl
theorem sbcAbs (a : Word) : Statement (.sbcAbs a) := fun _ rest => ofAddr rfl rfl rest
theorem sbcAbsx (a : Word) : Statement (.sbcAbsx a) := fun _ rest => ofAddr rfl rfl rest
theorem sbcAbsy (a : Word) : Statement (.sbcAbsy a) := fun _ rest => ofAddr rfl rfl rest
theorem sbcIzx (z : Byte) : Statement (.sbcIzx z) := fun _ _ => rfl
theorem sbcIzy (z : Byte) : Statement (.sbcIzy z) := fun _ _ => rfl
theorem andImm (v : Byte) : Statement (.andImm v) := fun _ _ => rfl
theorem andZp (z : Byte) : Statement (.andZp z) := fun _ _ => rfl
theorem andZpx (z : Byte) : Statement (.andZpx z) := fun _ _ => rfl
theorem andAbs (a : Word) : Statement (.andAbs a) := fun _ rest => ofAddr rfl rfl rest
theorem andAbsx (a : Word) : Statement (.andAbsx a) := fun _ rest => ofAddr rfl rfl rest
theorem andAbsy (a : Word) : Statement (.andAbsy a) := fun _ rest => ofAddr rfl rfl rest
theorem andIzx (z : Byte) : Statement (.andIzx z) := fun _ _ => rfl
theorem andIzy (z : Byte) : Statement (.andIzy z) := fun _ _ => rfl
theorem oraImm (v : Byte) : Statement (.oraImm v) := fun _ _ => rfl
theorem oraZp (z : Byte) : Statement (.oraZp z) := fun _ _ => rfl
theorem oraZpx (z : Byte) : Statement (.oraZpx z) := fun _ _ => rfl
theorem oraAbs (a : Word) : Statement (.oraAbs a) := fun _ rest => ofAddr rfl rfl rest
theorem oraAbsx (a : Word) : Statement (.oraAbsx a) := fun _ rest => ofAddr rfl rfl rest
theorem oraAbsy (a : Word) : Statement (.oraAbsy a) := fun _ rest => ofAddr rfl rfl rest
theorem oraIzx (z : Byte) : Statement (.oraIzx z) := fun _ _ => rfl
theorem oraIzy (z : Byte) : Statement (.oraIzy z) := fun _ _ => rfl
theorem eorImm (v : Byte) : Statement (.eorImm v) := fun _ _ => rfl
theorem eorZp (z : Byte) : Statement (.eorZp z) := fun _ _ => rfl
theorem eorZpx (z : Byte) : Statement (.eorZpx z) := fun _ _ => rfl
theorem eorAbs (a : Word) : Statement (.eorAbs a) := fun _ rest => ofAddr rfl rfl rest
theorem eorAbsx (a : Word) : Statement (.eorAbsx a) := fun _ rest => ofAddr rfl rfl rest
theorem eorAbsy (a : Word) : Statement (.eorAbsy a) := fun _ rest => ofAddr rfl rfl rest
theorem eorIzx (z : Byte) : Statement (.eorIzx z) := fun _ _ => rfl
theorem eorIzy (z : Byte) : Statement (.eorIzy z) := fun _ _ => rfl
theorem bitZp (z : Byte) : Statement (.bitZp z) := fun _ _ => rfl
theorem bitAbs (a : Word) : Statement (.bitAbs a) := fun _ rest => ofAddr rfl rfl rest
theorem cmpImm (v : Byte) : Statement (.cmpImm v) := fun _ _ => rfl
theorem cmpZp (z : Byte) : Statement (.cmpZp z) := fun _ _ => rfl
theorem cmpZpx (z : Byte) : Statement (.cmpZpx z) := fun _ _ => rfl
theorem cmpAbs (a : Word) : Statement (.cmpAbs a) := fun _ rest => ofAddr rfl rfl rest
theorem cmpAbsx (a : Word) : Statement (.cmpAbsx a) := fun _ rest => ofAddr rfl rfl rest
theorem cmpAbsy (a : Word) : Statement (.cmpAbsy a) := fun _ rest => ofAddr rfl rfl rest
theorem cmpIzx (z : Byte) : Statement (.cmpIzx z) := fun _ _ => rfl
theorem cmpIzy (z : Byte) : Statement (.cmpIzy z) := fun _ _ => rfl
theorem cpxImm (v : Byte) : Statement (.cpxImm v) := fun _ _ => rfl
theorem cpxZp (z : Byte) : Statement (.cpxZp z) := fun _ _ => rfl
theorem cpxAbs (a : Word) : Statement (.cpxAbs a) := fun _ rest => ofAddr rfl rfl rest
theorem cpyImm (v : Byte) : Statement (.cpyImm v) := fun _ _ => rfl
theorem cpyZp (z : Byte) : Statement (.cpyZp z) := fun _ _ => rfl
theorem cpyAbs (a : Word) : Statement (.cpyAbs a) := fun _ rest => ofAddr rfl rfl rest
theorem incZp (z : Byte) : Statement (.incZp z) := fun _ _ => rfl
theorem incZpx (z : Byte) : Statement (.incZpx z) := fun _ _ => rfl
theorem incAbs (a : Word) : Statement (.incAbs a) := fun _ rest => ofAddr rfl rfl rest
theorem incAbsx (a : Word) : Statement (.incAbsx a) := fun _ rest => ofAddr rfl rfl rest
theorem decZp (z : Byte) : Statement (.decZp z) := fun _ _ => rfl
theorem decZpx (z : Byte) : Statement (.decZpx z) := fun _ _ => rfl
theorem decAbs (a : Word) : Statement (.decAbs a) := fun _ rest => ofAddr rfl rfl rest
theorem decAbsx (a : Word) : Statement (.decAbsx a) := fun _ rest => ofAddr rfl rfl rest
theorem inx : Statement (.inx) := fun _ _ => rfl
theorem iny : Statement (.iny) := fun _ _ => rfl
theorem dex : Statement (.dex) := fun _ _ => rfl
theorem dey : Statement (.dey) := fun _ _ => rfl
theorem aslAcc : Statement (.aslAcc) := fun _ _ => rfl
theorem aslZp (z : Byte) : Statement (.aslZp z) := fun _ _ => rfl
theorem aslZpx (z : Byte) : Statement (.aslZpx z) := fun _ _ => rfl
theorem aslAbs (a : Word) : Statement (.aslAbs a) := fun _ rest => ofAddr rfl rfl rest
theorem aslAbsx (a : Word) : Statement (.aslAbsx a) := fun _ rest => ofAddr rfl rfl rest
theorem lsrAcc : Statement (.lsrAcc) := fun _ _ => rfl
theorem lsrZp (z : Byte) : Statement (.lsrZp z) := fun _ _ => rfl
theorem lsrZpx (z : Byte) : Statement (.lsrZpx z) := fun _ _ => rfl
theorem lsrAbs (a : Word) : Statement (.lsrAbs a) := fun _ rest => ofAddr rfl rfl rest
theorem lsrAbsx (a : Word) : Statement (.lsrAbsx a) := fun _ rest => ofAddr rfl rfl rest
theorem rolAcc : Statement (.rolAcc) := fun _ _ => rfl
theorem rolZp (z : Byte) : Statement (.rolZp z) := fun _ _ => rfl
theorem rolZpx (z : Byte) : Statement (.rolZpx z) := fun _ _ => rfl
theorem rolAbs (a : Word) : Statement (.rolAbs a) := fun _ rest => ofAddr rfl rfl rest
theorem rolAbsx (a : Word) : Statement (.rolAbsx a) := fun _ rest => ofAddr rfl rfl rest
theorem rorAcc : Statement (.rorAcc) := fun _ _ => rfl
theorem rorZp (z : Byte) : Statement (.rorZp z) := fun _ _ => rfl
theorem rorZpx (z : Byte) : Statement (.rorZpx z) := fun _ _ => rfl
theorem rorAbs (a : Word) : Statement (.rorAbs a) := fun _ rest => ofAddr rfl rfl rest
theorem rorAbsx (a : Word) : Statement (.rorAbsx a) := fun _ rest => ofAddr rfl rfl rest
theorem jmpAbs (a : Word) : Statement (.jmpAbs a) := fun _ rest => ofAddr rfl rfl rest
theorem jmpInd (a : Word) : Statement (.jmpInd a) := fun _ rest => ofAddr rfl rfl rest
theorem jsr (a : Word) : Statement (.jsr a) := fun _ rest => ofAddr rfl rfl rest
theorem rts : Statement (.rts) := fun _ _ => rfl
theorem bcc (d : Int) : Statement (.bcc d) := fun h rest => ofRel rfl h rest
theorem bcs (d : Int) : Statement (.bcs d) := fun h rest => ofRel rfl h rest
theorem beq (d : Int) : Statement (.beq d) := fun h rest => ofRel rfl h rest
theorem bmi (d : Int) : Statement (.bmi d) := fun h rest => ofRel rfl h rest
theorem bne (d : Int) : Statement (.bne d) := fun h rest => ofRel rfl h rest
theorem bpl (d : Int) : Statement (.bpl d) := fun h rest => ofRel rfl h rest
theorem bvc (d : Int) : Statement (.bvc d) := fun h rest => ofRel rfl h rest
theorem bvs (d : Int) : Statement (.bvs d) := fun h rest => ofRel rfl h rest
theorem clc : Statement (.clc) := fun _ _ => rfl
theorem sec : Statement (.sec) := fun _ _ => rfl
theorem cli : Statement (.cli) := fun _ _ => rfl
theorem sei : Statement (.sei) := fun _ _ => rfl
theorem cld : Statement (.cld) := fun _ _ => rfl
theorem sed : Statement (.sed) := fun _ _ => rfl
theorem clv : Statement (.clv) := fun _ _ => rfl
theorem brk : Statement (.brk) := fun _ _ => rfl
theorem rti : Statement (.rti) := fun _ _ => rfl
theorem nop : Statement (.nop) := fun _ _ => rfl

end Laws.DecodeEncode
end Sys2Proof
end

