-- ==== Sys2Proof/Laws/OpcodeMap.lean ====
section
/-! SUPPORT. What the cells of the opcode map hold (30_encoding R123, R126): each is encoded by the byte it stands at and
its operand bytes. -/

namespace Sys2Proof

/-- A cell's instructions are well formed and are encoded by its own byte and their operand bytes. -/
def OpcodeCell.StandsAt (op : Byte) : OpcodeCell → Prop
  | .illegal => True
  | .f1 i => i.WellFormed ∧ encode i = [op]
  | .f2 f => ∀ b, (f b).WellFormed ∧ encode (f b) = [op, b]
  | .f3 f => ∀ a, (f a).WellFormed ∧ encode (f a) = op :: addr16Bytes a

set_option maxRecDepth 4000 in
/-- `opcodeCell_standsAt` for the numeral of the byte. -/
theorem opcodeCell_ofNat_standsAt (n : Nat) (h : n < 256) :
    (opcodeCell (BitVec.ofNat 8 n)).StandsAt (BitVec.ofNat 8 n) := by
  interval_cases n <;> first
    | (change OpcodeCell.StandsAt _ OpcodeCell.illegal; exact trivial)
    | (change OpcodeCell.StandsAt _ (OpcodeCell.f1 _); exact ⟨rfl, rfl⟩)
    | (change OpcodeCell.StandsAt _ (OpcodeCell.f2 fun b => _); intro b; exact ⟨rfl, rfl⟩)
    | (change OpcodeCell.StandsAt _ (OpcodeCell.f3 fun a => _); intro a; exact ⟨rfl, rfl⟩)
    | (change OpcodeCell.StandsAt _ (OpcodeCell.f2 fun b => _)
       intro b
       refine ⟨inRel8_relOfByte b, ?_⟩
       change [_, byteOfRel (relOfByte b)] = _
       rw [byteOfRel_relOfByte]
       rfl)

/-- Every cell of the map stands at its own byte. -/
theorem opcodeCell_standsAt (op : Byte) : (opcodeCell op).StandsAt op := by
  simpa using opcodeCell_ofNat_standsAt op.toNat op.isLt

end Sys2Proof
end

