-- ==== Sys2Proof/Laws/Scheduler.lean ====
section
/-! SUPPORT. The CPU step and the scheduler: what a fetch, a step, a tick and the stall loop can do, that they keep every
field in range, and that the stall loop ends. -/

namespace Sys2Proof.Machine

/-! ### The ranges through bus accesses -/

theorem State.MemoriesSized.congr {s t : State} (h : s.MemoriesSized) (hr : t.ram = s.ram) (hc : t.cart = s.cart) :
    t.MemoriesSized := by
  obtain ⟨h1, h2, h3⟩ := h
  exact ⟨hr ▸ h1, hc ▸ h2, hc ▸ h3⟩

theorem State.inRange_iff (s : State) :
    s.InRange ↔ s.MemoriesSized ∧ s.ppu.inRange = true ∧ s.apu.Good := by
  rw [Apu.good_iff]
  constructor
  · intro h
    exact ⟨h.memories, h.ppu, h.apu, h.silent, h.dmcAddr, h.dmcSample⟩
  · rintro ⟨h1, h2, h3, h4, h5, h6⟩
    exact ⟨h1, h2, h3, h4, h5, h6⟩

theorem ppuWrite_memories {a : BitVec 14} {d : Byte} {s : State} (h : s.MemoriesSized) :
    (ppuWrite a d s).MemoriesSized := by
  unfold ppuWrite
  split
  · next ha =>
    split
    · exact ⟨h.ram, h.prg, Memory.sized_write d (by omega) h.chr⟩
    · exact h
  · split
    · exact h.congr rfl rfl
    · exact h.congr rfl rfl

theorem busWrite_memories {a : Word} {d : Byte} {s : State} (h : s.MemoriesSized) :
    (busWrite a d s).MemoriesSized := by
  cases e : busTarget a with
  | ram o =>
    rw [busWrite_of_ram e]
    refine ⟨Memory.sized_write d ?_ h.ram, h.prg, h.chr⟩
    rcases busTarget_cases a with h' | h' | h' | h' | h' | h' | h' | h' | h' <;> simp_all
    omega
  | oamDma =>
    rw [busWrite_of_oamDma e]
    exact h.congr (oamDma_ram d s) (oamDma_cart d s)
  | ppu r =>
    simp only [busWrite, e]
    cases r with
    | ppudata => exact (ppuWrite_memories (a := s.ppu.dataAddr) (d := d) h).congr rfl rfl
    | ppuctrl | ppumask | ppustatus | oamaddr | oamdata | ppuscroll | ppuaddr => exact h.congr rfl rfl
  | apu o | apuStatus | port1 | port2 | unmapped | prg o =>
    simp only [busWrite, e]
    exact h.congr rfl rfl

/-- Reads and writes of the bus keep every field in range, and every instruction does. -/
theorem inRange_busInvariant : BusInvariant (fun _ => True) State.InRange where
  cpu s c _ _ _ _ _ _ h := by
    rw [State.inRange_iff] at *
    exact ⟨h.1.congr rfl rfl, h.2⟩
  read a s h := by
    rw [State.inRange_iff] at *
    exact ⟨h.1.congr (busRead_ram_kept a s) (busRead_cart a s), by rw [busRead_ppu_inRange]; exact h.2.1,
      busRead_good a h.2.2⟩
  write a d s _ h := by
    rw [State.inRange_iff] at *
    exact ⟨busWrite_memories h.1, busWrite_ppu_inRange h.2.1, busWrite_good a d h.2.2⟩

/-- No instruction changes the stall, the halt or the fault report. -/
theorem hidden_busInvariant (s0 : State) :
    BusInvariant (fun _ => True) fun s => s.cpu.stall = s0.cpu.stall ∧ s.cpu.halted = s0.cpu.halted ∧
      s.cpu.faultPc = s0.cpu.faultPc ∧ s.cpu.faultOpcode = s0.cpu.faultOpcode where
  cpu _ _ _ h2 h3 _ h5 h6 h := ⟨h2.trans h.1, h3.trans h.2.1, h5.trans h.2.2.1, h6.trans h.2.2.2⟩
  read a s h := by rw [busRead_cpu]; exact h
  write a d s _ h := by
    obtain ⟨n, o, e⟩ := busWrite_cpu a d s
    rw [e]
    exact h

/-- No instruction changes PRG ROM, the mirroring or CHR ROM (20_memory R78-R80). -/
theorem rom_busInvariant (s0 : State) :
    BusInvariant (fun _ => True) fun s => s.cart.prg = s0.cart.prg ∧ s.cart.prgSize = s0.cart.prgSize ∧
      s.cart.mirroring = s0.cart.mirroring ∧ s.cart.chrIsRam = s0.cart.chrIsRam ∧
      (s0.cart.chrIsRam = false → s.cart.chr = s0.cart.chr) where
  cpu _ _ _ _ _ _ _ _ h := h
  read a s h := by rw [busRead_cart]; exact h
  write a d s _ h := by
    obtain ⟨c, e, hc⟩ := busWrite_cart a d s
    rw [e]
    exact ⟨h.1, h.2.1, h.2.2.1, h.2.2.2.1, fun h0 => (hc (h.2.2.2.1.trans h0)).trans (h.2.2.2.2 h0)⟩

/-- No access of the bus moves a dot or ends a frame. -/
theorem busWrite_position (a : Word) (d : Byte) (s : State) :
    (busWrite a d s).ppu.scanline = s.ppu.scanline ∧ (busWrite a d s).ppu.dot = s.ppu.dot ∧
      (busWrite a d s).ppu.frameComplete = s.ppu.frameComplete := by
  cases e : busTarget a with
  | oamDma =>
    rw [busWrite_of_oamDma e]
    have hb : ∀ (s : State) (i : Nat),
        ((oamDmaByte d s i).ppu.scanline, (oamDmaByte d s i).ppu.dot, (oamDmaByte d s i).ppu.frameComplete) =
          (s.ppu.scanline, s.ppu.dot, s.ppu.frameComplete) := by
      intro s i
      obtain ⟨-, -, -, -, h1, h2, h3, -⟩ := busRead_ppu_kept (wordOf (BitVec.ofNat 8 i) d) s
      simp only [oamDmaByte, State.mapPpu_ppu, h1, h2, h3]
    have hf := foldl_keeps (oamDmaByte d)
      (fun s : State => (s.ppu.scanline, s.ppu.dot, s.ppu.frameComplete)) hb (List.range 256) s
    simp only [Prod.mk.injEq] at hf
    simpa only [oamDma, State.mapCpu_ppu] using hf
  | ppu r =>
    simp only [busWrite, e]
    cases r with
    | ppudata =>
      simp only [ppuRegWrite, State.mapPpu_ppu, Ppu.bumpV]
      unfold ppuWrite
      repeat' split
      all_goals exact ⟨rfl, rfl, rfl⟩
    | ppuscroll =>
      simp only [ppuRegWrite, State.mapPpu_ppu, Ppu.writeScroll]
      split <;> exact ⟨rfl, rfl, rfl⟩
    | ppuaddr =>
      simp only [ppuRegWrite, State.mapPpu_ppu, Ppu.writeAddr]
      split <;> exact ⟨rfl, rfl, rfl⟩
    | ppuctrl | ppumask | ppustatus | oamaddr | oamdata => exact ⟨rfl, rfl, rfl⟩
  | ram o | apu o | apuStatus | port1 | port2 | unmapped | prg o =>
    simp only [busWrite, e, State.mapApu_ppu, State.mapPads_ppu, and_self]

/-- No instruction moves a dot or ends a frame. -/
theorem position_busInvariant (s0 : State) : BusInvariant (fun _ => True) fun t =>
    t.ppu.scanline = s0.ppu.scanline ∧ t.ppu.dot = s0.ppu.dot ∧ t.ppu.frameComplete = s0.ppu.frameComplete where
  cpu _ _ _ _ _ _ _ _ h := h
  read a s h := by
    obtain ⟨-, -, -, -, h1, h2, h3, -⟩ := busRead_ppu_kept a s
    exact ⟨h1.trans h.1, h2.trans h.2.1, h3.trans h.2.2⟩
  write a d s _ h := by
    have k := busWrite_position a d s
    exact ⟨k.1.trans h.1, k.2.1.trans h.2.1, k.2.2.trans h.2.2⟩

/-! ### The CPU step -/

/-- What a fetch reads changes what one to three bus reads change. -/
theorem fetch_busInvariant {A : Word → Prop} {P : State → Prop} (h : BusInvariant A P) {s : State} (hs : P s) :
    match fetch s with
    | .instr _ t => P t
    | .illegal _ t => P t := by
  cases hc : opcodeCell (busRead s.cpu.pc s).1 <;> simp only [fetch, hc]
  · exact h.read _ _ hs
  · exact h.read _ _ hs
  · exact h.read _ _ (h.read _ _ hs)
  · exact h.read _ _ (h.read _ _ (h.read _ _ hs))

/-- A fetch leaves the CPU registers. -/
theorem fetch_cpu (s : State) :
    match fetch s with
    | .instr _ t => t.cpu = s.cpu
    | .illegal _ t => t.cpu = s.cpu := by
  cases hc : opcodeCell (busRead s.cpu.pc s).1 <;> simp [fetch, hc]

/-- Everything a CPU step that goes on can be (35_execution R170). -/
theorem cpuStep_cases {s t : State} (h : cpuStep s = .next t) :
    ∃ u, t = endStep u ∧ s.cpu.halted = false ∧
      (poll s = .nmi ∧ u = enterNmi s ∨ poll s = .irq ∧ u = enterIrq s ∨
        poll s = .none ∧ ∃ i s', fetch s = .instr i s' ∧ exec i s' = .next u) := by
  unfold cpuStep at h
  split at h
  · cases h
  · next hh =>
    have hh : s.cpu.halted = false := by simpa using hh
    cases hp : poll s with
    | nmi =>
      rw [hp] at h
      cases h
      exact ⟨_, rfl, hh, .inl ⟨rfl, rfl⟩⟩
    | irq =>
      rw [hp] at h
      cases h
      exact ⟨_, rfl, hh, .inr (.inl ⟨rfl, rfl⟩)⟩
    | none =>
      rw [hp] at h
      simp only [executeOne] at h
      cases hf : fetch s with
      | illegal op s' => simp [hf] at h
      | instr i s' =>
        obtain ⟨u, hu⟩ := (exec_shape i s').next
        simp only [hf, hu, finishStep] at h
        cases h
        exact ⟨u, rfl, hh, .inr (.inr ⟨rfl, i, s', rfl, hu⟩)⟩

/-- A CPU step answers a next state or the decode fault, never a refusal (00_scope R9). -/
theorem cpuStep_outcome (s : State) : (∃ t, cpuStep s = .next t) ∨ ∃ pc op, cpuStep s = .fault (.decodeError pc op) := by
  unfold cpuStep
  split
  · exact .inr ⟨_, _, rfl⟩
  · split
    · exact .inl ⟨_, rfl⟩
    · exact .inl ⟨_, rfl⟩
    · unfold executeOne
      cases hf : fetch s with
      | illegal op s' => exact .inr ⟨_, _, rfl⟩
      | instr i s' =>
        obtain ⟨u, hu⟩ := (exec_shape i s').next
        exact .inl ⟨endStep u, by simp only [hu, finishStep]⟩

/-- The report of a decode fault is what the halted state holds (60_exceptions R410). -/
theorem cpuStep_fault {s : State} {pc : Word} {op : Byte} (h : cpuStep s = .fault (.decodeError pc op)) :
    (haltedState s).cpu.halted = true ∧ (haltedState s).cpu.faultPc = pc ∧ (haltedState s).cpu.faultOpcode = op := by
  unfold cpuStep at h
  unfold haltedState
  split at h
  · next hh =>
    cases h
    rw [if_pos hh]
    exact ⟨hh, rfl, rfl⟩
  · next hh =>
    rw [if_neg hh]
    split at h
    · cases h
    · cases h
    · unfold executeOne at h
      cases hf : fetch s with
      | illegal opcode s' =>
        rw [hf] at h
        cases h
        exact ⟨rfl, rfl, rfl⟩
      | instr i s' =>
        obtain ⟨u, hu⟩ := (exec_shape i s').next
        rw [hf] at h
        simp only [hu, finishStep] at h
        cases h

/-- What reads and writes of the bus keep, and the clearing of the NMI latch and the end of the step, a CPU step
keeps. -/
theorem cpuStep_inRange {s t : State} (hs : s.InRange) (h : cpuStep s = .next t) : t.InRange := by
  have hb := inRange_busInvariant
  have hcpu : ∀ (s : State) (f : Cpu → Cpu), s.InRange → (s.mapCpu f).InRange := fun s f h => by
    rw [State.inRange_iff] at *
    exact ⟨h.1.congr rfl rfl, h.2⟩
  obtain ⟨u, rfl, -, hu⟩ := cpuStep_cases h
  have hu : u.InRange := by
    rcases hu with ⟨-, rfl⟩ | ⟨-, rfl⟩ | ⟨-, i, s', hf, hx⟩
    · exact hb.spend _ (hb.enterException _ _ _ trivial trivial trivial (hcpu _ _ hs))
    · exact hb.spend _ (hb.enterException _ _ _ trivial trivial trivial hs)
    · have := fetch_busInvariant hb hs
      rw [hf] at this
      exact hb.exec (fun _ _ => trivial) this hx
  unfold endStep
  split
  · exact hcpu _ _ hu
  · exact hu

/-- A CPU step moves no dot and ends no frame. -/
theorem cpuStep_position {s t : State} (h : cpuStep s = .next t) :
    t.ppu.scanline = s.ppu.scanline ∧ t.ppu.dot = s.ppu.dot ∧ t.ppu.frameComplete = s.ppu.frameComplete := by
  have hb := position_busInvariant s
  obtain ⟨u, rfl, -, hu⟩ := cpuStep_cases h
  have he : (endStep u).ppu = u.ppu := by
    unfold endStep
    split <;> rfl
  rw [he]
  rcases hu with ⟨-, rfl⟩ | ⟨-, rfl⟩ | ⟨-, i, s', hf, hx⟩
  · exact hb.spend _ (hb.enterException _ _ _ trivial trivial trivial (s := s.mapCpu _) ⟨rfl, rfl, rfl⟩)
  · exact hb.spend _ (hb.enterException _ _ _ trivial trivial trivial ⟨rfl, rfl, rfl⟩)
  · have := fetch_busInvariant hb (s := s) ⟨rfl, rfl, rfl⟩
    rw [hf] at this
    exact hb.exec (fun _ _ => trivial) this hx

/-- A CPU step counts at least two cycles (35_execution R176). -/
theorem cpuStep_cycles {s t : State} (h : cpuStep s = .next t) : s.cpu.cycles + 2 ≤ t.cpu.cycles := by
  obtain ⟨u, rfl, -, hu⟩ := cpuStep_cases h
  have he : (endStep u).cpu.cycles = u.cpu.cycles := by
    unfold endStep
    split <;> rfl
  rw [he]
  rcases hu with ⟨-, rfl⟩ | ⟨-, rfl⟩ | ⟨-, i, s', hf, hx⟩
  · rw [enterNmi, spend_cpu_cycles, enterException_eq (by decide) (by decide)]
    simp only [State.mapCpu_cpu]
    omega
  · rw [enterIrq, spend_cpu_cycles, enterException_eq (by decide) (by decide)]
    simp only
    omega
  · have hc := fetch_cpu s
    rw [hf] at hc
    have := (exec_shape i s').cycles hx
    rw [hc] at this
    exact this

/-- After a CPU step no OAM DMA is marked as just started. -/
theorem endStep_dma (s : State) : (endStep s).cpu.oamDmaStarted = false := by
  unfold endStep
  split
  · rfl
  · next h => simpa using h

/-! ### Ticks -/

theorem tick_inRange {s : State} (h : s.InRange) : (tick s).InRange := by
  have hd : ∀ s : State, s.InRange → (stepDot s).InRange := fun s h => by
    rw [State.inRange_iff] at *
    refine ⟨?_, stepDot_inRange h.2.1, ?_⟩
    · rw [stepDot_eq]
      exact h.1.congr rfl rfl
    · rw [stepDot_eq]
      exact h.2.2
  have h := hd _ (hd _ (hd s h))
  unfold tick
  generalize stepDot (stepDot (stepDot s)) = u at h
  rw [State.inRange_iff] at *
  obtain ⟨k1, k2, k3, -⟩ := stepCycle_kept u
  exact ⟨h.1.congr k1 k2, k3 ▸ h.2.1, stepCycle_good h.2.2⟩

theorem ticks_inRange : ∀ (n : Nat) {s : State}, s.InRange → (ticks n s).InRange
  | 0, _, h => h
  | n + 1, _, h => ticks_inRange n (tick_inRange h)

/-- The CPU record after a tick: the NMI latch may be set, the stall may grow. -/
theorem tick_cpu (s : State) : ∃ n k, (tick s).cpu = { s.cpu with nmiPending := n, stall := k } := by
  obtain ⟨k, h⟩ := stepCycle_cpu (stepDot (stepDot (stepDot s)))
  refine ⟨(stepDot (stepDot (stepDot s))).cpu.nmiPending, k, ?_⟩
  rw [tick, h]
  simp only [stepDot_eq]

/-- A tick moves the PPU by three dots. -/
theorem tick_position {s : State} (h : s.ppu.inFrame) :
    (tick s).ppu.inFrame ∧ (tick s).ppu.position = (s.ppu.position + 3) % dotsPerFrame := by
  have h1 := stepDot_position h
  have h2 := stepDot_position h1.1
  have h3 := stepDot_position h2.1
  obtain ⟨-, -, -, k1, k2, -⟩ := stepCycle_kept (stepDot (stepDot (stepDot s)))
  have e : (tick s).ppu.position = (stepDot (stepDot (stepDot s))).ppu.position := by
    simp only [tick, Ppu.position, k1, k2]
  refine ⟨?_, ?_⟩
  · simp only [tick, Ppu.inFrame, k1, k2]
    exact h3.1
  · rw [e, h3.2.1, h2.2.1, h1.2.1]
    simp only [dotsPerFrame]
    omega

/-- A tick moves the PPU on by three dots inside the frame, or ends the frame; it never takes the mark back. -/
theorem tick_frame {s : State} (h : s.ppu.inFrame) :
    (tick s).ppu.frameComplete = true ∨
      (tick s).ppu.frameComplete = s.ppu.frameComplete ∧ (tick s).ppu.position = s.ppu.position + 3 := by
  have h1 := stepDot_position h
  have h2 := stepDot_position h1.1
  have h3 := stepDot_position h2.1
  obtain ⟨-, -, -, k1, k2, k3⟩ := stepCycle_kept (stepDot (stepDot (stepDot s)))
  have e : (tick s).ppu.position = (stepDot (stepDot (stepDot s))).ppu.position := by
    simp only [tick, Ppu.position, k1, k2]
  have e3 : (tick s).ppu.frameComplete = (stepDot (stepDot (stepDot s))).ppu.frameComplete := by
    simp only [tick, k3]
  have hp : s.ppu.position < dotsPerFrame := by
    obtain ⟨b1, b2⟩ := h
    simp only [Ppu.position, dotsPerFrame]
    omega
  rw [e, e3, h3.2.1, h3.2.2, h2.2.1, h2.2.2, h1.2.1, h1.2.2]
  simp only [dotsPerFrame] at *
  by_cases hw : s.ppu.position + 3 < 89342
  · right
    have n1 : ¬s.ppu.position + 1 = 89342 := by omega
    have n2 : ¬(s.ppu.position + 1) % 89342 + 1 = 89342 := by omega
    have n3 : ¬((s.ppu.position + 1) % 89342 + 1) % 89342 + 1 = 89342 := by omega
    simp only [n1, n2, n3, decide_false, Bool.or_false, true_and]
    omega
  · left
    have : s.ppu.position + 1 = 89342 ∨ (s.ppu.position + 1) % 89342 + 1 = 89342 ∨
        ((s.ppu.position + 1) % 89342 + 1) % 89342 + 1 = 89342 := by omega
    simp only [Bool.or_eq_true]
    rcases this with h | h | h
    · exact .inl (.inl (.inr (decide_eq_true h)))
    · exact .inl (.inr (decide_eq_true h))
    · exact .inr (decide_eq_true h)

theorem tick_frame_kept {s : State} (h : s.ppu.inFrame) (hc : s.ppu.frameComplete = true) :
    (tick s).ppu.frameComplete = true := by
  rcases tick_frame h with h' | h'
  · exact h'
  · exact h'.1.trans hc

/-- Ticks move the PPU on inside the frame, or end it. -/
theorem ticks_frame : ∀ (n : Nat) {s : State}, s.ppu.inFrame →
    (ticks n s).ppu.frameComplete = true ∨
      (ticks n s).ppu.frameComplete = s.ppu.frameComplete ∧ (ticks n s).ppu.position = s.ppu.position + 3 * n
  | 0, _, _ => .inr ⟨rfl, rfl⟩
  | n + 1, s, h => by
    have h1 := tick_position h
    rcases ticks_frame n h1.1 with h2 | ⟨h2, h3⟩
    · exact .inl h2
    · rcases tick_frame h with h4 | ⟨h4, h5⟩
      · exact .inl (h2.trans h4)
      · refine .inr ⟨h2.trans h4, ?_⟩
        simp only [ticks]
        rw [h3, h5]
        omega

theorem ticks_position : ∀ (n : Nat) {s : State}, s.ppu.inFrame →
    (ticks n s).ppu.inFrame ∧ (ticks n s).ppu.position = (s.ppu.position + 3 * n) % dotsPerFrame
  | 0, s, h => by
    refine ⟨h, ?_⟩
    obtain ⟨h1, h2⟩ := h
    simp only [ticks, Ppu.position, dotsPerFrame]
    omega
  | n + 1, s, h => by
    have h1 := tick_position h
    have h2 := ticks_position n h1.1
    refine ⟨h2.1, ?_⟩
    simp only [ticks]
    rw [h2.2, h1.2]
    simp only [dotsPerFrame]
    omega

theorem ticks_cpu : ∀ (n : Nat) (s : State), ∃ m k, (ticks n s).cpu = { s.cpu with nmiPending := m, stall := k }
  | 0, s => ⟨s.cpu.nmiPending, s.cpu.stall, rfl⟩
  | n + 1, s => by
    obtain ⟨m, k, h⟩ := tick_cpu s
    obtain ⟨m', k', h'⟩ := ticks_cpu n (tick s)
    exact ⟨m', k', by simp only [ticks, h', h]⟩

/-! ### The stall loop ends -/

/-- Eight while the DMC's buffer is empty. -/
def emptyCost : Bool → Nat
  | true => 0
  | false => 8

/-- What the stall loop uses up: two for each cycle owed, eight while the DMC's buffer is empty, and the bits of its
output byte that are gone. -/
def stallMeasure (s : State) : Nat :=
  2 * s.cpu.stall + emptyCost s.apu.dmc.bufferFull + (8 - s.apu.dmc.bitsLeft)

theorem stallMeasure_lt_fuel (s : State) : stallMeasure s < stallFuel s := by
  unfold stallMeasure stallFuel
  cases s.apu.dmc.bufferFull <;> simp only [emptyCost] <;> omega

theorem sequencerTick_dmc (u : Apu) : u.sequencerTick.dmc = u.dmc := by
  unfold Apu.sequencerTick Apu.fiveStep Apu.fourStep
  repeat' split
  all_goals rfl

/-- The DMC after an APU cycle: its timer ticked, and then it took a byte at the price of four stall cycles, or not. -/
theorem stepCycle_dmc (s : State) :
    (stepCycle s).apu.dmc.bitsLeft = s.apu.dmc.tick.bitsLeft ∧
      ((stepCycle s).cpu.stall = s.cpu.stall + 4 ∧ s.apu.dmc.tick.bufferFull = false ∧
          (stepCycle s).apu.dmc.bufferFull = true ∨
        (stepCycle s).cpu.stall = s.cpu.stall ∧
          (stepCycle s).apu.dmc.bufferFull = s.apu.dmc.tick.bufferFull) := by
  have h2 : (s.mapApu fun u => u.sequencerTick.timersTick).apu.dmc = s.apu.dmc.tick := by
    simp only [State.mapApu_apu, Apu.timersTick, sequencerTick_dmc]
  have h3 : (stepCycle s).apu.dmc = (dmcReaderTick (s.mapApu fun u => u.sequencerTick.timersTick)).apu.dmc := rfl
  have h4 : (stepCycle s).cpu = (dmcReaderTick (s.mapApu fun u => u.sequencerTick.timersTick)).cpu := rfl
  rw [h3, h4, dmcReaderTick_cpu, h2]
  by_cases hf : s.apu.dmc.tick.bufferFull = false ∧ s.apu.dmc.tick.remaining ≠ 0
  · rw [if_pos hf]
    unfold dmcReaderTick
    rw [h2, if_pos hf]
    exact ⟨(dmc_take_bitsLeft _ _).1, .inl ⟨rfl, hf.1, (dmc_take_bitsLeft _ _).2⟩⟩
  · rw [if_neg hf]
    unfold dmcReaderTick
    rw [h2, if_neg hf, h2]
    exact ⟨rfl, .inr ⟨rfl, rfl⟩⟩

/-- An APU cycle adds at most one to the measure. -/
theorem stepCycle_measure (s : State) : stallMeasure (stepCycle s) ≤ stallMeasure s + 1 := by
  obtain ⟨hb, hc⟩ := stepCycle_dmc s
  obtain ⟨-, -, -, hk⟩ := dmc_tick_kept s.apu.dmc
  unfold stallMeasure
  rw [hb]
  rcases hc with ⟨e1, e2, e3⟩ | ⟨e1, e2⟩ <;> rcases hk with ⟨k1, k2⟩ | ⟨k0, k1, k2⟩ | ⟨k0, k1, k2⟩
  · rw [e1, e3, k1, ← k2, e2]
    simp only [emptyCost]
    omega
  · rw [e1, e3, k1]
    cases s.apu.dmc.bufferFull <;> simp only [emptyCost] <;> omega
  · rw [e1, e3, k1, ← k2, e2]
    simp only [emptyCost]
    omega
  · rw [e1, e2, k1, k2]
    omega
  · rw [e1, e2, k1, k2]
    cases s.apu.dmc.bufferFull <;> simp only [emptyCost] <;> omega
  · rw [e1, e2, k1, k2]
    omega

theorem stepDot_measure (s : State) : stallMeasure (stepDot s) = stallMeasure s := by
  rw [stepDot_eq]
  rfl

/-- A stall cycle uses up some of the measure. -/
theorem stallTick_measure {s : State} (h : s.cpu.stall ≠ 0) : stallMeasure (stallTick s) < stallMeasure s := by
  have h1 : stallMeasure (s.mapCpu fun c => { c with stall := c.stall - 1, cycles := c.cycles + 1 }) + 2 =
      stallMeasure s := by
    simp only [stallMeasure, State.mapCpu_cpu, State.mapCpu_apu]
    omega
  have h2 := stepCycle_measure (stepDot (stepDot (stepDot (s.mapCpu fun c =>
    { c with stall := c.stall - 1, cycles := c.cycles + 1 }))))
  simp only [stepDot_measure] at h2
  unfold stallTick tick
  omega

/-- With enough fuel the stall loop drains the stall. -/
theorem runStall_drains : ∀ (fuel : Nat) {s : State}, stallMeasure s < fuel → (runStall fuel s).cpu.stall = 0
  | 0, _, h => absurd h (Nat.not_lt_zero _)
  | fuel + 1, s, h => by
    unfold runStall
    split
    · assumption
    · next hs =>
      have := stallTick_measure hs
      exact runStall_drains fuel (by omega)

/-- What one stall cycle keeps, the stall loop keeps. -/
theorem runStall_invariant {P : State → Prop} (h : ∀ s, s.cpu.stall ≠ 0 → P s → P (stallTick s)) :
    ∀ (fuel : Nat) {s : State}, P s → P (runStall fuel s)
  | 0, _, hs => hs
  | fuel + 1, s, hs => by
    unfold runStall
    split
    · exact hs
    · next hn => exact runStall_invariant h fuel (h s hn hs)

theorem stallTick_inRange {s : State} (h : s.InRange) : (stallTick s).InRange := by
  refine tick_inRange ?_
  rw [State.inRange_iff] at *
  exact ⟨h.1.congr rfl rfl, h.2⟩

/-- A stall cycle counts one CPU cycle and moves the PPU by three dots. -/
theorem stallTick_position {s : State} (h : s.ppu.inFrame) :
    (stallTick s).ppu.inFrame ∧ (stallTick s).ppu.position = (s.ppu.position + 3) % dotsPerFrame ∧
      (stallTick s).cpu.cycles = s.cpu.cycles + 1 := by
  have h1 := tick_position (s := s.mapCpu fun c => { c with stall := c.stall - 1, cycles := c.cycles + 1 }) h
  obtain ⟨n, k, e⟩ := tick_cpu (s.mapCpu fun c => { c with stall := c.stall - 1, cycles := c.cycles + 1 })
  refine ⟨h1.1, h1.2, ?_⟩
  rw [stallTick, e]
  rfl

/-- The CPU record after the stall loop: the NMI latch, the stall and the cycle count may have changed. -/
theorem applyStall_cpu (s : State) :
    ∃ n k c, (applyStall s).cpu = { s.cpu with nmiPending := n, stall := k, cycles := c } := by
  refine runStall_invariant (P := fun t => ∃ n k c, t.cpu = { s.cpu with nmiPending := n, stall := k, cycles := c })
    ?_ _ ⟨_, _, _, rfl⟩
  rintro t - ⟨n, k, c, e⟩
  obtain ⟨n', k', e'⟩ := tick_cpu (t.mapCpu fun c => { c with stall := c.stall - 1, cycles := c.cycles + 1 })
  exact ⟨n', k', _, by rw [stallTick, e', State.mapCpu_cpu, e]⟩

theorem applyStall_stall (s : State) : (applyStall s).cpu.stall = 0 := runStall_drains _ (stallMeasure_lt_fuel s)

/-! ### A pass -/

/-- Everything a pass that goes on can be (67 R585). -/
theorem schedulerPass_cases {s u : State} (h : schedulerPass s = .next u) :
    ∃ t, cpuStep s = .next t ∧ u = distribute s t := by
  unfold schedulerPass at h
  split at h
  · next t ht =>
    cases h
    exact ⟨t, ht, rfl⟩
  · cases h
  · cases h

theorem distribute_inRange {s t : State} (h : t.InRange) : (distribute s t).InRange :=
  runStall_invariant (P := State.InRange) (fun _ _ h => stallTick_inRange h) _ (ticks_inRange _ h)

/-- The CPU record after a pass, beside the NMI latch, the stall and the cycle count, is the CPU step's. -/
theorem distribute_cpu (s t : State) :
    ∃ n k c, (distribute s t).cpu = { t.cpu with nmiPending := n, stall := k, cycles := c } := by
  obtain ⟨n, k, c, e⟩ := applyStall_cpu (ticks (t.cpu.cycles - s.cpu.cycles) t)
  obtain ⟨n', k', e'⟩ := ticks_cpu (t.cpu.cycles - s.cpu.cycles) t
  exact ⟨n, k, c, by rw [distribute, e, e']⟩

/-- The stall loop moves the PPU by three dots for each cycle it counts. -/
theorem applyStall_position {s : State} (h : s.ppu.inFrame) :
    (applyStall s).ppu.inFrame ∧ s.cpu.cycles ≤ (applyStall s).cpu.cycles ∧
      (applyStall s).ppu.position =
        (s.ppu.position + 3 * ((applyStall s).cpu.cycles - s.cpu.cycles)) % dotsPerFrame := by
  have hp : s.ppu.position < dotsPerFrame := by
    obtain ⟨b1, b2⟩ := h
    simp only [Ppu.position, dotsPerFrame]
    omega
  refine runStall_invariant (P := fun t => t.ppu.inFrame ∧ s.cpu.cycles ≤ t.cpu.cycles ∧
    t.ppu.position = (s.ppu.position + 3 * (t.cpu.cycles - s.cpu.cycles)) % dotsPerFrame) ?_ _
    ⟨h, Nat.le_refl _, by rw [Nat.sub_self, Nat.mul_zero, Nat.add_zero, Nat.mod_eq_of_lt hp]⟩
  rintro t - ⟨h1, h2, h3⟩
  have k := stallTick_position h1
  refine ⟨k.1, by omega, ?_⟩
  rw [k.2.1, k.2.2, h3, Nat.mod_add_mod]
  congr 1
  omega

/-- The stall loop never takes the end of a frame back, and does not move the position back inside it. -/
theorem applyStall_frame {s : State} (h : s.ppu.inFrame) :
    (applyStall s).ppu.frameComplete = true ∨
      (applyStall s).ppu.frameComplete = s.ppu.frameComplete ∧ s.ppu.position ≤ (applyStall s).ppu.position := by
  have k := runStall_invariant (P := fun t => t.ppu.inFrame ∧ (t.ppu.frameComplete = true ∨
    t.ppu.frameComplete = s.ppu.frameComplete ∧ s.ppu.position ≤ t.ppu.position)) (s := s) ?_ (stallFuel s)
    ⟨h, .inr ⟨rfl, Nat.le_refl _⟩⟩
  · exact k.2
  · rintro t - ⟨h1, h2⟩
    refine ⟨(stallTick_position h1).1, ?_⟩
    rcases tick_frame (s := t.mapCpu fun c => { c with stall := c.stall - 1, cycles := c.cycles + 1 }) h1 with h3 | h3
    · exact .inl h3
    · rcases h2 with h2 | h2
      · exact .inl (h3.1.trans h2)
      · exact .inr ⟨h3.1.trans h2.1, Nat.le_trans h2.2 (by rw [stallTick, h3.2]; exact Nat.le_add_right _ _)⟩

/-- A pass inside a frame ends the frame or moves the PPU on by at least six dots (67 R585). -/
theorem schedulerPass_frame {s u : State} (h : s.ppu.inFrame) (hs : schedulerPass s = .next u) :
    u.ppu.inFrame ∧ (u.ppu.frameComplete = true ∨
      u.ppu.frameComplete = s.ppu.frameComplete ∧ s.ppu.position + 6 ≤ u.ppu.position) := by
  obtain ⟨t, ht, rfl⟩ := schedulerPass_cases hs
  obtain ⟨p1, p2, p3⟩ := cpuStep_position ht
  have hc := cpuStep_cycles ht
  have h0 : t.ppu.inFrame := by simpa only [Ppu.inFrame, p1, p2] using h
  have e0 : t.ppu.position = s.ppu.position := by simp only [Ppu.position, p1, p2]
  have h1 := ticks_position (t.cpu.cycles - s.cpu.cycles) h0
  refine ⟨(applyStall_position h1.1).1, ?_⟩
  rcases applyStall_frame h1.1 with h2 | ⟨h2, h3⟩
  · exact .inl h2
  · rcases ticks_frame (t.cpu.cycles - s.cpu.cycles) h0 with h4 | ⟨h4, h5⟩
    · exact .inl (h2.trans h4)
    · exact .inr ⟨h2.trans (h4.trans p3), by rw [distribute]; omega⟩

end Sys2Proof.Machine
end

