-- ==== Sys2Proof/Tests/Slice0.lean ====
section
/-! SUPPORT. Tests. The words come from the Encoding line of each instruction's rule; the CPU vectors V1-V86 and the
device vectors PV, DV, AV, KV and HV are those of 95_test_vectors, whose values were computed by hand from the rules.
The last part gives, for each obligation with hypotheses, states and operands that meet them. -/

namespace Sys2Proof.Tests

open Sys2Proof.Machine

/-! ### WellFormed -/

/-- The eight branches with a displacement. -/
def branches (d : Int) : List Instr := [.bcc d, .bcs d, .beq d, .bmi d, .bne d, .bpl d, .bvc d, .bvs d]

/-- R122: a displacement above 127 is refused. -/
theorem test_wellFormed_refuses_above : (branches 128).all (fun i => !i.wellFormed) = true := by decide

/-- R122: a displacement below -128 is refused. -/
theorem test_wellFormed_refuses_below : (branches (-129)).all (fun i => !i.wellFormed) = true := by decide

/-- R122: both ends of the range are accepted. -/
theorem test_wellFormed_accepts_ends : (branches 127 ++ branches (-128)).all Instr.wellFormed = true := by decide

/-! ### Decoding -/

/-- Each word decodes to its instruction, and the instruction is encoded by the word. The words below are written from
the Encoding lines of the rules, with operand bytes 0x9C, 0x34 0x12, and 0xFB for the displacement -5. -/
def encodesAs (l : List (List Byte × Instr)) : Bool :=
  l.all fun w => decide (decode w.1 = some (w.2, []) ∧ encode w.2 = w.1)

theorem test_decode_load_store_1 : encodesAs
  [([0xA9, 0x9C], .ldaImm 0x9C),
   ([0xA5, 0x9C], .ldaZp 0x9C),
   ([0xB5, 0x9C], .ldaZpx 0x9C),
   ([0xAD, 0x34, 0x12], .ldaAbs 0x1234),
   ([0xBD, 0x34, 0x12], .ldaAbsx 0x1234),
   ([0xB9, 0x34, 0x12], .ldaAbsy 0x1234),
   ([0xA1, 0x9C], .ldaIzx 0x9C),
   ([0xB1, 0x9C], .ldaIzy 0x9C),
   ([0xA2, 0x9C], .ldxImm 0x9C),
   ([0xA6, 0x9C], .ldxZp 0x9C),
   ([0xB6, 0x9C], .ldxZpy 0x9C),
   ([0xAE, 0x34, 0x12], .ldxAbs 0x1234),
   ([0xBE, 0x34, 0x12], .ldxAbsy 0x1234),
   ([0xA0, 0x9C], .ldyImm 0x9C),
   ([0xA4, 0x9C], .ldyZp 0x9C),
   ([0xB4, 0x9C], .ldyZpx 0x9C)] = true := by decide

theorem test_decode_load_store_2 : encodesAs
  [([0xAC, 0x34, 0x12], .ldyAbs 0x1234),
   ([0xBC, 0x34, 0x12], .ldyAbsx 0x1234),
   ([0x85, 0x9C], .staZp 0x9C),
   ([0x95, 0x9C], .staZpx 0x9C),
   ([0x8D, 0x34, 0x12], .staAbs 0x1234),
   ([0x9D, 0x34, 0x12], .staAbsx 0x1234),
   ([0x99, 0x34, 0x12], .staAbsy 0x1234),
   ([0x81, 0x9C], .staIzx 0x9C),
   ([0x91, 0x9C], .staIzy 0x9C),
   ([0x86, 0x9C], .stxZp 0x9C),
   ([0x96, 0x9C], .stxZpy 0x9C),
   ([0x8E, 0x34, 0x12], .stxAbs 0x1234),
   ([0x84, 0x9C], .styZp 0x9C),
   ([0x94, 0x9C], .styZpx 0x9C),
   ([0x8C, 0x34, 0x12], .styAbs 0x1234)] = true := by decide

theorem test_decode_transfer_stack_1 : encodesAs
  [([0xAA], .tax),
   ([0xA8], .tay),
   ([0x8A], .txa),
   ([0x98], .tya),
   ([0xBA], .tsx),
   ([0x9A], .txs),
   ([0x48], .pha),
   ([0x08], .php),
   ([0x68], .pla),
   ([0x28], .plp)] = true := by decide

theorem test_decode_arithmetic_logic_1 : encodesAs
  [([0x69, 0x9C], .adcImm 0x9C),
   ([0x65, 0x9C], .adcZp 0x9C),
   ([0x75, 0x9C], .adcZpx 0x9C),
   ([0x6D, 0x34, 0x12], .adcAbs 0x1234),
   ([0x7D, 0x34, 0x12], .adcAbsx 0x1234),
   ([0x79, 0x34, 0x12], .adcAbsy 0x1234),
   ([0x61, 0x9C], .adcIzx 0x9C),
   ([0x71, 0x9C], .adcIzy 0x9C),
   ([0xE9, 0x9C], .sbcImm 0x9C),
   ([0xE5, 0x9C], .sbcZp 0x9C),
   ([0xF5, 0x9C], .sbcZpx 0x9C),
   ([0xED, 0x34, 0x12], .sbcAbs 0x1234),
   ([0xFD, 0x34, 0x12], .sbcAbsx 0x1234),
   ([0xF9, 0x34, 0x12], .sbcAbsy 0x1234),
   ([0xE1, 0x9C], .sbcIzx 0x9C),
   ([0xF1, 0x9C], .sbcIzy 0x9C)] = true := by decide

theorem test_decode_arithmetic_logic_2 : encodesAs
  [([0x29, 0x9C], .andImm 0x9C),
   ([0x25, 0x9C], .andZp 0x9C),
   ([0x35, 0x9C], .andZpx 0x9C),
   ([0x2D, 0x34, 0x12], .andAbs 0x1234),
   ([0x3D, 0x34, 0x12], .andAbsx 0x1234),
   ([0x39, 0x34, 0x12], .andAbsy 0x1234),
   ([0x21, 0x9C], .andIzx 0x9C),
   ([0x31, 0x9C], .andIzy 0x9C),
   ([0x09, 0x9C], .oraImm 0x9C),
   ([0x05, 0x9C], .oraZp 0x9C),
   ([0x15, 0x9C], .oraZpx 0x9C),
   ([0x0D, 0x34, 0x12], .oraAbs 0x1234),
   ([0x1D, 0x34, 0x12], .oraAbsx 0x1234),
   ([0x19, 0x34, 0x12], .oraAbsy 0x1234),
   ([0x01, 0x9C], .oraIzx 0x9C),
   ([0x11, 0x9C], .oraIzy 0x9C)] = true := by decide

theorem test_decode_arithmetic_logic_3 : encodesAs
  [([0x49, 0x9C], .eorImm 0x9C),
   ([0x45, 0x9C], .eorZp 0x9C),
   ([0x55, 0x9C], .eorZpx 0x9C),
   ([0x4D, 0x34, 0x12], .eorAbs 0x1234),
   ([0x5D, 0x34, 0x12], .eorAbsx 0x1234),
   ([0x59, 0x34, 0x12], .eorAbsy 0x1234),
   ([0x41, 0x9C], .eorIzx 0x9C),
   ([0x51, 0x9C], .eorIzy 0x9C),
   ([0x24, 0x9C], .bitZp 0x9C),
   ([0x2C, 0x34, 0x12], .bitAbs 0x1234),
   ([0xC9, 0x9C], .cmpImm 0x9C),
   ([0xC5, 0x9C], .cmpZp 0x9C),
   ([0xD5, 0x9C], .cmpZpx 0x9C),
   ([0xCD, 0x34, 0x12], .cmpAbs 0x1234),
   ([0xDD, 0x34, 0x12], .cmpAbsx 0x1234),
   ([0xD9, 0x34, 0x12], .cmpAbsy 0x1234)] = true := by decide

theorem test_decode_arithmetic_logic_4 : encodesAs
  [([0xC1, 0x9C], .cmpIzx 0x9C),
   ([0xD1, 0x9C], .cmpIzy 0x9C),
   ([0xE0, 0x9C], .cpxImm 0x9C),
   ([0xE4, 0x9C], .cpxZp 0x9C),
   ([0xEC, 0x34, 0x12], .cpxAbs 0x1234),
   ([0xC0, 0x9C], .cpyImm 0x9C),
   ([0xC4, 0x9C], .cpyZp 0x9C),
   ([0xCC, 0x34, 0x12], .cpyAbs 0x1234)] = true := by decide

theorem test_decode_inc_dec_shift_1 : encodesAs
  [([0xE6, 0x9C], .incZp 0x9C),
   ([0xF6, 0x9C], .incZpx 0x9C),
   ([0xEE, 0x34, 0x12], .incAbs 0x1234),
   ([0xFE, 0x34, 0x12], .incAbsx 0x1234),
   ([0xC6, 0x9C], .decZp 0x9C),
   ([0xD6, 0x9C], .decZpx 0x9C),
   ([0xCE, 0x34, 0x12], .decAbs 0x1234),
   ([0xDE, 0x34, 0x12], .decAbsx 0x1234),
   ([0xE8], .inx),
   ([0xC8], .iny),
   ([0xCA], .dex),
   ([0x88], .dey),
   ([0x0A], .aslAcc),
   ([0x06, 0x9C], .aslZp 0x9C),
   ([0x16, 0x9C], .aslZpx 0x9C),
   ([0x0E, 0x34, 0x12], .aslAbs 0x1234)] = true := by decide

theorem test_decode_inc_dec_shift_2 : encodesAs
  [([0x1E, 0x34, 0x12], .aslAbsx 0x1234),
   ([0x4A], .lsrAcc),
   ([0x46, 0x9C], .lsrZp 0x9C),
   ([0x56, 0x9C], .lsrZpx 0x9C),
   ([0x4E, 0x34, 0x12], .lsrAbs 0x1234),
   ([0x5E, 0x34, 0x12], .lsrAbsx 0x1234),
   ([0x2A], .rolAcc),
   ([0x26, 0x9C], .rolZp 0x9C),
   ([0x36, 0x9C], .rolZpx 0x9C),
   ([0x2E, 0x34, 0x12], .rolAbs 0x1234),
   ([0x3E, 0x34, 0x12], .rolAbsx 0x1234),
   ([0x6A], .rorAcc),
   ([0x66, 0x9C], .rorZp 0x9C),
   ([0x76, 0x9C], .rorZpx 0x9C),
   ([0x6E, 0x34, 0x12], .rorAbs 0x1234),
   ([0x7E, 0x34, 0x12], .rorAbsx 0x1234)] = true := by decide

theorem test_decode_control_flow_1 : encodesAs
  [([0x4C, 0x34, 0x12], .jmpAbs 0x1234),
   ([0x6C, 0x34, 0x12], .jmpInd 0x1234),
   ([0x20, 0x34, 0x12], .jsr 0x1234),
   ([0x60], .rts),
   ([0x90, 0xFB], .bcc (-5)),
   ([0xB0, 0xFB], .bcs (-5)),
   ([0xF0, 0xFB], .beq (-5)),
   ([0x30, 0xFB], .bmi (-5)),
   ([0xD0, 0xFB], .bne (-5)),
   ([0x10, 0xFB], .bpl (-5)),
   ([0x50, 0xFB], .bvc (-5)),
   ([0x70, 0xFB], .bvs (-5))] = true := by decide

theorem test_decode_flags_system_1 : encodesAs
  [([0x18], .clc),
   ([0x38], .sec),
   ([0x58], .cli),
   ([0x78], .sei),
   ([0xD8], .cld),
   ([0xF8], .sed),
   ([0xB8], .clv),
   ([0x00], .brk),
   ([0x40], .rti),
   ([0xEA], .nop)] = true := by decide

/-- R124: every undocumented byte is refused, by name, whatever follows it. -/
theorem test_decode_illegal :
    (illegalOpcodes.length = 105) ∧ illegalOpcodes.all (fun b =>
      decide (decode [b, 0x12, 0x34] = none ∧ decodeNamed [b, 0x12, 0x34] = .error (.illegalOpcode b))) = true := by
  decide

/-- R120: bytes that end inside an instruction are refused. -/
theorem test_decode_short :
    decodeNamed [0x8D, 0x00] = .error (.missingOperand 0x8D) ∧ decodeNamed [] = .error .empty := by decide

/-- The table's numbering: bit 0 is bit 0 of the first byte. `STA $0200` is 8D 00 02. -/
theorem test_decodeTableWord : decodeTableWord 24 0x02008D = some (.staAbs 0x0200) := by decide

/-- Operand bytes above the given bits are 0. -/
theorem test_decodeTableWord_short : decodeTableWord 8 0x8D = some (.staAbs 0) := by decide

/-! ### One CPU step on a small state -/

/-- The registers a vector starts from; what it does not list is the default of 95_test_vectors. -/
structure Regs where
  a : Byte := 0
  x : Byte := 0
  y : Byte := 0
  sp : Byte := 0xFD
  p : Byte := 0

/-- Bytes placed at addresses of RAM or PRG ROM. -/
def placeCells (l : List (Word × Byte)) (s : State) : State := l.foldl (fun s c => placeByte c.1 c.2 s) s

/-- A machine with this code at PC, these registers, these bytes, and no cycle counted. -/
def bench (pc : Word) (code : List Byte) (r : Regs) (cells : List (Word × Byte)) : State :=
  placeCells cells (placeBytes pc code (State.reset.mapCpu fun c =>
    { c with a := r.a, x := r.x, y := r.y, sp := r.sp, p := unpackP r.p, pc := pc, cycles := 0 }))

/-- With a pending NMI. -/
def withNmi (s : State) : State := s.mapCpu fun c => { c with nmiPending := true }

/-- With an IRQ request. -/
def withIrq (s : State) : State := s.mapApu fun u => { u with frameIrq := true }

/-- A, X, Y, SP and P (with bits 5 and 4 shown as 0), PC, cycles, and the bytes at these addresses. -/
def seen (o : Result) (addrs : List Word) : Option (List Byte × Word × Nat × List Byte) :=
  match o with
  | .next t =>
    some ([t.cpu.a, t.cpu.x, t.cpu.y, t.cpu.sp, packP false t.cpu.p &&& 0xCF], t.cpu.pc, t.cpu.cycles,
      addrs.map fun a => (busRead a t).1)
  | .fault _ | .refused _ => none

/-- The fault a step ends in. -/
def faultOf (o : Result) : Option Fault :=
  match o with
  | .fault r => some r
  | .next _ | .refused _ => none

theorem test_v1_lda_80 :
    seen (cpuStep (bench 0x8000 [0xA9, 0x80] {} [])) [] =
      some ([0x80, 0x00, 0x00, 0xFD, 0x80], 0x8002, 2, []) := by decide

theorem test_v2_lda_00 :
    seen (cpuStep (bench 0x8000 [0xA9, 0x00] { a := 0x55, p := 0x80 } [])) [] =
      some ([0x00, 0x00, 0x00, 0xFD, 0x02], 0x8002, 2, []) := by decide

theorem test_v3_lda_10 :
    seen (cpuStep (bench 0x8000 [0xA5, 0x10] {} [(0x0010, 0x7F)])) [] =
      some ([0x7F, 0x00, 0x00, 0xFD, 0x00], 0x8002, 3, []) := by decide

theorem test_v4_lda_0010_x_no_cross :
    seen (cpuStep (bench 0x8000 [0xBD, 0x10, 0x00] { x := 0x05 } [(0x0015, 0x01)])) [] =
      some ([0x01, 0x05, 0x00, 0xFD, 0x00], 0x8003, 4, []) := by decide

theorem test_v5_lda_00f0_x_cross :
    seen (cpuStep (bench 0x8000 [0xBD, 0xF0, 0x00] { x := 0x20 } [(0x0110, 0x81)])) [] =
      some ([0x81, 0x20, 0x00, 0xFD, 0x80], 0x8003, 5, []) := by decide

theorem test_v6_lda_ffff_x_wraps :
    seen (cpuStep (bench 0x8000 [0xBD, 0xFF, 0xFF] { x := 0x02 } [(0x0001, 0x42)])) [] =
      some ([0x42, 0x02, 0x00, 0xFD, 0x00], 0x8003, 5, []) := by decide

theorem test_v7_lda_ff_x_ptr_wraps :
    seen (cpuStep (bench 0x8000 [0xA1, 0xFF] { x := 0x00 } [(0x00FF, 0x34), (0x0000, 0x02), (0x0234, 0x99)])) [] =
      some ([0x99, 0x00, 0x00, 0xFD, 0x80], 0x8002, 6, []) := by decide

theorem test_v8_lda_20_y_cross :
    seen (cpuStep (bench 0x8000 [0xB1, 0x20] { y := 0x01 } [(0x0020, 0xFF), (0x0021, 0x00), (0x0100, 0x00)])) [] =
      some ([0x00, 0x00, 0x01, 0xFD, 0x02], 0x8002, 6, []) := by decide

theorem test_v9_lda_0800_ram_mirror :
    seen (cpuStep (bench 0x8000 [0xAD, 0x00, 0x08] {} [(0x0000, 0x5A)])) [] =
      some ([0x5A, 0x00, 0x00, 0xFD, 0x00], 0x8003, 4, []) := by decide

theorem test_v10_ldx_ff_y_zp_wraps :
    seen (cpuStep (bench 0x8000 [0xB6, 0xFF] { y := 0x02 } [(0x0001, 0x80)])) [] =
      some ([0x00, 0x80, 0x02, 0xFD, 0x80], 0x8002, 4, []) := by decide

theorem test_v11_ldy_ff :
    seen (cpuStep (bench 0x8000 [0xA0, 0xFF] {} [])) [] =
      some ([0x00, 0x00, 0xFF, 0xFD, 0x80], 0x8002, 2, []) := by decide

theorem test_v12_sta_0200_x_cross_no_penalty :
    seen (cpuStep (bench 0x8000 [0x9D, 0x80, 0x02] { a := 0x11, x := 0xFF, p := 0x82 } [])) [0x037F] =
      some ([0x11, 0xFF, 0x00, 0xFD, 0x82], 0x8003, 5, [0x11]) := by decide

theorem test_v13_sta_20_y :
    seen (cpuStep (bench 0x8000 [0x91, 0x20] { a := 0x22, y := 0x10 } [(0x0020, 0x00), (0x0021, 0x03)])) [0x0310] =
      some ([0x22, 0x00, 0x10, 0xFD, 0x00], 0x8002, 6, [0x22]) := by decide

theorem test_v14_stx_10_y :
    seen (cpuStep (bench 0x8000 [0x96, 0x10] { x := 0x33, y := 0xF5 } [])) [0x0005] =
      some ([0x00, 0x33, 0xF5, 0xFD, 0x00], 0x8002, 4, [0x33]) := by decide

theorem test_v15_sty_0300 :
    seen (cpuStep (bench 0x8000 [0x8C, 0x00, 0x03] { y := 0x44 } [])) [0x0300] =
      some ([0x00, 0x00, 0x44, 0xFD, 0x00], 0x8003, 4, [0x44]) := by decide

theorem test_v16_tax_zero :
    seen (cpuStep (bench 0x8000 [0xAA] { a := 0x00, x := 0x12 } [])) [] =
      some ([0x00, 0x00, 0x00, 0xFD, 0x02], 0x8001, 2, []) := by decide

theorem test_v17_tay :
    seen (cpuStep (bench 0x8000 [0xA8] { a := 0x80 } [])) [] =
      some ([0x80, 0x00, 0x80, 0xFD, 0x80], 0x8001, 2, []) := by decide

theorem test_v18_txa :
    seen (cpuStep (bench 0x8000 [0x8A] { x := 0x01, a := 0x00, p := 0x02 } [])) [] =
      some ([0x01, 0x01, 0x00, 0xFD, 0x00], 0x8001, 2, []) := by decide

theorem test_v19_tya :
    seen (cpuStep (bench 0x8000 [0x98] { y := 0xFE } [])) [] =
      some ([0xFE, 0x00, 0xFE, 0xFD, 0x80], 0x8001, 2, []) := by decide

theorem test_v20_tsx :
    seen (cpuStep (bench 0x8000 [0xBA] { sp := 0x80 } [])) [] =
      some ([0x00, 0x80, 0x00, 0x80, 0x80], 0x8001, 2, []) := by decide

theorem test_v21_txs_no_flags :
    seen (cpuStep (bench 0x8000 [0x9A] { x := 0x00, p := 0x80 } [])) [] =
      some ([0x00, 0x00, 0x00, 0x00, 0x80], 0x8001, 2, []) := by decide

theorem test_v22_pha_sp_wraps :
    seen (cpuStep (bench 0x8000 [0x48] { a := 0x77, sp := 0x00 } [])) [0x0100] =
      some ([0x77, 0x00, 0x00, 0xFF, 0x00], 0x8001, 3, [0x77]) := by decide

theorem test_v23_php :
    seen (cpuStep (bench 0x8000 [0x08] { p := 0x81, sp := 0xFF } [])) [0x01FF] =
      some ([0x00, 0x00, 0x00, 0xFE, 0x81], 0x8001, 3, [0xB1]) := by decide

theorem test_v24_pla_sp_wraps :
    seen (cpuStep (bench 0x8000 [0x68] { sp := 0xFF } [(0x0100, 0x00)])) [] =
      some ([0x00, 0x00, 0x00, 0x00, 0x02], 0x8001, 4, []) := by decide

theorem test_v25_plp_ignores_bits_5_4 :
    seen (cpuStep (bench 0x8000 [0x28] { sp := 0xFC } [(0x01FD, 0xFF)])) [] =
      some ([0x00, 0x00, 0x00, 0xFD, 0xCF], 0x8001, 4, []) := by decide

theorem test_v26_adc_50_signed_overflow :
    seen (cpuStep (bench 0x8000 [0x69, 0x50] { a := 0x50 } [])) [] =
      some ([0xA0, 0x00, 0x00, 0xFD, 0xC0], 0x8002, 2, []) := by decide

theorem test_v27_adc_01_carry_out :
    seen (cpuStep (bench 0x8000 [0x69, 0x01] { a := 0xFF } [])) [] =
      some ([0x00, 0x00, 0x00, 0xFD, 0x03], 0x8002, 2, []) := by decide

theorem test_v28_adc_80_both :
    seen (cpuStep (bench 0x8000 [0x69, 0x80] { a := 0x80 } [])) [] =
      some ([0x00, 0x00, 0x00, 0xFD, 0x43], 0x8002, 2, []) := by decide

theorem test_v29_adc_00_carry_in :
    seen (cpuStep (bench 0x8000 [0x69, 0x00] { a := 0x7F, p := 0x01 } [])) [] =
      some ([0x80, 0x00, 0x00, 0xFD, 0xC0], 0x8002, 2, []) := by decide

theorem test_v30_adc_01_d_1_binary :
    seen (cpuStep (bench 0x8000 [0x69, 0x01] { a := 0x09, p := 0x08 } [])) [] =
      some ([0x0A, 0x00, 0x00, 0xFD, 0x08], 0x8002, 2, []) := by decide

theorem test_v31_adc_0100_y_cross :
    seen (cpuStep (bench 0x8000 [0x79, 0xFF, 0x00] { a := 0x01, y := 0x01 } [(0x0100, 0x01)])) [] =
      some ([0x02, 0x00, 0x01, 0xFD, 0x00], 0x8003, 5, []) := by decide

theorem test_v32_sbc_f0 :
    seen (cpuStep (bench 0x8000 [0xE9, 0xF0] { a := 0x50, p := 0x01 } [])) [] =
      some ([0x60, 0x00, 0x00, 0xFD, 0x00], 0x8002, 2, []) := by decide

theorem test_v33_sbc_b0_overflow :
    seen (cpuStep (bench 0x8000 [0xE9, 0xB0] { a := 0x50, p := 0x01 } [])) [] =
      some ([0xA0, 0x00, 0x00, 0xFD, 0xC0], 0x8002, 2, []) := by decide

theorem test_v34_sbc_01_borrow_out :
    seen (cpuStep (bench 0x8000 [0xE9, 0x01] { a := 0x00, p := 0x01 } [])) [] =
      some ([0xFF, 0x00, 0x00, 0xFD, 0x80], 0x8002, 2, []) := by decide

theorem test_v35_sbc_03_borrow_in :
    seen (cpuStep (bench 0x8000 [0xE9, 0x03] { a := 0x05, p := 0x00 } [])) [] =
      some ([0x01, 0x00, 0x00, 0xFD, 0x01], 0x8002, 2, []) := by decide

theorem test_v36_and_0f :
    seen (cpuStep (bench 0x8000 [0x29, 0x0F] { a := 0xF0 } [])) [] =
      some ([0x00, 0x00, 0x00, 0xFD, 0x02], 0x8002, 2, []) := by decide

theorem test_v37_ora_80 :
    seen (cpuStep (bench 0x8000 [0x09, 0x80] { a := 0x01 } [])) [] =
      some ([0x81, 0x00, 0x00, 0xFD, 0x80], 0x8002, 2, []) := by decide

theorem test_v38_eor_ff :
    seen (cpuStep (bench 0x8000 [0x49, 0xFF] { a := 0xFF } [])) [] =
      some ([0x00, 0x00, 0x00, 0xFD, 0x02], 0x8002, 2, []) := by decide

theorem test_v39_bit_10 :
    seen (cpuStep (bench 0x8000 [0x24, 0x10] { a := 0x3F } [(0x0010, 0xC0)])) [] =
      some ([0x3F, 0x00, 0x00, 0xFD, 0xC2], 0x8002, 3, []) := by decide

theorem test_v40_bit_0010_nonzero :
    seen (cpuStep (bench 0x8000 [0x2C, 0x10, 0x00] { a := 0x01, p := 0xC0 } [(0x0010, 0x01)])) [] =
      some ([0x01, 0x00, 0x00, 0xFD, 0x00], 0x8003, 4, []) := by decide

theorem test_v41_cmp_40_equal :
    seen (cpuStep (bench 0x8000 [0xC9, 0x40] { a := 0x40 } [])) [] =
      some ([0x40, 0x00, 0x00, 0xFD, 0x03], 0x8002, 2, []) := by decide

theorem test_v42_cmp_20_less :
    seen (cpuStep (bench 0x8000 [0xC9, 0x20] { a := 0x10 } [])) [] =
      some ([0x10, 0x00, 0x00, 0xFD, 0x80], 0x8002, 2, []) := by decide

theorem test_v43_cpx_00 :
    seen (cpuStep (bench 0x8000 [0xE0, 0x00] { x := 0x80 } [])) [] =
      some ([0x00, 0x80, 0x00, 0xFD, 0x81], 0x8002, 2, []) := by decide

theorem test_v44_cpy_10_greater :
    seen (cpuStep (bench 0x8000 [0xC4, 0x10] { y := 0x90 } [(0x0010, 0x10)])) [] =
      some ([0x00, 0x00, 0x90, 0xFD, 0x81], 0x8002, 3, []) := by decide

theorem test_v45_inc_10_wraps :
    seen (cpuStep (bench 0x8000 [0xE6, 0x10] {} [(0x0010, 0xFF)])) [0x0010] =
      some ([0x00, 0x00, 0x00, 0xFD, 0x02], 0x8002, 5, [0x00]) := by decide

theorem test_v46_dec_10_wraps :
    seen (cpuStep (bench 0x8000 [0xC6, 0x10] {} [(0x0010, 0x00)])) [0x0010] =
      some ([0x00, 0x00, 0x00, 0xFD, 0x80], 0x8002, 5, [0xFF]) := by decide

theorem test_v47_inc_00f0_x_cross_no_penalty :
    seen (cpuStep (bench 0x8000 [0xFE, 0xF0, 0x00] { x := 0x20 } [(0x0110, 0x7F)])) [0x0110] =
      some ([0x00, 0x20, 0x00, 0xFD, 0x80], 0x8003, 7, [0x80]) := by decide

theorem test_v48_inx_wraps :
    seen (cpuStep (bench 0x8000 [0xE8] { x := 0xFF } [])) [] =
      some ([0x00, 0x00, 0x00, 0xFD, 0x02], 0x8001, 2, []) := by decide

theorem test_v49_iny :
    seen (cpuStep (bench 0x8000 [0xC8] { y := 0x7F } [])) [] =
      some ([0x00, 0x00, 0x80, 0xFD, 0x80], 0x8001, 2, []) := by decide

theorem test_v50_dex :
    seen (cpuStep (bench 0x8000 [0xCA] { x := 0x01 } [])) [] =
      some ([0x00, 0x00, 0x00, 0xFD, 0x02], 0x8001, 2, []) := by decide

theorem test_v51_dey_wraps :
    seen (cpuStep (bench 0x8000 [0x88] { y := 0x00 } [])) [] =
      some ([0x00, 0x00, 0xFF, 0xFD, 0x80], 0x8001, 2, []) := by decide

theorem test_v52_asl_a :
    seen (cpuStep (bench 0x8000 [0x0A] { a := 0x81 } [])) [] =
      some ([0x02, 0x00, 0x00, 0xFD, 0x01], 0x8001, 2, []) := by decide

theorem test_v53_lsr_a :
    seen (cpuStep (bench 0x8000 [0x4A] { a := 0x01 } [])) [] =
      some ([0x00, 0x00, 0x00, 0xFD, 0x03], 0x8001, 2, []) := by decide

theorem test_v54_rol_a_carry_in :
    seen (cpuStep (bench 0x8000 [0x2A] { a := 0x80, p := 0x01 } [])) [] =
      some ([0x01, 0x00, 0x00, 0xFD, 0x01], 0x8001, 2, []) := by decide

theorem test_v55_ror_a_carry_in :
    seen (cpuStep (bench 0x8000 [0x6A] { a := 0x01, p := 0x01 } [])) [] =
      some ([0x80, 0x00, 0x00, 0xFD, 0x81], 0x8001, 2, []) := by decide

theorem test_v56_ror_10 :
    seen (cpuStep (bench 0x8000 [0x66, 0x10] { p := 0x00 } [(0x0010, 0x02)])) [0x0010] =
      some ([0x00, 0x00, 0x00, 0xFD, 0x00], 0x8002, 5, [0x01]) := by decide

theorem test_v57_asl_10_x :
    seen (cpuStep (bench 0x8000 [0x16, 0xF0] { x := 0x20 } [(0x0010, 0x40)])) [0x0010] =
      some ([0x00, 0x20, 0x00, 0xFD, 0x80], 0x8002, 6, [0x80]) := by decide

theorem test_v58_jmp_c000 :
    seen (cpuStep (bench 0x8000 [0x4C, 0x00, 0xC0] {} [])) [] =
      some ([0x00, 0x00, 0x00, 0xFD, 0x00], 0xC000, 3, []) := by decide

theorem test_v59_jmp_02ff_page_bug :
    seen (cpuStep (bench 0x8000 [0x6C, 0xFF, 0x02] {} [(0x02FF, 0x34), (0x0200, 0x90), (0x0300, 0x12)])) [] =
      some ([0x00, 0x00, 0x00, 0xFD, 0x00], 0x9034, 5, []) := by decide

theorem test_v60_jsr_9000 :
    seen (cpuStep (bench 0x8000 [0x20, 0x00, 0x90] { sp := 0xFF } [])) [0x01FF, 0x01FE] =
      some ([0x00, 0x00, 0x00, 0xFD, 0x00], 0x9000, 6, [0x80, 0x02]) := by decide

theorem test_v61_rts :
    seen (cpuStep (bench 0x8000 [0x60] { sp := 0xFD } [(0x01FE, 0x02), (0x01FF, 0x80)])) [] =
      some ([0x00, 0x00, 0x00, 0xFF, 0x00], 0x8003, 6, []) := by decide

theorem test_v62_bne_10_taken :
    seen (cpuStep (bench 0x8000 [0xD0, 0x10] { p := 0x00 } [])) [] =
      some ([0x00, 0x00, 0x00, 0xFD, 0x00], 0x8012, 3, []) := by decide

theorem test_v63_beq_not_taken :
    seen (cpuStep (bench 0x8000 [0xF0, 0x10] { p := 0x00 } [])) [] =
      some ([0x00, 0x00, 0x00, 0xFD, 0x00], 0x8002, 2, []) := by decide

theorem test_v64_bne_20_taken_across_page :
    seen (cpuStep (bench 0x80F0 [0xD0, 0x20] { p := 0x00 } [])) [] =
      some ([0x00, 0x00, 0x00, 0xFD, 0x00], 0x8112, 4, []) := by decide

theorem test_v65_bpl_5_taken :
    seen (cpuStep (bench 0x8008 [0x10, 0xFB] { p := 0x00 } [])) [] =
      some ([0x00, 0x00, 0x00, 0xFD, 0x00], 0x8005, 3, []) := by decide

theorem test_v66_bcs_128_across_page :
    seen (cpuStep (bench 0x8100 [0xB0, 0x80] { p := 0x01 } [])) [] =
      some ([0x00, 0x00, 0x00, 0xFD, 0x01], 0x8082, 4, []) := by decide

theorem test_v67_bmi_not_taken :
    seen (cpuStep (bench 0x8000 [0x30, 0x05] { p := 0x00 } [])) [] =
      some ([0x00, 0x00, 0x00, 0xFD, 0x00], 0x8002, 2, []) := by decide

theorem test_v68_bcc_taken :
    seen (cpuStep (bench 0x8000 [0x90, 0x02] { p := 0x00 } [])) [] =
      some ([0x00, 0x00, 0x00, 0xFD, 0x00], 0x8004, 3, []) := by decide

theorem test_v69_bvc_not_taken :
    seen (cpuStep (bench 0x8000 [0x50, 0x02] { p := 0x40 } [])) [] =
      some ([0x00, 0x00, 0x00, 0xFD, 0x40], 0x8002, 2, []) := by decide

theorem test_v70_bvs_taken :
    seen (cpuStep (bench 0x8000 [0x70, 0x02] { p := 0x40 } [])) [] =
      some ([0x00, 0x00, 0x00, 0xFD, 0x40], 0x8004, 3, []) := by decide

theorem test_v71_beq_0_taken :
    seen (cpuStep (bench 0x8000 [0xF0, 0x00] { p := 0x02 } [])) [] =
      some ([0x00, 0x00, 0x00, 0xFD, 0x02], 0x8002, 3, []) := by decide

theorem test_v72_clc :
    seen (cpuStep (bench 0x8000 [0x18] { p := 0x81 } [])) [] =
      some ([0x00, 0x00, 0x00, 0xFD, 0x80], 0x8001, 2, []) := by decide

theorem test_v73_sec :
    seen (cpuStep (bench 0x8000 [0x38] {} [])) [] =
      some ([0x00, 0x00, 0x00, 0xFD, 0x01], 0x8001, 2, []) := by decide

theorem test_v74_cli :
    seen (cpuStep (bench 0x8000 [0x58] { p := 0x04 } [])) [] =
      some ([0x00, 0x00, 0x00, 0xFD, 0x00], 0x8001, 2, []) := by decide

theorem test_v75_sei :
    seen (cpuStep (bench 0x8000 [0x78] {} [])) [] =
      some ([0x00, 0x00, 0x00, 0xFD, 0x04], 0x8001, 2, []) := by decide

theorem test_v76_cld :
    seen (cpuStep (bench 0x8000 [0xD8] { p := 0x08 } [])) [] =
      some ([0x00, 0x00, 0x00, 0xFD, 0x00], 0x8001, 2, []) := by decide

theorem test_v77_sed :
    seen (cpuStep (bench 0x8000 [0xF8] {} [])) [] =
      some ([0x00, 0x00, 0x00, 0xFD, 0x08], 0x8001, 2, []) := by decide

theorem test_v78_clv :
    seen (cpuStep (bench 0x8000 [0xB8] { p := 0x40 } [])) [] =
      some ([0x00, 0x00, 0x00, 0xFD, 0x00], 0x8001, 2, []) := by decide

theorem test_v79_nop :
    seen (cpuStep (bench 0x8000 [0xEA] { a := 0x12, p := 0x02 } [])) [] =
      some ([0x12, 0x00, 0x00, 0xFD, 0x02], 0x8001, 2, []) := by decide

theorem test_v80_brk :
    seen (cpuStep (bench 0x8000 [0x00, 0xEA] { sp := 0xFF, p := 0x01 }
        [(0xFFFE, 0x00), (0xFFFF, 0x90)])) [0x01FF, 0x01FE, 0x01FD] =
      some ([0x00, 0x00, 0x00, 0xFC, 0x05], 0x9000, 7, [0x80, 0x02, 0x31]) := by decide

theorem test_v81_rti :
    seen (cpuStep (bench 0x8000 [0x40] { sp := 0xFC } [(0x01FD, 0xF3), (0x01FE, 0x34), (0x01FF, 0x92)])) [] =
      some ([0x00, 0x00, 0x00, 0xFF, 0xC3], 0x9234, 6, []) := by decide

theorem test_v82_nmi_entry :
    seen (cpuStep (withNmi (bench 0x8123 [0xEA] { sp := 0xFF, p := 0x01 }
        [(0xFFFA, 0x00), (0xFFFB, 0xA0)]))) [0x01FF, 0x01FE, 0x01FD] =
      some ([0x00, 0x00, 0x00, 0xFC, 0x05], 0xA000, 7, [0x81, 0x23, 0x21]) := by decide

theorem test_v83_irq_entry :
    seen (cpuStep (withIrq (bench 0x8123 [0xEA] { sp := 0xFF, p := 0x00 }
        [(0xFFFE, 0x00), (0xFFFF, 0x90)]))) [0x01FF, 0x01FE, 0x01FD] =
      some ([0x00, 0x00, 0x00, 0xFC, 0x04], 0x9000, 7, [0x81, 0x23, 0x20]) := by decide

theorem test_v84_irq_masked :
    seen (cpuStep (withIrq (bench 0x8123 [0xEA] { sp := 0xFF, p := 0x04 } [(0xFFFE, 0x00), (0xFFFF, 0x90)]))) [] =
      some ([0x00, 0x00, 0x00, 0xFF, 0x04], 0x8124, 2, []) := by decide

theorem test_v85_nmi_and_irq :
    seen (cpuStep (withNmi (withIrq (bench 0x8123 [0xEA] { sp := 0xFF, p := 0x00 }
        [(0xFFFA, 0x00), (0xFFFB, 0xA0), (0xFFFE, 0x00), (0xFFFF, 0x90)])))) [0x01FF, 0x01FE, 0x01FD] =
      some ([0x00, 0x00, 0x00, 0xFC, 0x04], 0xA000, 7, [0x81, 0x23, 0x20]) := by decide

/-- V86: an illegal byte stops the machine, and reports PC and the byte. -/
theorem test_v86_illegal :
    faultOf (cpuStep (bench 0x8000 [0x02] { a := 1 } [])) = some (.decodeError 0x8000 0x02) := by decide

theorem test_v86_state :
    let t := haltedState (bench 0x8000 [0x02] { a := 1 } [])
    (t.cpu.halted, t.cpu.faultPc, t.cpu.faultOpcode, t.cpu.a, t.cpu.pc, t.cpu.cycles) =
      (true, 0x8000, 0x02, 1, 0x8000, 0) := by decide

/-! ### Reset and the placed instruction -/

/-- R611: `State.reset` is the power-on state of the blank cartridge with the zero draws, its reset sequence run. -/
theorem test_reset : resetSequence (powerOnState Cartridge.blank Draw.zero 0) = State.reset := rfl

/-- `LDA #$80` (A9 80) runs as the first instruction after reset; 2 cycles are 6 dots (R585). -/
theorem test_step_from_reset :
    (match step (State.reset.withFetchWord 16 0x80A9) with
      | .next t => some (t.cpu.a, t.cpu.p.n, t.cpu.cycles, t.ppu.dot, t.apu.fsCycle)
      | .fault _ | .refused _ => none) = some (0x80, true, 9, 6, 2) := by decide +kernel

/-- An illegal byte placed there faults. -/
theorem test_step_illegal_from_reset :
    faultOf (step (State.reset.withFetchWord 8 0x02)) = some (.decodeError 0 0x02) := by decide

/-! ### PPU (PV vectors) -/

/-- The reset state with another PPU. -/
def withPpu (f : Ppu → Ppu) : State := State.reset.mapPpu f

/-- PV1: a PPUSTATUS read clears VBlank and the toggle, and keeps sprite zero. -/
theorem test_pv1_status_read :
    let t := (busRead 0x2002 (withPpu fun p => { p with vblank := true, sprite0 := true, w := true })).2
    (t.ppu.vblank, t.ppu.w, t.ppu.sprite0) = (false, false, true) := by decide

/-- PV3: two PPUSCROLL writes. -/
theorem test_pv3_scroll :
    let t1 := busWrite 0x2005 0x7D State.reset
    let t2 := busWrite 0x2005 0x5E t1
    (t1.ppu.t, t1.ppu.x, t1.ppu.w, t2.ppu.t, t2.ppu.w, t2.ppu.v) = (0x000F, 5, true, 0x616F, false, 0) := by decide

/-- PV4 and PV5: PPUADDR. -/
theorem test_pv4_addr_high :
    let t := busWrite 0x2006 0xFF (withPpu fun p => { p with t := 0x616F })
    (t.ppu.t, t.ppu.w) = (0x3F6F, true) := by decide

theorem test_pv5_addr :
    let t := busWrite 0x2006 0x10 (busWrite 0x2006 0x3F State.reset)
    (t.ppu.t, t.ppu.v, t.ppu.w) = (0x3F10, 0x3F10, false) := by decide

/-- PV6 and PV7: palette writes, the alias of 0x3F10, and six stored bits. -/
theorem test_pv6_palette_alias :
    let t := busWrite 0x2007 0x2C (withPpu fun p => { p with v := 0x3F10 })
    (t.ppu.color 0x3F00, t.ppu.v) = (0x2C, 0x3F11) := by decide

theorem test_pv7_palette_bits :
    let t := busWrite 0x2007 0xFF (withPpu fun p => { p with v := 0x3F11 })
    (t.ppu.color 0x3F11, t.ppu.v) = (0x3F, 0x3F12) := by decide

/-- PV8 and PV9: the read buffer, and the increment by 32. -/
theorem test_pv8_read_buffer :
    let s := withPpu fun p => { p with v := 0x2108, vram := [(0x108, 0x55), (0x109, 0x66)] }
    let r1 := busRead 0x2007 s
    let r2 := busRead 0x2007 r1.2
    (r1.1, r1.2.ppu.readBuffer, r2.1, r2.2.ppu.readBuffer, r2.2.ppu.v) = (0x00, 0x55, 0x55, 0x66, 0x210A) := by
  decide

theorem test_pv9_inc32 :
    (busRead 0x2007 (withPpu fun p => { p with v := 0x2108, ctrl := 0x04 })).2.ppu.v = 0x2128 := by decide

/-- PV11: `v` wraps modulo 2^15, and the address is its low 14 bits. -/
theorem test_pv11_v_wraps :
    let t := busWrite 0x2007 0x01 (withPpu fun p => { p with v := 0x7FFF })
    (t.ppu.color 0x3F1F, t.ppu.v) = (0x01, 0) := by decide

/-- PV12 to PV14: a PPUCTRL write raises NMI only when it turns bit 7 on during VBlank. -/
theorem test_pv12_ctrl_raises_nmi :
    (busWrite 0x2000 0x80 (withPpu fun p => { p with vblank := true })).cpu.nmiPending = true := by decide

theorem test_pv13_pv14_ctrl_no_nmi :
    (busWrite 0x2000 0x80 State.reset).cpu.nmiPending = false ∧
      (busWrite 0x2000 0x80 (withPpu fun p => { p with vblank := true, ctrl := 0x80 })).cpu.nmiPending = false := by
  decide

/-- PV15. -/
theorem test_pv15_ctrl_nt : (busWrite 0x2000 0x03 State.reset).ppu.t = 0x0C00 := by decide

/-- PV16 and PV17: OAMDATA. -/
theorem test_pv16_oamdata_wraps :
    let t := busWrite 0x2004 0x12 (withPpu fun p => { p with oamaddr := 0xFF })
    (t.ppu.oam.read 0xFF, t.ppu.oamaddr) = (0x12, 0) := by decide

theorem test_pv17_oamdata_read :
    let r := busRead 0x2004 (withPpu fun p => { p with oamaddr := 5, oam := [(5, 0x9C)] })
    (r.1, r.2.ppu.oamaddr) = (0x9C, 5) := by decide

/-- PV20 to PV22. -/
theorem test_pv20_nt_vertical :
    [0x2000, 0x2400, 0x2800, 0x2C05, 0x3000, 0x3EFF].map (ntIndex .vertical) = [0, 0x400, 0, 0x405, 0, 0x6FF] := by
  decide

theorem test_pv21_nt_horizontal :
    [0x2000, 0x2400, 0x2800, 0x2C05].map (ntIndex .horizontal) = [0, 0, 0x400, 0x405] := by decide

theorem test_pv22_palette_index :
    [0x3F00, 0x3F10, 0x3F14, 0x3F15, 0x3F1C, 0x3F20, 0x3FFF].map palIndex = [0, 0, 4, 0x15, 0x0C, 0, 0x1F] := by
  decide

/-- PV23: a write to CHR ROM is ignored. -/
theorem test_pv23_chr_rom :
    let s := withPpu fun p => { p with v := 0x0123 }
    let t := busWrite 0x2007 0xAA { s with cart := { s.cart with chrIsRam := false } }
    (t.cart.chr.read 0x123, t.ppu.v) = (0, 0x0124) := by decide

/-- PV25: the backdrop under the greyscale mask. -/
theorem test_pv25_grey_backdrop :
    (Ppu.pixelIndex { State.reset.ppu with mask := 0x01, palette := Vector.replicate 32 0x2C } 7) = 0x20 := by decide

/-- S3: VBlank and NMI at (241, 1), and VBlank's end at (261, 1). -/
theorem test_s3_vblank_set :
    let t := stepDot (withPpu fun p => { p with scanline := 241, dot := 1, ctrl := 0x80 })
    (t.ppu.vblank, t.cpu.nmiPending, t.ppu.dot) = (true, true, 2) := by decide

theorem test_s3_vblank_cleared :
    let t := stepDot (withPpu fun p => { p with scanline := 261, dot := 1, vblank := true, sprite0 := true })
    (t.ppu.vblank, t.ppu.sprite0) = (false, false) := by decide

/-- R480, R488: the wrap of the frame. -/
theorem test_frame_wrap :
    let t := stepDot (withPpu fun p => { p with scanline := 261, dot := 340 })
    (t.ppu.scanline, t.ppu.dot, t.ppu.frameComplete) = (0, 0, true) := by decide

/-! ### OAM DMA (DV vectors) -/

/-- DV2's RAM, with only the bytes the test looks at: 0x0201 = 01, 0x02EF = EF, 0x02F0 = F0, 0x02FF = FF. -/
def pageTwo : State :=
  { State.reset with ram := [(0x201, 0x01), (0x2EF, 0xEF), (0x2F0, 0xF0), (0x2FF, 0xFF)] }

/-- DV2: the copy starts at `oamaddr` and wraps. -/
theorem test_dv2_oam_dma :
    let t := busWrite 0x4014 0x02 (pageTwo.mapPpu fun p => { p with oamaddr := 0x10 })
    ([0x11, 0xFF, 0x00, 0x0F].map t.ppu.oam.read, t.ppu.oamaddr, t.cpu.oamDmaStarted) =
      ([0x01, 0xEF, 0xF0, 0xFF], 0x10, true) := by decide +kernel

/-- S6: `STA $4014` from 26 cycles adds 513, from 27 cycles 514. -/
theorem test_s6_dma_stall :
    let stallFrom (k : Nat) : Option Nat :=
      match cpuStep ((bench 0x8000 [0x8D, 0x14, 0x40] { a := 2 } []).mapCpu fun c => { c with cycles := k }) with
      | .next t => some t.cpu.stall
      | .fault _ | .refused _ => none
    (stallFrom 26, stallFrom 27) = (some 513, some 514) := by decide +kernel

/-! ### APU (AV vectors) -/

/-- AV1, AV4: enable pulse 1, load its length, and disable it. -/
theorem test_av1_length :
    let t := busWrite 0x4003 0x08 (busWrite 0x4015 0x01 State.reset)
    (t.apu.pulse1.enabled, t.apu.pulse1.length, (busWrite 0x4015 0x00 t).apu.pulse1.length) = (true, 254, 0) := by
  decide

/-- AV3: a disabled channel loads no length. -/
theorem test_av3_disabled : (busWrite 0x4003 0xF8 State.reset).apu.pulse1.length = 0 := by decide

/-- R530: a write of 0x400F loads the length and restarts the envelope of an enabled noise channel, and neither of a
disabled one. -/
theorem test_noise_length :
    let u (on : Bool) : Apu := { Apu.powerOn with noise := { Apu.powerOn.noise with enabled := on } }
    let w (on : Bool) : Noise := (busWrite 0x400F 0x08 (State.reset.mapApu fun _ => u on)).apu.noise
    ((w true).length, (w true).env.start, (w false).length, (w false).env.start) = (254, true, 0, false) := by decide

/-- AV5, AV6: the frame interrupt comes with the 29,829th cycle. -/
theorem test_av6_frame_irq :
    (Apu.sequencerTick { Apu.powerOn with fsCycle := 29827 }).frameIrq = false ∧
      (Apu.sequencerTick { Apu.powerOn with fsCycle := 29828 }).frameIrq = true := by decide

/-- AV8: 0x4017 with bit 6. -/
theorem test_av8_inhibit :
    let t := busWrite 0x4017 0x40 (withIrq State.reset)
    (t.apu.frameIrq, t.apu.fsInhibit, t.apu.fsCycle) = (false, true, 0) := by decide

/-- AV9: 0x4017 with bit 7 clocks a half frame at once. -/
theorem test_av9_five_step :
    let t := busWrite 0x4017 0x80 (State.reset.mapApu fun u => { u with pulse1 := { u.pulse1 with length := 10 } })
    (t.apu.pulse1.length, t.apu.fsMode, t.apu.fsCycle) = (9, true, 0) := by decide

/-- AV12: the halt flag stops the length counter. -/
theorem test_av12_halt : lengthClock true 3 = 3 ∧ lengthClock false 3 = 2 ∧ lengthClock false 0 = 0 := by decide

/-- AV13: an envelope's first clocks. -/
theorem test_av13_envelope :
    let e1 := Envelope.clock 3 false ⟨true, 0, 0⟩
    let e4 := Envelope.clock 3 false (Envelope.clock 3 false (Envelope.clock 3 false e1))
    let e5 := Envelope.clock 3 false e4
    (e1.decay, e1.div, e4.decay, e4.div, e5.decay, e5.div) = (15, 3, 15, 0, 14, 3) := by decide

/-- AV15 to AV18: the sweep's target and its muting. -/
theorem test_av15_sweep_target :
    let p : Pulse := { Pulse.powerOn with timerPer := 0x100, sweepNeg := true, sweepShift := 1 }
    (p.sweepTarget true, p.sweepTarget false) = (0x7F, 0x80) := by decide

theorem test_av17_muted :
    Pulse.muted true { Pulse.powerOn with timerPer := 0x600, sweepShift := 1 } = true ∧
      Pulse.muted true { Pulse.powerOn with timerPer := 7 } = true ∧
      Pulse.muted true { Pulse.powerOn with timerPer := 8, sweepShift := 7 } = false := by decide

/-- AV19 to AV21: the noise register. -/
theorem test_av19_noise :
    [(0x0001, false), (0x4000, false), (0x0041, true)].map (fun c =>
      (Noise.tick { Apu.powerOn.noise with lfsr := c.1, mode := c.2 }).lfsr) = [0x4000, 0x2000, 0x0020] := by decide

/-- AV22, AV23: the ends of the DMC's level. -/
theorem test_av22_dmc_level :
    Dmc.nextLevel { Apu.powerOn.dmc with level := 126, shift := 1, silence := false } = 126 ∧
      Dmc.nextLevel { Apu.powerOn.dmc with level := 1, shift := 0, silence := false } = 1 ∧
      Dmc.nextLevel { Apu.powerOn.dmc with level := 125, shift := 1, silence := false } = 127 := by decide

/-- AV24: the DMC's address and length registers. -/
theorem test_av24_dmc_registers :
    let t := busWrite 0x4013 0x01 (busWrite 0x4012 0x01 State.reset)
    (t.apu.dmc.sampleAddr, t.apu.dmc.sampleLen) = (0xC040, 17) := by decide

/-- AV25: the last byte of a sample, at 0xFFFF. -/
theorem test_av25_dmc_reader :
    let t := dmcReaderTick ((placeCells [(0xFFFF, 0x5A)] State.reset).mapApu fun u =>
      { u with dmc := { u.dmc with remaining := 1, irqEn := true, curAddr := 0xFFFF } })
    (t.cpu.stall, t.apu.dmc.buffer, t.apu.dmc.curAddr, t.apu.dmc.remaining, t.apu.dmcIrq) =
      (4, 0x5A, 0x8000, 0, true) := by decide

/-- AV26: a write of 0x4015 clears the DMC interrupt flag only. -/
theorem test_av26_irq_flags :
    let t := busWrite 0x4015 0x00 (State.reset.mapApu fun u => { u with dmcIrq := true, frameIrq := true })
    (t.apu.dmcIrq, t.apu.frameIrq) = (false, true) := by decide

/-- AV27, AV29, AV30: the mixer, exact. -/
theorem test_av27_mixer :
    pulseMix 0 0 = 0 ∧ tndMix 0 0 0 = 0 ∧ pulseMix 15 15 = (9588 / 100 : Rat) / (8128 / 30 + 100) ∧
      tndMix 15 0 0 = (15979 / 100 : Rat) / (8227 / 15 + 100) := by
  refine ⟨rfl, rfl, ?_, ?_⟩ <;> norm_num [pulseMix, tndMix]

/-! ### Controllers, host (KV and HV vectors) -/

/-- KV1: strobe 1 then 0 loads the buttons; a 1 enters with each read. -/
theorem test_kv1_strobe :
    let t := busWrite 0x4016 0x00 (busWrite 0x4016 0x01 (setButtons .one 0x09 State.reset))
    (t.pads.shift1, (afterReads 0x4016 3 t).pads.bit1, (afterReads 0x4016 8 t).pads.shift1) = (0x09, true, 0xFF) := by
  decide

/-- KV4: a write of 0x4017 is the frame counter, not a controller. -/
theorem test_kv4_frame_counter :
    (busWrite 0x4017 0x01 (setButtons .two 0xFF State.reset)).pads = (setButtons .two 0xFF State.reset).pads := rfl

/-- HV1: a step of 4 cycles is 12 dots and 4 APU cycles. -/
theorem test_hv1_ticks :
    (match step (bench 0x8000 [0xAD, 0x00, 0x02] {} []) with
      | .next t => some (t.cpu.cycles, t.ppu.dot, t.apu.fsCycle)
      | .fault _ | .refused _ => none) = some (4, 12, 4) := by decide +kernel

/-- HV2, HV3: the faulting frame step, and the one after it. -/
theorem test_hv2_fault :
    (runFrame (bench 0x8000 [0x02] {} [])).map (fun r => r.1) = some (.fault 0x8000 0x02) ∧
      (runFrame (haltedState (bench 0x8000 [0x02] {} []))).map (fun r => r.1) = some (.fault 0x8000 0x02) := by
  decide +kernel

/-- HV4: a host reset clears the halt and restarts at the vector. -/
theorem test_hv4_reset :
    let t := hostReset (haltedState (bench 0x9000 [0x02] {} [(0xFFFD, 0x80)]))
    (t.cpu.halted, t.cpu.pc, t.cpu.sp) = (false, 0x8000, 0xFA) := by decide

/-- HV7, HV8: a wrong mapper and a wrong magic. -/
theorem test_hv7_rejected :
    romAccepted [0x4E, 0x45, 0x53, 0x1A, 1, 0, 0x10, 0, 0, 0, 0, 0, 0, 0, 0, 0] = false ∧
      romAccepted [0x4E, 0x45, 0x53, 0x00, 1, 0, 0, 0, 0, 0, 0, 0, 0, 0, 0, 0] = false := by decide

/-- HV12: `set_buttons` sets the buttons and nothing else. -/
theorem test_hv12_buttons :
    setButtons .one 0xFF State.reset =
      { State.reset with pads := { State.reset.pads with buttons1 := 0xFF } } := rfl

/-! ### The memory's canonical form -/

/-- Writing what an unlisted address reads as removes the entry, and entries stay sorted. -/
theorem test_memory_canonical :
    (((Memory.write [] 5 1).write 3 2).write 5 0) = [(3, 2)] ∧ ((Memory.write [] 5 1).write 3 2) = [(3, 2), (5, 1)] := by
  decide

/-! ### Witnesses: states and operands that meet the hypotheses of the obligations -/

/-- `LDA #$80` at 0x8000 in PRG ROM, I clear, no interrupt: the state of most witnesses. -/
def ready : State := bench 0x8000 [0xA9, 0x80] {} []

/-- The instruction a fetch gives. -/
def fetchedInstr (s : State) : Option Instr :=
  match fetch s with
  | .instr i _ => some i
  | .illegal _ _ => none

theorem fetch_of_fetchedInstr {s : State} {i : Instr} (h : fetchedInstr s = some i) : ∃ s', fetch s = .instr i s' := by
  unfold fetchedInstr at h
  split at h
  · next e => cases h; exact ⟨_, e⟩
  · cases h

theorem fetch_ready : ∃ s', fetch ready = .instr (.ldaImm 0x80) s' := fetch_of_fetchedInstr (by decide)

/-- Every instruction gives a next state. -/
theorem exec_next (i : Instr) (s : State) : ∃ t, exec i s = .next t := (exec_shape i s).next

theorem witness_DecodeEncode : (Instr.bne (-128)).WellFormed ∧ (Instr.bne 127).WellFormed ∧ Instr.nop.WellFormed := by
  decide

theorem witness_DecodeIsCanonical :
    decode [0xA9, 0x80, 0x07] = some (.ldaImm 0x80, [0x07]) ∧ decode [0x10, 0x80] = some (.bpl (-128), []) := by decide

/-- Both directions: an undocumented byte at PC, and a documented one. -/
theorem witness_IllegalOpcodesFault :
    let s := bench 0x8000 [0xFF] {} []
    s.cpu.halted = false ∧ poll s = .none ∧ (busRead s.cpu.pc s).1 ∈ illegalOpcodes ∧
      ready.cpu.halted = false ∧ poll ready = .none ∧ (busRead ready.cpu.pc ready).1 ∉ illegalOpcodes := by decide

theorem witness_StepRunsDecoded_fetch :
    ready.cpu.halted = false ∧ ready.cpu.nmiPending = false ∧
      (ready.apu.frameIrq = false ∧ ready.apu.dmcIrq = false) ∧ ∃ s', fetch ready = .instr (.ldaImm 0x80) s' :=
  ⟨by decide, by decide, by decide, fetch_ready⟩

/-- The other side of the poll's condition: an IRQ request with I set. -/
theorem witness_StepRunsDecoded_masked :
    let s := withIrq (bench 0x8000 [0xEA] { p := 0x04 } [])
    s.cpu.halted = false ∧ s.cpu.nmiPending = false ∧ s.cpu.p.i = true ∧ ∃ s', fetch s = .instr .nop s' :=
  ⟨by decide, by decide, by decide, fetch_of_fetchedInstr (by decide)⟩

theorem witness_StepRunsDecoded_memory :
    isMemory ready.cpu.pc ∧ isMemory (ready.cpu.pc + 1) ∧ isMemory (ready.cpu.pc + 2) ∧
      decode [(busRead ready.cpu.pc ready).1, (busRead (ready.cpu.pc + 1) ready).1,
        (busRead (ready.cpu.pc + 2) ready).1] = some (.ldaImm 0x80, [0x00]) := by
  unfold isMemory; decide

/-- An NMI, and a request of either source of IRQ. -/
theorem witness_InterruptEntry :
    let n := withNmi ready
    let s := withIrq ready
    let d := ready.mapApu fun u => { u with dmcIrq := true }
    (n.cpu.halted = false ∧ n.cpu.oamDmaStarted = false ∧ n.cpu.nmiPending = true) ∧
    (s.cpu.halted = false ∧ s.cpu.oamDmaStarted = false ∧ s.cpu.nmiPending = false ∧ s.apu.frameIrq = true ∧
      s.cpu.p.i = false) ∧
    d.cpu.halted = false ∧ d.cpu.oamDmaStarted = false ∧ d.cpu.nmiPending = false ∧ d.apu.dmcIrq = true ∧
      d.cpu.p.i = false := by decide

theorem witness_DecodeErrorHalts :
    let s := bench 0x8000 [0x02] {} []
    s.cpu.halted = false ∧ poll s = .none ∧ (busRead s.cpu.pc s).1 ∈ illegalOpcodes := by decide

theorem witness_EntryThenReturn :
    ready.ram.sized 0x800 = true ∧ (nmiVector = 0xFFFA ∨ nmiVector = 0xFFFE) ∧
      (irqVector = 0xFFFA ∨ irqVector = 0xFFFE) := by decide

theorem witness_LoadResult :
    (Instr.ldaIzy 0x20).op = .lda ∧ (Instr.ldxZpy 0xFF).op = .ldx ∧ (Instr.ldyAbsx 0xFFFF).op = .ldy := by decide

theorem witness_StoreResult :
    (Instr.staIzx 0xFF).op = .sta ∧ (Instr.stxZpy 0xFF).op = .stx ∧ (Instr.styAbs 0x4014).op = .sty := by decide

theorem witness_AddSubtractResult :
    (Instr.adcImm 0x50).op = .adc ∧ (Instr.adcIzy 0xFF).op = .adc ∧ (Instr.sbcImm 0xB0).op = .sbc ∧
      (Instr.sbcAbsx 0xFFFF).op = .sbc := by decide

/-- V set and V clear, for both operations. -/
theorem witness_SignedOverflowAndBorrow :
    let v (i : Instr) (a : Byte) : Option Bool :=
      match exec i (ready.mapCpu fun c => { c with a := a, p := { c.p with c := true } }) with
      | .next t => some t.cpu.p.v
      | .fault _ | .refused _ => none
    (Instr.adcImm 0).op = .adc ∧ (Instr.sbcImm 0).op = .sbc ∧
      (v (.adcImm 0x00) 0x7F, v (.adcImm 0x00) 0x00, v (.sbcImm 0xB0) 0x50, v (.sbcImm 0xF0) 0x50) =
        (some true, some false, some true, some false) := by decide

theorem witness_LogicResult :
    (Instr.andImm 0).op = .and ∧ (Instr.oraAbsy 0xFFFF).op = .ora ∧ (Instr.eorIzx 0xFF).op = .eor := by decide

theorem witness_BitResult : (Instr.bitZp 0x10).op = .bit ∧ (Instr.bitAbs 0x2002).op = .bit := by decide

theorem witness_CompareResult :
    (Instr.cmpIzy 0xFF).op = .cmp ∧ (Instr.cpxImm 0).op = .cpx ∧ (Instr.cpyAbs 0xFFFF).op = .cpy := by decide

theorem witness_IncDecResult : (Instr.incAbsx 0x4016).op = .inc ∧ (Instr.decZpx 0xFF).op = .dec := by decide

theorem witness_ShiftResult :
    Instr.aslAcc.op = .asl ∧ Instr.aslAcc.onAccumulator = true ∧ (Instr.lsrAbsx 0xFFFF).op = .lsr ∧
      (Instr.lsrAbsx 0xFFFF).onAccumulator = false ∧ (Instr.rolZpx 0xFF).op = .rol ∧ (Instr.rorAbs 0).op = .ror := by
  decide

theorem witness_BranchResult :
    (Instr.bne (-128)).row.operand = .relative (-128) ∧ (Instr.bvs 127).row.operand = .relative 127 := by decide

/-- An instruction that writes no register and no flag but PC, so every guard of the frame holds. -/
theorem witness_RegisterAndFlagFrame :
    let i := Instr.nop
    (∃ t, exec i ready = .next t) ∧ i.writesA = false ∧ i.op.writesX = false ∧ i.op.writesY = false ∧
      i.op.writesSp = false ∧ i.op.writesC = false ∧ i.op.writesNZ = false ∧ i.op.writesI = false ∧
      i.op.writesD = false ∧ i.op.writesV = false ∧ i.op.setsV = false :=
  ⟨exec_next _ _, by decide⟩

theorem storeAddresses_staAbs (a : Word) (s : State) : (Instr.staAbs a).storeAddresses s = [a] := rfl

theorem storeAddresses_ldaImm (v : Byte) (s : State) : (Instr.ldaImm v).storeAddresses s = [] := rfl

/-- A store that leaves another RAM byte and a ROM byte alone, and a form that stores nothing. -/
theorem witness_MemoryFrame :
    ready.ram.sized 0x800 = true ∧ (∃ t, exec (.staAbs 0x0200) ready = .next t) ∧ isMemory 0x0201 ∧ isMemory 0xFFFF ∧
      (∀ b ∈ (Instr.staAbs 0x0200).storeAddresses ready, ¬sameRamByte 0x0201 b ∧ ¬sameRamByte 0xFFFF b) ∧
      (Instr.ldaImm 0x80).storeAddresses ready = [] := by
  refine ⟨by decide, exec_next (.staAbs 0x0200) ready, ?_, ?_, ?_, storeAddresses_ldaImm _ _⟩
  · unfold isMemory; decide
  · unfold isMemory; decide
  · intro b hb
    rw [storeAddresses_staAbs] at hb
    rw [List.mem_singleton.mp hb]
    unfold sameRamByte
    decide

/-- `ready` with CHR ROM. -/
def readyChrRom : State := { ready with cart := { ready.cart with chrIsRam := false } }

theorem witness_HiddenStateFrame :
    (∃ t, exec (.staAbs 0x0200) readyChrRom = .next t) ∧ readyChrRom.cart.chrIsRam = false ∧
      ∀ b ∈ (Instr.staAbs 0x0200).storeAddresses readyChrRom, ¬isDevice b := by
  refine ⟨exec_next (.staAbs 0x0200) readyChrRom, rfl, ?_⟩
  intro b hb
  rw [storeAddresses_staAbs] at hb
  rw [List.mem_singleton.mp hb]
  unfold isDevice
  decide

theorem witness_DecimalIsUnused :
    (∃ t, exec (.adcImm 0x01) ready = .next t) ∧
      (Instr.adcImm 0x01).op ∉ [Operation.php, .brk, .plp, .rti, .cld, .sed] :=
  ⟨exec_next (.adcImm 0x01) ready, by decide⟩

/-- A mirror of the written byte, and another byte. -/
theorem witness_RamMirrors :
    ready.ram.sized 0x800 = true ∧ (0x1FFF : Word).toNat < 0x2000 ∧ (0x07FF : Word).toNat < 0x2000 ∧
      (0x1FFF : Word).toNat % 0x800 = (0x07FF : Word).toNat % 0x800 ∧
      (0x1FFF : Word).toNat % 0x800 ≠ (0x0000 : Word).toNat % 0x800 := by decide

theorem witness_RomReadsAndIgnoredWrites :
    0x8000 ≤ (0x8000 : Word).toNat ∧ 0x8000 ≤ (0xFFFF : Word).toNat ∧
      (0x4018 ≤ (0x4018 : Word).toNat ∧ (0x4018 : Word).toNat < 0x8000) ∧
      (0x4018 ≤ (0x7FFF : Word).toNat ∧ (0x7FFF : Word).toNat < 0x8000) := by decide

/-- The ends of each range of undriven addresses. -/
theorem witness_UndrivenReads :
    [0x2000, 0x3FFE, 0x4000, 0x4014, 0x4018, 0x7FFF].all (fun a : Word => decide
      (0x2000 ≤ a.toNat ∧ a.toNat < 0x4000 ∧ a.toNat % 8 ∈ [0, 1, 3, 5, 6] ∨
        0x4000 ≤ a.toNat ∧ a.toNat ≤ 0x4014 ∨ 0x4018 ≤ a.toNat ∧ a.toNat < 0x8000)) = true := by decide

/-- Every register of the statement, at its first and its last mirror, and both values of the toggle. -/
theorem witness_PpuRegisterWrites :
    [0x2000, 0x2005, 0x2006, 0x3FF8, 0x3FFD, 0x3FFE].map (fun a : Word =>
      (decide (0x2000 ≤ a.toNat ∧ a.toNat < 0x4000), a.toNat % 8)) =
        [(true, 0), (true, 5), (true, 6), (true, 0), (true, 5), (true, 6)] ∧
      State.reset.ppu.w = false ∧ (withPpu fun p => { p with w := true }).ppu.w = true := by decide

/-- The four registers of the statement, at the first and the last mirror of each. -/
theorem witness_PpuPlainRegisters :
    [0x2001, 0x2002, 0x2003, 0x2004, 0x3FF9, 0x3FFA, 0x3FFB, 0x3FFC].map (fun a : Word =>
      (decide (0x2000 ≤ a.toNat ∧ a.toNat < 0x4000), a.toNat % 8)) =
        [(true, 1), (true, 2), (true, 3), (true, 4), (true, 1), (true, 2), (true, 3), (true, 4)] := by decide

theorem witness_PpuStatusRead :
    0x2000 ≤ (0x3FFA : Word).toNat ∧ (0x3FFA : Word).toNat < 0x4000 ∧ (0x3FFA : Word).toNat % 8 = 2 := by decide

/-- `ready` is in range. -/
theorem ready_inRange : ready.InRange := by
  refine ⟨⟨by decide, by decide, by decide⟩, by decide, ?_, ?_, by decide, by decide⟩
  · have := cpuHz_pos
    have e : ready.apu = Apu.powerOn := rfl
    rw [e]
    simp [Apu.powerOn, Apu.inRange, Pulse.powerOn, lastSequencerCycle, this]
  · unfold Apu.silentWhenDisabled; decide

/-- `ready` is in range with another PPU in range. -/
theorem ready_inRange_withPpu {f : Ppu → Ppu} (h : (f ready.ppu).inRange = true) : (ready.mapPpu f).InRange :=
  { memories := ⟨ready_inRange.memories.ram, ready_inRange.memories.prg, ready_inRange.memories.chr⟩
    ppu := h, apu := ready_inRange.apu, silent := ready_inRange.silent
    dmcAddr := ready_inRange.dmcAddr, dmcSample := ready_inRange.dmcSample }

/-- Below the palette and at its first and last address; the written cell under another address, in each kind of memory
where there is one, and another cell; and CHR ROM. -/
theorem witness_PpuDataAccess :
    let at_ (v : BitVec 15) : State := ready.mapPpu fun p => { p with v := v }
    (at_ 0x3EFF).InRange ∧ (at_ 0x3F00).InRange ∧ (at_ 0x7FFF).InRange ∧
      ((at_ 0x3EFF).ppu.v.extractLsb 13 0).toNat < 0x3F00 ∧ 0x3F00 ≤ ((at_ 0x3F00).ppu.v.extractLsb 13 0).toNat ∧
      0x3F00 ≤ ((at_ 0x7FFF).ppu.v.extractLsb 13 0).toNat ∧ 0x2000 ≤ (0x2007 : Word).toNat ∧
      (0x3FFF : Word).toNat < 0x4000 ∧ (0x2007 : Word).toNat % 8 = 7 ∧ (0x3FFF : Word).toNat % 8 = 7 ∧
      samePpuCell .vertical 0x1FFF 0x1FFF ∧ samePpuCell .vertical 0x2000 0x3800 ∧ samePpuCell .vertical 0x3F10 0x3FE0 ∧
      ¬samePpuCell .vertical 0x2000 0x2400 ∧ ¬samePpuCell .vertical 0x3EFF 0x3F1F ∧
      ({ ready with cart := { ready.cart with chrIsRam := false } } : State).cart.chrIsRam = false :=
  ⟨ready_inRange_withPpu (by decide), ready_inRange_withPpu (by decide), ready_inRange_withPpu (by decide), by decide⟩

/-- The ends of each range: the last nametable byte, the fold's, the first and the last palette address, and two distinct
cells beside two that are one. -/
theorem witness_PpuMirrors :
    Mirroring.vertical ≠ .horizontal ∧ 0x3FF < 0x400 ∧ 0x2000 ≤ 0x2EFF ∧ 0x2EFF < 0x2F00 ∧ 0x3FDF + 0x20 ≤ 0x3FFF ∧
      0x3F00 ≤ (0x3F00 : BitVec 14).toNat ∧ 0x3F00 ≤ (0x3FFF : BitVec 14).toNat ∧
      palIndex 0x3F1F ≠ palIndex (0x3F00 : BitVec 14).toNat ∧ palIndex 0x3F10 = palIndex (0x3F00 : BitVec 14).toNat := by
  decide

theorem witness_OamDmaCopy :
    ready.ppu.oam.sized 0x100 = true ∧ ((0x1F : Byte).toNat < 0x20 ∨ 0x80 ≤ (0x1F : Byte).toNat) ∧
      ((0x80 : Byte).toNat < 0x20 ∨ 0x80 ≤ (0x80 : Byte).toNat) := by decide

/-- The first and the last position of the frame. -/
theorem witness_DotsMoveThePosition :
    State.reset.ppu.inFrame ∧ (withPpu fun p => { p with scanline := 261, dot := 340 }).ppu.inFrame := by
  unfold Ppu.inFrame; decide

/-- A line with nine sprites of height 8 at dot 65, and the ninth sets the overflow flag. -/
theorem witness_SpriteEvaluation :
    let s := withPpu fun p => { p with scanline := 7, dot := 65, mask := 0x10 }
    s.ppu.scanline ≤ 239 ∧ s.ppu.dot = 65 ∧ (s.ppu.mask.getLsbD 3 = true ∨ s.ppu.mask.getLsbD 4 = true) ∧
      (stepDot s).ppu.soamCount = 8 ∧ (stepDot s).ppu.overflow = true := by decide +kernel

/-- R481: `v` after one dot of a line with the background shown. -/
def scrolled (line dot : Nat) (t v : BitVec 15) : BitVec 15 :=
  (stepDot (withPpu fun p => { p with scanline := line, dot := dot, mask := 0x08, t := t, v := v })).ppu.v

/-- The ends of each range of dots: the wraps of a column, and of rows 239 and 255 (each with the column step of that dot);
the copies; and a dot without a step. -/
theorem witness_ScrollSteps :
    (scrolled 0 8 0 0x001F, scrolled 239 336 0 0x001F, scrolled 261 328 0 0x0001) = (0x0400, 0x0400, 0x0002) ∧
      (scrolled 239 256 0 0x73A0, scrolled 261 256 0 0x73E0, scrolled 0 256 0 0x0000) = (0x0801, 0x0001, 0x1001) ∧
      (scrolled 0 257 0x7FFF 0, scrolled 261 280 0x7FFF 0, scrolled 261 304 0x7FFF 0) = (0x041F, 0x7BE0, 0x7BE0) ∧
      (scrolled 239 280 0x7FFF 0, scrolled 261 305 0x7FFF 0, scrolled 0 0 0x7FFF 0) = (0, 0, 0) := by decide +kernel

/-- The first and the last pixel of the screen, each with one layer shown. -/
theorem witness_PixelComposition :
    let at_ (line dot : Nat) (mask : Byte) := withPpu fun p => { p with scanline := line, dot := dot, mask := mask }
    (at_ 0 1 0x08).ppu.scanline < 240 ∧ 1 ≤ (at_ 0 1 0x08).ppu.dot ∧ (at_ 0 1 0x08).ppu.mask.getLsbD 3 = true ∧
      (at_ 239 256 0x10).ppu.scanline < 240 ∧ (at_ 239 256 0x10).ppu.dot ≤ 256 ∧
      (at_ 239 256 0x10).ppu.mask.getLsbD 4 = true := by decide

/-- A dot that sets the flag, and a visible dot with rendering off. -/
theorem witness_SpriteZeroAndRenderingOff :
    let hit := withPpu fun p =>
      { p with
        scanline := 10, dot := 101, mask := 0x18, sprite0Line := true, bgLo := 0xFFFF
        units := p.units.setIfInBounds 0 ⟨0xFF, 0, 0, 100, true⟩ }
    let off := withPpu fun p => { p with scanline := 239, dot := 256 }
    (stepDot hit).ppu.sprite0 = true ∧ hit.ppu.sprite0 = false ∧ off.ppu.mask.getLsbD 3 = false ∧
      off.ppu.mask.getLsbD 4 = false ∧ off.ppu.scanline < 240 ∧ 1 ≤ off.ppu.dot ∧ off.ppu.dot ≤ 256 := by
  decide +kernel

/-- The events of the sequencer and its wraps; and a sweep that moves, at the ends of its guard (periods 8 and 0x7FF), one
that reloads its divider and one that counts. The values are those of R541 to R544, computed by hand. -/
theorem witness_FrameSequencer :
    let swept (period : BitVec 11) (neg : Bool) (shift div : BitVec 3) : Pulse × Pulse :=
      let p : Pulse :=
        { Pulse.powerOn with
          timerPer := period, sweepEn := true, sweepNeg := neg, sweepShift := shift, sweepDiv := div, sweepPer := 5 }
      let u := Apu.halfFrame { Apu.powerOn with pulse1 := p, pulse2 := p }
      (u.pulse1, u.pulse2)
    (Apu.sequencerTick { Apu.powerOn with fsCycle := 14912, pulse1 := { Pulse.powerOn with length := 2 } }).pulse1.length
        = 1 ∧
      (Apu.sequencerTick { Apu.powerOn with fsCycle := 7456, triangle := { Apu.powerOn.triangle with lin := 2 } }).triangle.lin
        = 1 ∧
      (Apu.sequencerTick { Apu.powerOn with fsCycle := 29829 }).fsCycle = 0 ∧
      (Apu.sequencerTick { Apu.powerOn with fsCycle := 37281, fsMode := true }).fsCycle = 0 ∧
      ((swept 0x7FF true 1 0).1.timerPer, (swept 0x7FF true 1 0).2.timerPer) = (0x3FF, 0x400) ∧
      ((swept 8 true 1 0).1.timerPer, (swept 7 true 1 0).1.timerPer) = (3, 7) ∧
      ((swept 8 false 1 0).1.sweepDiv, (swept 8 false 1 3).1.sweepDiv, (swept 8 false 1 3).1.timerPer) = (5, 2, 8) := by
  decide

theorem witness_SampleStream : 0 ≤ State.reset.apu.sampleAcc ∧ State.reset.apu.sampleAcc < Config.cpuHz :=
  ⟨by decide, cpuHz_pos⟩

/-- Nothing left, and a byte to take. -/
theorem witness_DmcReader :
    let s := State.reset.mapApu fun u => { u with dmc := { u.dmc with remaining := 1, curAddr := 0xFFFF } }
    0x8000 ≤ State.reset.apu.dmc.curAddr.toNat ∧ State.reset.apu.dmc.remaining = 0 ∧
      0x8000 ≤ s.apu.dmc.curAddr.toNat ∧ s.apu.dmc.bufferFull = false ∧ s.apu.dmc.remaining ≠ 0 := by decide

theorem witness_ControllerShift : (0xFF : Byte).getLsbD 0 = true ∧ (0xFE : Byte).getLsbD 0 = false := by decide

/-- The smallest file the loader accepts: one PRG bank, CHR RAM. -/
def smallRom : List Byte := [0x4E, 0x45, 0x53, 0x1A, 1, 0, 0, 0, 0, 0, 0, 0, 0, 0, 0, 0] ++ List.replicate 16384 0

theorem witness_PowerOnState :
    (∃ t, powerOn smallRom Draw.zero State.reset = .ok t) ∧ Draw.zero.ram.sized 0x800 = true ∧
      Draw.zero.chrRam.sized 0x2000 = true ∧ Draw.zero.vram.sized 0x800 = true ∧ Draw.zero.oam.sized 0x100 = true := by
  have h : romAccepted smallRom = true := by
    have hl : smallRom.length = 16400 := by
      rw [smallRom, List.length_append, List.length_replicate]
      rfl
    have hb (k : Nat) (hk : k < 16) :
        fileByte smallRom k = fileByte [0x4E, 0x45, 0x53, 0x1A, 1, 0, 0, 0, 0, 0, 0, 0, 0, 0, 0, 0] k := by
      unfold fileByte smallRom
      rw [List.getElem?_append_left (by simpa using hk)]
    have hm : hasMagic smallRom = true := rfl
    simp only [romAccepted, hm, mapperNumber, prgStart, prgLength, chrLength, hl, hb 4 (by omega), hb 5 (by omega),
      hb 6 (by omega), hb 7 (by omega)]
    decide
  exact ⟨⟨_, if_pos h⟩, by decide⟩

/-- Both sides of the loader's answer: the accepted file above, and files of one byte and of none. -/
theorem witness_RomRejected : romAccepted [0x4E] = false ∧ romAccepted [] = false := by decide

/-- The snapshot record itself as the wire format (R593). -/
def recordFormat : WireFormat SaveState where
  encode := id
  decode := some
  decode_encode := fun _ => rfl

/-- A state with another CHR memory in the same cartridge. -/
def withChr (m : Memory) (s : State) : State := { s with cart := { s.cart with chr := m } }

theorem withChr_cart (m : Memory) (s : State) : (withChr m s).cart = { s.cart with chr := (withChr m s).cart.chr } := rfl

/-- Another state with other CHR RAM, a state with CHR ROM, and a CHR-ROM cartridge under a CHR-RAM snapshot. -/
theorem witness_RestoreCapture :
    ready.InRange ∧ (withChr [(0, 1)] ready).cart = { ready.cart with chr := (withChr [(0, 1)] ready).cart.chr } ∧
      (withChr [(0, 1)] ready).cart.chr ≠ ready.cart.chr ∧ ready.cart.chrIsRam = true ∧
      readyChrRom.cart.chrIsRam = false :=
  ⟨ready_inRange, withChr_cart _ _, by decide, rfl, rfl⟩

theorem witness_FrameStepEnds :
    ready.ppu.inFrame ∧ (ready.mapPpu fun p => { p with scanline := 261, dot := 340 }).ppu.inFrame := by
  unfold Ppu.inFrame; decide

theorem step_ready : ∃ t, step ready = .next t := by
  have h : (match step ready with | .next _ => true | .fault _ | .refused _ => false) = true := by decide
  split at h
  · exact ⟨_, rfl⟩
  · cases h
  · cases h

theorem witness_ThreeDotsPerCycle : ready.ppu.inFrame ∧ ∃ t, step ready = .next t :=
  ⟨by unfold Ppu.inFrame; decide, step_ready⟩

theorem witness_StepKeepsInv : ready.Inv ∧ ∃ t, step ready = .next t :=
  ⟨⟨ready_inRange, by decide, by decide⟩, step_ready⟩

end Sys2Proof.Tests
end

section
/-! Proofs for the family 10_state: what each operation does, said once over the 56 mnemonics for every addressing mode;
overflow and borrow; the frames of registers, flags, hidden state and devices; and that D is unused. -/

namespace Sys2Proof.Machine

/-! ### What each operation does -/

/-- What an operation does, whatever its addressing mode. -/
inductive Effect where
  /-- Reads the operand byte and updates the CPU record from it. -/
  | operand (f : Byte → Cpu → Cpu)
  /-- Updates the CPU record. -/
  | update (f : Cpu → Cpu)
  /-- Writes a register at the effective address. -/
  | store (reg : Cpu → Byte)
  /-- Replaces the accumulator or the byte at the effective address. -/
  | modify (f : Byte → Flags → Modified)
  /-- Branches. -/
  | branch
  /-- Uses the stack or loads PC; no two of these share a form. -/
  | stackOrJump

/-- The effect of each operation. The lemmas `exec_of_…` below tie it to `exec`. -/
def Operation.effect : Operation → Effect
  | .lda => .operand loadA
  | .ldx => .operand loadX
  | .ldy => .operand loadY
  | .adc => .operand addA
  | .sbc => .operand subA
  | .and => .operand andA
  | .ora => .operand orA
  | .eor => .operand eorA
  | .bit => .operand bitA
  | .cmp => .operand cmpA
  | .cpx => .operand cmpX
  | .cpy => .operand cmpY
  | .sta => .store Cpu.a
  | .stx => .store Cpu.x
  | .sty => .store Cpu.y
  | .inc => .modify incModify
  | .dec => .modify decModify
  | .asl => .modify aslModify
  | .lsr => .modify lsrModify
  | .rol => .modify rolModify
  | .ror => .modify rorModify
  | .tax => .update transferAX
  | .tay => .update transferAY
  | .txa => .update transferXA
  | .tya => .update transferYA
  | .tsx => .update transferSX
  | .txs => .update transferXS
  | .inx => .update incX
  | .iny => .update incY
  | .dex => .update decX
  | .dey => .update decY
  | .clc => .update fun c => c.setP { c.p with c := false }
  | .sec => .update fun c => c.setP { c.p with c := true }
  | .cli => .update fun c => c.setP { c.p with i := false }
  | .sei => .update fun c => c.setP { c.p with i := true }
  | .cld => .update fun c => c.setP { c.p with d := false }
  | .sed => .update fun c => c.setP { c.p with d := true }
  | .clv => .update fun c => c.setP { c.p with v := false }
  | .nop => .update id
  | .bcc | .bcs | .beq | .bmi | .bne | .bpl | .bvc | .bvs => .branch
  | .pha | .php | .pla | .plp | .jmp | .jsr | .rts | .brk | .rti => .stackOrJump

@[simp] theorem located_st (i : Instr) (s : State) : (i.located s).st = advancePc i.length s := by
  unfold Instr.located
  cases i.row.operand with
  | memory m => exact locate_st _ _
  | implied | accumulator | immediate | target | pointer | relative => rfl

/-- Reading the operand touches no register of the CPU but PC. -/
@[simp] theorem operand_cpu (i : Instr) (s : State) : (i.operand s).2.cpu = (advancePc i.length s).cpu := by
  unfold Instr.operand
  cases i.row.operand with
  | memory m => rw [busRead_cpu, located_st]
  | implied | accumulator | immediate | target | pointer | relative => rfl

/-- The immediate and the read class as one form, with the cost of R176. -/
theorem exec_of_operand_eq_spend {i : Instr} {f : Byte → Cpu → Cpu} (h : i.op.effect = .operand f) (s : State) :
    exec i s = .next (spend (i.cost s) ((i.operand s).2.mapCpu (f (i.operand s).1))) := by
  cases i <;> cases h <;> rfl

/-- No operation on an operand looks at PC or the cycle counter. -/
theorem operand_effect_setPc {o : Operation} {f : Byte → Cpu → Cpu} (h : o.effect = .operand f) (m : Byte) (c : Cpu)
    (v : Word) (n : Nat) :
    { f m (c.setPc v) with cycles := (f m (c.setPc v)).cycles + n } =
      { f m c with pc := v, cycles := c.cycles + n } := by
  cases o <;> cases h <;> rfl

theorem exec_of_operand {i : Instr} {f : Byte → Cpu → Cpu} (h : i.op.effect = .operand f) (s : State) :
    exec i s = .next (i.leaves s (i.operand s).2 (f (i.operand s).1 s.cpu)) := by
  rw [exec_of_operand_eq_spend h, spend, State.mapCpu, State.mapCpu, operand_cpu, advancePc_cpu]
  simp only [operand_effect_setPc h, Instr.leaves]

theorem exec_of_update {i : Instr} {f : Cpu → Cpu} (h : i.op.effect = .update f) (s : State) :
    exec i s = .next (i.leaves s s (f s.cpu)) := by
  cases i <;> cases h <;> rfl

theorem exec_of_store {i : Instr} {reg : Cpu → Byte} (h : i.op.effect = .store reg) (s : State) :
    exec i s = .next (i.writes s (advancePc i.length s) (reg s.cpu) s.cpu) := by
  cases i <;> cases h <;> exact (writeClass_eq _ _ _ _ s).trans rfl

theorem exec_of_modify {i : Instr} {f : Byte → Flags → Modified} (h : i.op.effect = .modify f)
    (ha : i.onAccumulator = false) (s : State) :
    exec i s = .next (i.writes s (i.operand s).2 (f (i.operand s).1 s.cpu.p).r
      (s.cpu.setP (f (i.operand s).1 s.cpu.p).p)) := by
  cases i <;> cases h
  case aslAcc | lsrAcc | rolAcc | rorAcc => cases ha
  all_goals exact (rmwClass_eq _ _ _ _ s).trans rfl

theorem exec_of_modify_accumulator {i : Instr} {f : Byte → Flags → Modified} (h : i.op.effect = .modify f)
    (ha : i.onAccumulator = true) (s : State) :
    exec i s = .next (i.leaves s s ((s.cpu.setA (f s.cpu.a s.cpu.p).r).setP (f s.cpu.a s.cpu.p).p)) := by
  cases i <;> cases h
  case aslAcc | lsrAcc | rolAcc | rorAcc => rfl
  all_goals cases ha

theorem exec_of_branch {i : Instr} (h : i.op.effect = .branch) :
    ∃ d, ∀ s, exec i s = branchClass i.op.taken d s := by
  cases i <;> cases h <;> exact ⟨_, fun _ => rfl⟩

/-! ### Overflow and borrow (42_arithmetic_logic R260-R262) -/

/-- Settles O15: SBC is ADC of the complement, whose signed value is `-m - 1`. -/
theorem signedOverflowAndBorrow : Obligations.SignedOverflowAndBorrow := by
  unfold Obligations.SignedOverflowAndBorrow
  intro i s a m c
  constructor
  · intro h
    exact ⟨_, exec_of_operand (f := addA) (by rw [h]; rfl) s, adcOverflow_iff _ _ _⟩
  · intro h
    have hm : a.toInt + (~~~m).toInt + c = a.toInt - m.toInt - (1 - c) := by
      have := toInt_complement m
      omega
    obtain ⟨hv, ha⟩ := adcOverflow_iff a (~~~m) s.cpu.p.c
    rw [hm] at hv ha
    exact ⟨_, exec_of_operand (f := subA) (by rw [h]; rfl) s, hv, ha, sbcCarry_iff _ _ _⟩

/-! ### The registers and flags an operation leaves alone (10_state R31-R43) -/

/-- `d` differs from `c` only in registers and flags that the operation `o` writes; `acc` says that it works on the
accumulator. -/
def Operation.Frame (o : Operation) (acc : Bool) (c d : Cpu) : Prop :=
  ((decide (o ∈ [.lda, .pla, .txa, .tya, .adc, .sbc, .and, .ora, .eor]) || acc) = false → d.a = c.a) ∧
  (o.writesX = false → d.x = c.x) ∧ (o.writesY = false → d.y = c.y) ∧ (o.writesSp = false → d.sp = c.sp) ∧
  (o.writesC = false → d.p.c = c.p.c) ∧ (o.writesNZ = false → d.p.z = c.p.z) ∧
  (o.writesNZ = false → d.p.n = c.p.n) ∧ (o.writesI = false → d.p.i = c.p.i) ∧
  (o.writesD = false → d.p.d = c.p.d) ∧ (o.writesV = false → d.p.v = c.p.v) ∧
  (o.setsV = false → d.p.v = true → c.p.v = true)

theorem Operation.Frame.of_eq {c d : Cpu} (o : Operation) (acc : Bool) (ha : d.a = c.a) (hx : d.x = c.x)
    (hy : d.y = c.y) (hsp : d.sp = c.sp) (hp : d.p = c.p) : o.Frame acc c d := by
  simp [Operation.Frame, ha, hx, hy, hsp, hp]

theorem Operation.Frame.of_writesSp {o : Operation} {c d : Cpu} (acc : Bool) (h : o.writesSp = true) (ha : d.a = c.a)
    (hx : d.x = c.x) (hy : d.y = c.y) (hp : d.p = c.p) : o.Frame acc c d := by
  simp [Operation.Frame, h, ha, hx, hy, hp]

/-- PLP and RTI write SP and every flag. -/
theorem Operation.Frame.of_pulledFlags {o : Operation} {c d : Cpu} (acc : Bool) (h : o = .plp ∨ o = .rti)
    (ha : d.a = c.a) (hx : d.x = c.x) (hy : d.y = c.y) : o.Frame acc c d := by
  rcases h with rfl | rfl <;>
    exact ⟨fun _ => ha, fun _ => hx, fun _ => hy, nofun, nofun, nofun, nofun, nofun, nofun, nofun, nofun⟩

theorem operand_effect_frame {o : Operation} {f : Byte → Cpu → Cpu} (h : o.effect = .operand f) (acc : Bool)
    (m : Byte) (c : Cpu) : o.Frame acc c (f m c) := by
  cases o <;> cases h <;>
    simp [Operation.Frame, Operation.writesX, Operation.writesY, Operation.writesC, Operation.writesNZ,
      Operation.writesV, Operation.setsV, loadA, loadX, loadY, addA, subA, andA, orA, eorA, bitA, cmpA, cmpX, cmpY]

theorem update_effect_frame {o : Operation} {f : Cpu → Cpu} (h : o.effect = .update f) (acc : Bool) (c : Cpu) :
    o.Frame acc c (f c) := by
  cases o <;> cases h <;>
    simp [Operation.Frame, Operation.writesX, Operation.writesY, Operation.writesSp, Operation.writesC,
      Operation.writesNZ, Operation.writesI, Operation.writesD, Operation.writesV, loadA, loadX, loadY,
      transferAX, transferAY, transferXA, transferYA, transferSX, transferXS, incX, incY, decX, decY]

theorem modify_effect_frame {o : Operation} {f : Byte → Flags → Modified} (h : o.effect = .modify f) {acc : Bool}
    {c d : Cpu} (m : Byte) (ha : acc = false → d.a = c.a) (hx : d.x = c.x) (hy : d.y = c.y) (hsp : d.sp = c.sp)
    (hp : d.p = (f m c.p).p) : o.Frame acc c d := by
  cases o <;> cases h <;>
    simpa [Operation.Frame, Operation.writesC, Operation.writesNZ, incModify, decModify, aslModify, lsrModify,
      rolModify, rorModify, hx, hy, hsp, hp] using ha

theorem exec_stackOrJump_frame {i : Instr} (h : i.op.effect = .stackOrJump) (acc : Bool) {s t : State}
    (ht : exec i s = .next t) : i.op.Frame acc s.cpu t.cpu := by
  cases i <;> cases h <;> cases ht
  case pha | php =>
    rw [push_eq]
    exact .of_writesSp _ rfl rfl rfl rfl rfl
  case pla =>
    rw [pull_eq]
    exact ⟨nofun, fun _ => rfl, fun _ => rfl, nofun, fun _ => rfl, nofun, nofun, fun _ => rfl, fun _ => rfl,
      fun _ => rfl, fun _ => id⟩
  case plp =>
    rw [pullP_eq]
    exact .of_pulledFlags _ (.inl rfl) rfl rfl rfl
  case rti =>
    rw [returnFromException_eq]
    exact .of_pulledFlags _ (.inr rfl) rfl rfl rfl
  case jmpAbs => exact .of_eq _ _ rfl rfl rfl rfl rfl
  case jmpInd a =>
    have hc : (indirectTarget a (advancePc 3 s)).2.cpu = (advancePc 3 s).cpu := by
      simp only [indirectTarget, busRead_cpu]
    rw [spend, State.mapCpu, State.mapCpu, hc]
    exact .of_eq _ _ rfl rfl rfl rfl rfl
  case jsr =>
    rw [pushWord_eq]
    exact .of_writesSp _ rfl rfl rfl rfl rfl
  case rts =>
    rw [pullWord_eq]
    exact .of_writesSp _ rfl rfl rfl rfl rfl
  case brk =>
    rw [enterException_eq (by decide) (by decide)]
    exact ⟨fun _ => rfl, fun _ => rfl, fun _ => rfl, nofun, fun _ => rfl, fun _ => rfl, fun _ => rfl, nofun,
      fun _ => rfl, fun _ => rfl, fun _ => id⟩

/-- The frame of every instruction, by the effect of its operation. -/
theorem exec_frame {i : Instr} {s t : State} (ht : exec i s = .next t) :
    i.op.Frame i.onAccumulator s.cpu t.cpu := by
  cases h : i.op.effect with
  | operand f =>
    cases (exec_of_operand h s).symm.trans ht
    exact operand_effect_frame h _ _ _
  | update f =>
    cases (exec_of_update h s).symm.trans ht
    exact update_effect_frame h _ _
  | store reg =>
    cases (exec_of_store h s).symm.trans ht
    exact .of_eq _ _ rfl rfl rfl rfl rfl
  | modify f =>
    cases ha : i.onAccumulator with
    | false =>
      cases (exec_of_modify h ha s).symm.trans ht
      exact modify_effect_frame h _ (fun _ => rfl) rfl rfl rfl rfl
    | true =>
      cases (exec_of_modify_accumulator h ha s).symm.trans ht
      exact modify_effect_frame h _ nofun rfl rfl rfl rfl
  | branch =>
    obtain ⟨d, hd⟩ := exec_of_branch h
    rw [hd, branchClass_eq] at ht
    cases ht
    exact .of_eq _ _ rfl rfl rfl rfl rfl
  | stackOrJump => exact exec_stackOrJump_frame h _ ht

/-- Settles O26: `Operation.Frame` at the instruction's own operation is its frame. -/
theorem registerAndFlagFrame : Obligations.RegisterAndFlagFrame := by
  unfold Obligations.RegisterAndFlagFrame
  intro i s t ht
  exact exec_frame ht

/-! ### What a store outside the device registers leaves of the devices (20_memory R75) -/

/-- `t` has the cartridge, the devices and the latches of `s`, but for what the side effects of reads change. -/
structure State.SameDevices (s t : State) : Prop where
  cart : t.cart = s.cart
  ppu : t.ppu = { s.ppu with
    vblank := t.ppu.vblank, w := t.ppu.w, v := t.ppu.v, readBuffer := t.ppu.readBuffer }
  apu : t.apu = { s.apu with frameIrq := t.apu.frameIrq }
  pads : t.pads = { s.pads with shift1 := t.pads.shift1, shift2 := t.pads.shift2 }
  nmiPending : t.cpu.nmiPending = s.cpu.nmiPending
  oamDmaStarted : t.cpu.oamDmaStarted = s.cpu.oamDmaStarted

theorem State.SameDevices.refl (s : State) : s.SameDevices s := ⟨rfl, rfl, rfl, rfl, rfl, rfl⟩

theorem State.SameDevices.trans {s t u : State} (h : s.SameDevices t) (k : t.SameDevices u) : s.SameDevices u where
  cart := k.cart.trans h.cart
  ppu := by rw [k.ppu, h.ppu]
  apu := by rw [k.apu, h.apu]
  pads := by rw [k.pads, h.pads]
  nmiPending := k.nmiPending.trans h.nmiPending
  oamDmaStarted := k.oamDmaStarted.trans h.oamDmaStarted

theorem busRead_sameDevices (a : Word) (s : State) : s.SameDevices (busRead a s).2 := by
  obtain ⟨n, p, u, k, h, hp, hu, hk⟩ := busRead_cases a s
  rw [h]
  refine ⟨rfl, ?_, ?_, ?_, rfl, rfl⟩
  · rcases hp with rfl | rfl | rfl <;> rfl
  · rcases hu with rfl | rfl <;> rfl
  · rcases hk with rfl | rfl | rfl <;> rfl

/-- Reads, and writes outside the device registers, keep the devices but for the side effects of reads. -/
theorem sameDevices_busInvariant (s : State) : BusInvariant (fun a => ¬isDevice a) s.SameDevices where
  cpu _ _ hn _ _ ho _ _ h := ⟨h.cart, h.ppu, h.apu, h.pads, hn.trans h.nmiPending, ho.trans h.oamDmaStarted⟩
  read a _ h := h.trans (busRead_sameDevices a _)
  write a d t ha h := by
    obtain ⟨m, e⟩ := busWrite_not_device ha d t
    rw [e]
    exact ⟨h.cart, h.ppu, h.apu, h.pads, h.nmiPending, h.oamDmaStarted⟩

/-- Settles O28, by three properties that the bus keeps. -/
theorem hiddenStateFrame : Obligations.HiddenStateFrame := by
  unfold Obligations.HiddenStateFrame
  intro i s t ht
  obtain ⟨hstall, hhalt, hpc, hop⟩ :=
    (hidden_busInvariant s).exec (fun _ _ => trivial) ⟨rfl, rfl, rfl, rfl⟩ ht
  obtain ⟨hprg, hsize, hmir, hram, hchr⟩ :=
    (rom_busInvariant s).exec (fun _ _ => trivial) ⟨rfl, rfl, rfl, rfl, fun _ => rfl⟩ ht
  refine ⟨hstall, hhalt, hpc, hop, hprg, hsize, hmir, hram, hchr, fun hl => ?_⟩
  obtain ⟨hcart, hppu, hapu, hpads, hnmi, hdma⟩ := (sameDevices_busInvariant s).exec hl (.refl s) ht
  exact ⟨hcart, hppu, hapu, hpads, hnmi, hdma⟩

/-! ### The machine with another decimal flag (10_state R40) -/

/-- The flags with another decimal flag. -/
def Flags.withD (b : Bool) (p : Flags) : Flags := { p with d := b }

/-- The CPU record with another decimal flag. -/
def Cpu.withD (b : Bool) (c : Cpu) : Cpu := { c with p := c.p.withD b }

@[simp] theorem Cpu.withD_a (b : Bool) (c : Cpu) : (c.withD b).a = c.a := rfl
@[simp] theorem Cpu.withD_pc (b : Bool) (c : Cpu) : (c.withD b).pc = c.pc := rfl
@[simp] theorem Cpu.withD_p (b : Bool) (c : Cpu) : (c.withD b).p = c.p.withD b := rfl
@[simp] theorem Cpu.setA_withD (v : Byte) (b : Bool) (c : Cpu) : (c.withD b).setA v = (c.setA v).withD b := rfl
@[simp] theorem Cpu.setP_withD (p : Flags) (b : Bool) (c : Cpu) :
    (c.withD b).setP (p.withD b) = (c.setP p).withD b := rfl
@[simp] theorem State.withD_cpu (b : Bool) (s : State) : (s.withD b).cpu = s.cpu.withD b := rfl
@[simp] theorem advancePc_withD (n : Nat) (b : Bool) (s : State) :
    advancePc n (s.withD b) = (advancePc n s).withD b := rfl

@[simp] theorem busRead_withD (a : Word) (b : Bool) (s : State) :
    busRead a (s.withD b) = ((busRead a s).1, (busRead a s).2.withD b) := by
  rw [State.withD, busRead_withCpu, State.withD, busRead_cpu]

@[simp] theorem busWrite_withD (a : Word) (d : Byte) (b : Bool) (s : State) :
    busWrite a d (s.withD b) = (busWrite a d s).withD b := by
  obtain ⟨n, o, h⟩ := busWrite_cpu a d s
  refine (busWrite_withCpu a d (s.cpu.withD b) s rfl rfl).trans ?_
  simp only [State.withD, h]
  rfl

@[simp] theorem push_withD (v : Byte) (b : Bool) (s : State) : push v (s.withD b) = (push v s).withD b := by
  simp only [push_eq]
  rfl

@[simp] theorem pushWord_withD (w : Word) (b : Bool) (s : State) :
    pushWord w (s.withD b) = (pushWord w s).withD b := by
  simp only [pushWord, push_withD]

@[simp] theorem pull_withD (b : Bool) (s : State) : pull (s.withD b) = ((pull s).1, (pull s).2.withD b) := by
  simp only [pull_eq]
  rfl

@[simp] theorem pullWord_withD (b : Bool) (s : State) :
    pullWord (s.withD b) = ((pullWord s).1, (pullWord s).2.withD b) := by
  simp only [pullWord, pull_withD]

@[simp] theorem indirectTarget_withD (a : Word) (b : Bool) (s : State) :
    indirectTarget a (s.withD b) = ((indirectTarget a s).1, (indirectTarget a s).2.withD b) := by
  simp only [indirectTarget, busRead_withD]

@[simp] theorem locate_withD (m : Mode) (b : Bool) (s : State) :
    locate m (s.withD b) = { locate m s with st := s.withD b } := by
  cases m <;> simp only [locate, indexed, zeroPagePointer_eq] <;> rfl

@[simp] theorem located_withD (i : Instr) (b : Bool) (s : State) :
    i.located (s.withD b) = { i.located s with st := (advancePc i.length s).withD b } := by
  unfold Instr.located
  cases i.row.operand with
  | memory m => exact locate_withD m b (advancePc i.length s)
  | implied | accumulator | immediate | target | pointer | relative => rfl

@[simp] theorem operand_withD (i : Instr) (b : Bool) (s : State) :
    i.operand (s.withD b) = ((i.operand s).1, (i.operand s).2.withD b) := by
  unfold Instr.operand
  cases i.row.operand with
  | memory m => simp only [located_withD, located_st, busRead_withD]
  | implied | accumulator | immediate | target | pointer | relative => rfl

@[simp] theorem taken_withD (o : Operation) (b : Bool) (p : Flags) : o.taken (p.withD b) = o.taken p := by
  cases o <;> rfl

@[simp] theorem branchExtra_withD (i : Instr) (b : Bool) (s : State) :
    i.branchExtra (s.withD b) = i.branchExtra s := by
  unfold Instr.branchExtra
  cases i.row.operand with
  | relative d =>
    simp only [State.withD_cpu, Cpu.withD_p, Cpu.withD_pc, taken_withD]
    rfl
  | implied | accumulator | immediate | memory | target | pointer => rfl

@[simp] theorem cost_withD (i : Instr) (b : Bool) (s : State) : i.cost (s.withD b) = i.cost s := by
  simp only [Instr.cost, located_withD, branchExtra_withD]

@[simp] theorem leaves_withD (i : Instr) (b : Bool) (s u : State) (c : Cpu) :
    i.leaves (s.withD b) (u.withD b) (c.withD b) = (i.leaves s u c).withD b := by
  simp only [Instr.leaves, cost_withD]
  rfl

@[simp] theorem writes_withD (i : Instr) (b : Bool) (s u : State) (v : Byte) (c : Cpu) :
    i.writes (s.withD b) (u.withD b) v (c.withD b) = (i.writes s u v c).withD b := by
  simp only [Instr.writes, Instr.leaves, located_withD, busWrite_withD, cost_withD]
  rfl

theorem operand_effect_withD {o : Operation} {f : Byte → Cpu → Cpu} (h : o.effect = .operand f) (m : Byte)
    (b : Bool) (c : Cpu) : f m (c.withD b) = (f m c).withD b := by
  cases o <;> cases h <;> rfl

theorem update_effect_withD {o : Operation} {f : Cpu → Cpu} (h : o.effect = .update f) (hd : o.writesD = false)
    (b : Bool) (c : Cpu) : f (c.withD b) = (f c).withD b := by
  cases o <;> cases h
  case cld | sed => cases hd
  all_goals rfl

theorem store_effect_withD {o : Operation} {reg : Cpu → Byte} (h : o.effect = .store reg) (b : Bool) (c : Cpu) :
    reg (c.withD b) = reg c := by
  cases o <;> cases h <;> rfl

theorem modify_effect_withD {o : Operation} {f : Byte → Flags → Modified} (h : o.effect = .modify f) (m : Byte)
    (b : Bool) (p : Flags) : f m (p.withD b) = ⟨(f m p).r, (f m p).p.withD b⟩ := by
  cases o <;> cases h <;> rfl

theorem exec_stackOrJump_withD {i : Instr} (h : i.op.effect = .stackOrJump) (hi : i.op ∉ [.php, .brk, .plp, .rti])
    (b : Bool) {s t : State} (ht : exec i s = .next t) : exec i (s.withD b) = .next (t.withD b) := by
  cases i <;> cases h
  case php | plp | brk | rti => exact absurd hi (by decide)
  all_goals cases ht
  case pha =>
    rw [exec, execPha, advancePc_withD, push_withD]
    rfl
  case pla =>
    rw [exec, execPla, advancePc_withD, pull_withD]
    rfl
  case jmpAbs => rfl
  case jmpInd =>
    rw [exec, execJmpInd, advancePc_withD, indirectTarget_withD]
    rfl
  case jsr =>
    rw [exec, execJsr, advancePc_withD, pushWord_withD]
    rfl
  case rts =>
    rw [exec, execRts, advancePc_withD, pullWord_withD]
    rfl

/-- Settles O29: each effect commutes with a change of D, and so does what the instruction leaves. -/
theorem decimalIsUnused : Obligations.DecimalIsUnused := by
  unfold Obligations.DecimalIsUnused
  intro i s t b hi ht
  simp only [List.mem_cons, List.not_mem_nil, not_or] at hi
  cases h : i.op.effect with
  | operand f =>
    cases (exec_of_operand h s).symm.trans ht
    simp [exec_of_operand h, operand_effect_withD h]
  | update f =>
    have hd : i.op.writesD = false := by simp [Operation.writesD, hi]
    cases (exec_of_update h s).symm.trans ht
    simp [exec_of_update h, update_effect_withD h hd]
  | store reg =>
    cases (exec_of_store h s).symm.trans ht
    simp [exec_of_store h, store_effect_withD h]
  | modify f =>
    cases ha : i.onAccumulator with
    | false =>
      cases (exec_of_modify h ha s).symm.trans ht
      simp [exec_of_modify h ha, modify_effect_withD h]
    | true =>
      cases (exec_of_modify_accumulator h ha s).symm.trans ht
      simp [exec_of_modify_accumulator h ha, modify_effect_withD h]
  | branch =>
    obtain ⟨d, hd⟩ := exec_of_branch h
    rw [hd, branchClass_eq] at ht ⊢
    cases ht
    simp only [State.withD_cpu, Cpu.withD_p, Cpu.withD_pc, taken_withD]
    rfl
  | stackOrJump => exact exec_stackOrJump_withD h (by simp [hi]) b ht

end Sys2Proof.Machine

end

section
/-! Proofs for the family 20_memory: internal RAM and its mirrors, PRG ROM and the unmapped range, reads that nothing
drives, and the files the iNES loader rejects. -/

namespace Sys2Proof.Machine

/-! ### Internal RAM (R71, R83) -/

/-- Settles O31: both addresses select RAM, at their offsets modulo 0x800. -/
theorem ramMirrors : Obligations.RamMirrors := by
  unfold Obligations.RamMirrors
  intro s a b v hs ha hb
  obtain ⟨hwf, -⟩ := Memory.sized_iff.mp hs
  rw [busWrite_ram ha, busRead_ram hb, busRead_ram hb, Memory.read_write _ _ _ hwf]
  simp only [eq_comm]

/-! ### The rejected ROM files (R82) -/

/-- A byte's high nibble, cut out or shifted down, is one number. -/
theorem toNat_highNibble (b : Byte) : (b.extractLsb 7 4).toNat = (b >>> 4).toNat := by
  rw [BitVec.extractLsb_toNat, BitVec.toNat_ushiftRight, Nat.shiftRight_eq_div_pow]
  omega

theorem mapperNumber_toNat (rom : List Byte) :
    (mapperNumber rom).toNat = (fileByte rom 7 >>> 4).toNat <<< 4 ||| (fileByte rom 6 >>> 4).toNat := by
  rw [← toNat_highNibble, ← toNat_highNibble]
  exact BitVec.toNat_append _ _

theorem mapperNumber_eq_zero_iff (rom : List Byte) :
    mapperNumber rom = 0 ↔ fileByte rom 6 >>> 4 = 0 ∧ fileByte rom 7 >>> 4 = 0 := by
  simp only [← BitVec.toNat_inj, mapperNumber_toNat, BitVec.ofNat_eq_ofNat, BitVec.toNat_zero, Nat.or_eq_zero_iff,
    Nat.shiftLeft_eq_zero_iff]
  exact and_comm

/-- The loader accepts a file exactly if no case of R82 applies. -/
theorem romAccepted_iff (rom : List Byte) :
    romAccepted rom = true ↔
      rom.take 4 = [0x4E, 0x45, 0x53, 0x1A] ∧ (fileByte rom 6 >>> 4 = 0 ∧ fileByte rom 7 >>> 4 = 0) ∧
        16 ≤ rom.length ∧ prgStart rom + prgLength rom + chrLength rom ≤ rom.length ∧
        (fileByte rom 4 = 1 ∨ fileByte rom 4 = 2) ∧ (fileByte rom 5).toNat ≤ 1 ∧
        (fileByte rom 6).getLsbD 3 = false := by
  simp only [romAccepted, hasMagic, mapperNumber_eq_zero_iff, Bool.and_eq_true, Bool.or_eq_true, decide_eq_true_eq,
    Bool.not_eq_true', and_assoc]

theorem powerOn_eq_romFormat_iff (rom : List Byte) (draw : Draw) (s : State) :
    powerOn rom draw s = .error .romFormat ↔ ¬romAccepted rom = true := by
  unfold powerOn
  split <;> simp [*]

/-- Settles O55: the listed cases are the failures of the loader's checks, one by one. -/
theorem romRejected : Obligations.RomRejected := by
  unfold Obligations.RomRejected
  intro rom draw s
  rw [powerOn_eq_romFormat_iff, romAccepted_iff]
  simp only [not_and_or, not_or, Nat.not_le, Bool.not_eq_false, prgStart, prgLength, chrLength]
  rfl

/-! ### PRG ROM and the unmapped range (R76-R78) -/

theorem busTarget_apu {a : Word} (h1 : 0x4000 ≤ a.toNat) (h2 : a.toNat < 0x4014) :
    busTarget a = .apu (a.toNat - 0x4000) := by
  simp only [busTarget]
  rw [if_neg (by omega), if_neg (by omega), if_pos h2]

theorem busTarget_oamDma {a : Word} (h : a.toNat = 0x4014) : busTarget a = .oamDma := by
  simp [busTarget, h]

theorem busTarget_unmapped {a : Word} (h1 : 0x4018 ≤ a.toNat) (h2 : a.toNat < 0x8000) : busTarget a = .unmapped := by
  simp only [busTarget]
  iterate 7 rw [if_neg (by omega)]
  rw [if_pos h2]

theorem busWrite_unmapped {a : Word} (h1 : 0x4018 ≤ a.toNat) (h2 : a.toNat < 0x8000) (d : Byte) (s : State) :
    busWrite a d s = s := by
  simp only [busWrite, busTarget_unmapped h1 h2]

/-- Settles O32: a 32 KiB ROM fills the window, so its offset is its own remainder. -/
theorem romReadsAndIgnoredWrites : Obligations.RomReadsAndIgnoredWrites := by
  unfold Obligations.RomReadsAndIgnoredWrites
  constructor
  · intro s a h
    have hoff : a.toNat - 0x8000 < 0x8000 := by
      have := a.isLt
      omega
    rw [busRead_prg h, Cartridge.prgByte]
    cases s.cart.prgSize with
    | k16 => rfl
    | k32 => rw [PrgSize.bytes, Nat.mod_eq_of_lt hoff]
  · rintro s a v (h | ⟨h1, h2⟩)
    · exact busWrite_prg h v s
    · exact busWrite_unmapped h1 h2 v s

/-! ### Reads that nothing drives (R76, 65_ppu R450) -/

/-- The registers at offsets 0, 1, 3, 5 and 6 are write-only. -/
theorem ppuRegRead_writeOnly {n : Nat} (h : n ∈ [0, 1, 3, 5, 6]) (a : Word) (s : State) :
    ppuRegRead (ppuRegOf n) a s = undrivenRead a s := by
  simp only [List.mem_cons, List.not_mem_nil, or_false] at h
  rcases h with rfl | rfl | rfl | rfl | rfl <;> rfl

/-- Settles O33: each of the addresses selects a target whose read is undriven. -/
theorem undrivenReads : Obligations.UndrivenReads := by
  unfold Obligations.UndrivenReads
  intro s a h
  rw [← undrivenRead]
  rcases h with ⟨h1, h2, hr⟩ | ⟨h1, h2⟩ | ⟨h1, h2⟩
  · simp only [busRead, busTarget_ppu h1 h2, ppuRegRead_writeOnly hr]
  · rcases Nat.lt_or_eq_of_le h2 with h2 | h2
    · simp only [busRead, busTarget_apu h1 h2]
    · simp only [busRead, busTarget_oamDma h2]
  · simp only [busRead, busTarget_unmapped h1 h2]

end Sys2Proof.Machine

end

section
/-! Proofs for the family 30_encoding: encoding and decoding are inverse, the rows of the opcode table, the bytes that
raise `DecodeError`, the effective addresses, and the frame of memory. -/

namespace Sys2Proof.Machine

/-! ### Decoding what is encoded (R120-R122, R126) -/

open Laws.DecodeEncode in
/-- The encoding of every instruction decodes to it, by the constructors of `Instr` in their order. -/
theorem decode_encode : ∀ i : Instr, Laws.DecodeEncode.Statement i :=
  Instr.rec (motive := Statement)
    ldaImm ldaZp ldaZpx ldaAbs ldaAbsx ldaAbsy ldaIzx ldaIzy ldxImm ldxZp ldxZpy ldxAbs ldxAbsy ldyImm ldyZp
    ldyZpx ldyAbs ldyAbsx staZp staZpx staAbs staAbsx staAbsy staIzx staIzy stxZp stxZpy stxAbs styZp styZpx
    styAbs tax tay txa tya tsx txs pha php pla plp adcImm adcZp adcZpx adcAbs adcAbsx adcAbsy adcIzx adcIzy sbcImm
    sbcZp sbcZpx sbcAbs sbcAbsx sbcAbsy sbcIzx sbcIzy andImm andZp andZpx andAbs andAbsx andAbsy andIzx andIzy
    oraImm oraZp oraZpx oraAbs oraAbsx oraAbsy oraIzx oraIzy eorImm eorZp eorZpx eorAbs eorAbsx eorAbsy eorIzx
    eorIzy bitZp bitAbs cmpImm cmpZp cmpZpx cmpAbs cmpAbsx cmpAbsy cmpIzx cmpIzy cpxImm cpxZp cpxAbs cpyImm cpyZp
    cpyAbs incZp incZpx incAbs incAbsx decZp decZpx decAbs decAbsx inx iny dex dey aslAcc aslZp aslZpx aslAbs
    aslAbsx lsrAcc lsrZp lsrZpx lsrAbs lsrAbsx rolAcc rolZp rolZpx rolAbs rolAbsx rorAcc rorZp rorZpx rorAbs
    rorAbsx jmpAbs jmpInd jsr rts bcc bcs beq bmi bne bpl bvc bvs clc sec cli sei cld sed clv brk rti nop

/-- Settles O1, instruction by instruction: an operand is made again from its bytes, a displacement from its byte where
it is in range. -/
theorem decodeEncode : Obligations.DecodeEncode := by
  unfold Obligations.DecodeEncode
  exact decode_encode

/-! ### Encoding what is decoded (R120, R123) -/

/-- What decodes was read from a documented cell of the opcode map, with as many operand bytes as its format has. -/
theorem decode_cases {bytes rest : List Byte} {i : Instr} (h : decode bytes = some (i, rest)) :
    (∃ op, bytes = op :: rest ∧ opcodeCell op = .f1 i) ∨
    (∃ op f b, bytes = op :: b :: rest ∧ opcodeCell op = .f2 f ∧ f b = i) ∨
    (∃ op f lo hi, bytes = op :: lo :: hi :: rest ∧ opcodeCell op = .f3 f ∧ f (wordOf lo hi) = i) := by
  cases bytes with
  | nil => cases h
  | cons op tail =>
    cases hc : opcodeCell op <;> simp only [decode, hc] at h
    case illegal => cases h
    case f1 j =>
      cases h
      exact .inl ⟨op, rfl, hc⟩
    case f2 f =>
      cases tail with
      | nil => cases h
      | cons b tail =>
        cases h
        exact .inr (.inl ⟨op, f, b, rfl, hc, rfl⟩)
    case f3 f =>
      match tail, h with
      | lo :: hi :: tail, h =>
        cases h
        exact .inr (.inr ⟨op, f, lo, hi, rfl, hc, rfl⟩)

theorem standsAt_of_opcodeCell {op : Byte} {c : OpcodeCell} (h : opcodeCell op = c) : c.StandsAt op :=
  h ▸ opcodeCell_standsAt op

/-- Settles O2: each cell of the opcode map holds well-formed instructions that are encoded by the cell's own byte. -/
theorem decodeIsCanonical : Obligations.DecodeIsCanonical := by
  unfold Obligations.DecodeIsCanonical
  intro bytes i rest h
  rcases decode_cases h with ⟨op, rfl, hc⟩ | ⟨op, f, b, rfl, hc, rfl⟩ | ⟨op, f, lo, hi, rfl, hc, rfl⟩
  · obtain ⟨hwf, henc⟩ := standsAt_of_opcodeCell hc
    exact ⟨hwf, by rw [henc]; rfl⟩
  · obtain ⟨hwf, henc⟩ := standsAt_of_opcodeCell hc b
    exact ⟨hwf, by rw [henc]; rfl⟩
  · obtain ⟨hwf, henc⟩ := standsAt_of_opcodeCell hc (wordOf lo hi)
    exact ⟨hwf, by rw [henc, addr16Bytes, loByte_wordOf, hiByte_wordOf]; rfl⟩

/-- Settles O3, by evaluating the decoder on each word. -/
theorem decodeSpecWords : Obligations.DecodeSpecWords := by
  unfold Obligations.DecodeSpecWords
  decide

/-! ### The rows of the opcode table (R120, R126) -/

/-- The encoder gives an instruction its row's opcode byte and as many operand bytes as the row's length says. -/
theorem encode_row (i : Instr) : (encode i).length = i.length ∧ (encode i).head? = some i.row.opcode := by
  cases i <;> exact ⟨rfl, rfl⟩

/-- The opcode map has an instruction's format at the opcode byte of its row. -/
theorem opcodeLength_row (i : Instr) : opcodeLength i.row.opcode = some i.length := by
  cases i <;> simp only [Instr.length, Instr.row] <;> rfl

/-- Settles O4: the encoder and the opcode map agree with the table, row by row. -/
theorem encodedRows : Obligations.EncodedRows := by
  unfold Obligations.EncodedRows
  intro i
  obtain ⟨hlen, hop⟩ := encode_row i
  exact ⟨hlen, hop, opcodeLength_row i⟩

/-! ### Undocumented opcode bytes (R124) -/

theorem opcodeLength_eq_none_iff (op : Byte) : opcodeLength op = none ↔ opcodeCell op = .illegal := by
  unfold opcodeLength
  cases opcodeCell op <;> simp

/-- The list of R124 is what the opcode map leaves out, in ascending order. -/
theorem illegalOpcodes_eq_filter :
    illegalOpcodes = ((List.range 256).map (BitVec.ofNat 8)).filter fun op => (opcodeLength op).isNone := by
  decide

theorem mem_illegalOpcodes_iff (op : Byte) : op ∈ illegalOpcodes ↔ opcodeCell op = .illegal := by
  have hrange : op ∈ (List.range 256).map (BitVec.ofNat 8) :=
    List.mem_map.mpr ⟨op.toNat, List.mem_range.mpr op.isLt, by simp⟩
  rw [illegalOpcodes_eq_filter, List.mem_filter, Option.isNone_iff_eq_none, opcodeLength_eq_none_iff]
  exact and_iff_right hrange

theorem fetch_illegal {s : State} (h : opcodeCell (busRead s.cpu.pc s).1 = .illegal) :
    fetch s = .illegal (busRead s.cpu.pc s).1 (busRead s.cpu.pc s).2 := by
  simp only [fetch, h]

/-- A documented opcode byte is fetched as an instruction. -/
theorem fetch_instr {s : State} (h : opcodeCell (busRead s.cpu.pc s).1 ≠ .illegal) :
    ∃ i t, fetch s = .instr i t := by
  cases hc : opcodeCell (busRead s.cpu.pc s).1 <;> simp only [fetch, hc]
  case illegal => exact absurd hc h
  all_goals exact ⟨_, _, rfl⟩

theorem executeOne_instr {s t : State} {i : Instr} (h : fetch s = .instr i t) : ∃ u, executeOne s = .next u := by
  obtain ⟨u, hu⟩ := (exec_shape i t).next
  exact ⟨endStep u, by simp only [executeOne, h, hu, finishStep]⟩

theorem cpuStep_eq_executeOne {s : State} (hh : s.cpu.halted = false) (hp : poll s = .none) :
    cpuStep s = executeOne s := by
  simp [cpuStep, hh, hp]

/-- Settles O5: the fetch faults on an undocumented byte, and no instruction faults. -/
theorem illegalOpcodesFault : Obligations.IllegalOpcodesFault := by
  unfold Obligations.IllegalOpcodesFault
  intro s hh hp
  rw [cpuStep_eq_executeOne hh hp, mem_illegalOpcodes_iff]
  constructor
  · intro hc
    simp only [executeOne, fetch_illegal hc]
  · intro hf
    by_contra hc
    obtain ⟨i, t, hi⟩ := fetch_instr hc
    obtain ⟨u, hu⟩ := executeOne_instr hi
    cases hf.symm.trans hu

/-! ### Effective addresses (R134-R137, R139, R140) -/

theorem zeroPage_eq_setWidth (z : Byte) : zeroPage z = z.setWidth 16 := by
  apply BitVec.eq_of_toNat_eq
  have := z.isLt
  rw [zeroPage_toNat, BitVec.toNat_setWidth, Nat.mod_eq_of_lt (by omega)]

/-- Settles O30: an address of the zero page is its byte extended, and a pointer is two bytes of internal RAM. -/
theorem effectiveAddress : Obligations.EffectiveAddress := by
  unfold Obligations.EffectiveAddress
  intro s
  simp only [locate, indexed, zeroPagePointer_eq, zeroPage_eq_setWidth, wordOf, implies_true, and_self]

/-! ### The frame of memory (R142, 20_memory R71, R78) -/

/-- Reads of the bus, and writes to other bytes of RAM than an address's own, keep the byte of memory there. -/
theorem memoryByte_busInvariant {a : Word} (ha : isMemory a) (v : Byte) :
    BusInvariant (fun b => ¬sameRamByte a b) fun t => t.ram.wf ∧ (busRead a t).1 = v where
  cpu t c _ _ _ _ _ _ h := by
    rw [busRead_withCpu]
    exact h
  read b t h := by
    have hcart := busRead_cart b t
    rw [busRead_ram_kept, busRead_memory_congr ha (busRead_ram_kept b t) (by rw [hcart]) (by rw [hcart])]
    exact h
  write b d _ hb h := ⟨busWrite_ram_wf b d h.1, (busRead_busWrite_other ha hb d h.1).trans h.2⟩

/-- Settles O27: `exec` touches memory only by bus writes at the addresses it stores to. -/
theorem memoryFrame : Obligations.MemoryFrame := by
  unfold Obligations.MemoryFrame
  intro i s t hs ht a ha hl
  obtain ⟨hwf, -⟩ := Memory.sized_iff.mp hs
  obtain ⟨-, hbyte⟩ := (memoryByte_busInvariant ha (busRead a s).1).exec hl ⟨hwf, rfl⟩ ht
  exact hbyte

end Sys2Proof.Machine

end

section
/-! Proofs for the family 35_execution: every instruction completes at the cost of its row, and a step runs the instruction
that memory holds at PC. -/

namespace Sys2Proof.Machine

/-! ### What an instruction costs (R176) -/

/-- A branch has a displacement for its operand. -/
theorem operand_of_branch {i : Instr} (h : i.op.effect = .branch) : ∃ d, i.row.operand = .relative d := by
  cases i <;> cases h <;> exact ⟨_, rfl⟩

/-- What has a displacement for its operand runs as a branch, and its row counts 2 cycles and no penalty. -/
theorem relative_row {i : Instr} {d : Int} (h : i.row.operand = .relative d) :
    exec i = branchClass i.op.taken d ∧ i.row.cycles = 2 ∧ i.row.penalty = false := by
  cases i <;> cases h <;> exact ⟨rfl, rfl, rfl⟩

theorem branchExtra_relative {i : Instr} {d : Int} (h : i.row.operand = .relative d) (s : State) :
    i.branchExtra s =
      if i.op.taken s.cpu.p then
        if page (s.cpu.pc + 2) = page (s.cpu.pc + 2 + displacement d) then 1 else 2
      else 0 := by
  simp only [Instr.branchExtra, h]
  rfl

theorem branchExtra_of_not_relative {i : Instr} (h : ∀ d, i.row.operand ≠ .relative d) (s : State) :
    i.branchExtra s = 0 := by
  unfold Instr.branchExtra
  split
  · next d hd => exact absurd hd (h d)
  · rfl

theorem cost_relative {i : Instr} {d : Int} (h : i.row.operand = .relative d) (s : State) :
    i.cost s = 2 + i.branchExtra s := by
  obtain ⟨-, hcycles, hpenalty⟩ := relative_row h
  simp [Instr.cost, hcycles, hpenalty]

/-- A row's base cycles are 2 to 7, and one cycle less at most where a page crossing is charged. -/
theorem row_cycles_bounds (i : Instr) : 2 ≤ i.row.cycles ∧ i.row.cycles + i.row.penalty.toNat ≤ 7 := by
  cases i <;> simp [Instr.row]

theorem cost_bounds (i : Instr) (s : State) : 2 ≤ i.cost s ∧ i.cost s ≤ 7 := by
  by_cases h : ∃ d, i.row.operand = .relative d
  · obtain ⟨d, hd⟩ := h
    rw [cost_relative hd, branchExtra_relative hd]
    repeat' split
    all_goals omega
  · obtain ⟨hlow, hhigh⟩ := row_cycles_bounds i
    rw [Instr.cost, branchExtra_of_not_relative (not_exists.mp h)]
    have hpenalty : (if i.row.penalty && (i.located s).cross then 1 else 0) ≤ i.row.penalty.toNat := by
      cases i.row.penalty <;> cases (i.located s).cross <;> decide
    omega

/-! ### What an instruction adds to the cycle counter (R9, R170, R176) -/

theorem exec_branch_cycles {i : Instr} (h : i.op.effect = .branch) {s t : State} (ht : exec i s = .next t) :
    t.cpu.cycles = s.cpu.cycles + i.cost s := by
  obtain ⟨d, hd⟩ := operand_of_branch h
  obtain ⟨hexec, -, -⟩ := relative_row hd
  rw [hexec, branchClass_eq] at ht
  cases ht
  rw [cost_relative hd, branchExtra_relative hd]
  cases i.op.taken s.cpu.p with
  | false => rfl
  | true =>
    simp only [ne_eq, ite_not, if_true]
    split <;> rfl

theorem exec_stackOrJump_cycles {i : Instr} (h : i.op.effect = .stackOrJump) {s t : State}
    (ht : exec i s = .next t) : t.cpu.cycles = s.cpu.cycles + i.cost s := by
  cases i <;> cases h <;> cases ht
  case pha | php => rw [push_eq]; rfl
  case pla => rw [pull_eq]; rfl
  case plp => rw [pullP_eq]; rfl
  case rti => rw [returnFromException_eq]; rfl
  case jmpAbs => rfl
  case jmpInd a =>
    simp only [spend_cpu_cycles, State.mapCpu_cpu, Cpu.setPc_cycles, indirectTarget, busRead_cpu, advancePc_cpu]
    rfl
  case jsr => rw [pushWord_eq]; rfl
  case rts => rw [pullWord_eq]; rfl
  case brk => rw [enterException_eq (by decide) (by decide)]; rfl

/-- Every instruction counts its cost, by the effect of its operation. -/
theorem exec_cycles {i : Instr} {s t : State} (ht : exec i s = .next t) :
    t.cpu.cycles = s.cpu.cycles + i.cost s := by
  cases h : i.op.effect with
  | operand f =>
    cases (exec_of_operand h s).symm.trans ht
    rfl
  | update f =>
    cases (exec_of_update h s).symm.trans ht
    rfl
  | store reg =>
    cases (exec_of_store h s).symm.trans ht
    rfl
  | modify f =>
    cases ha : i.onAccumulator with
    | false =>
      cases (exec_of_modify h ha s).symm.trans ht
      rfl
    | true =>
      cases (exec_of_modify_accumulator h ha s).symm.trans ht
      rfl
  | branch => exact exec_branch_cycles h ht
  | stackOrJump => exact exec_stackOrJump_cycles h ht

/-- Settles O25: a next state follows from the shapes of the meanings, its cycles and their bounds from the rows. -/
theorem everyInstructionCompletes : Obligations.EveryInstructionCompletes := by
  unfold Obligations.EveryInstructionCompletes
  intro i s
  obtain ⟨t, ht⟩ := (exec_shape i s).next
  exact ⟨⟨t, ht, exec_cycles ht⟩, cost_bounds i s⟩

/-! ### The step (R170-R172, 67_io_scheduler_host R585) -/

/-- Without a pending NMI, and with I set or no IRQ request, the poll selects nothing (R171). -/
theorem poll_none {s : State} (hn : s.cpu.nmiPending = false)
    (hi : s.cpu.p.i = true ∨ s.apu.frameIrq = false ∧ s.apu.dmcIrq = false) : poll s = .none := by
  obtain hi | ⟨hf, hd⟩ := hi
  · simp [poll, hn, hi]
  · simp [poll, hn, Apu.irqRequest, hf, hd]

/-- Bytes of memory that decode to an instruction are fetched as it, and reading them changes nothing (R172). -/
theorem fetch_of_decode {s : State} {i : Instr} {rest : List Byte} (h0 : isMemory s.cpu.pc)
    (h1 : isMemory (s.cpu.pc + 1)) (h2 : isMemory (s.cpu.pc + 2))
    (hd : decode [(busRead s.cpu.pc s).1, (busRead (s.cpu.pc + 1) s).1, (busRead (s.cpu.pc + 2) s).1] =
      some (i, rest)) : fetch s = .instr i s := by
  rcases decode_cases hd with ⟨op, hb, hc⟩ | ⟨op, f, b, hb, hc, rfl⟩ | ⟨op, f, lo, hi, hb, hc, rfl⟩ <;> cases hb
  all_goals simp only [fetch, hc, busRead_memory h0, busRead_memory h1, busRead_memory h2]

/-- Settles O6: the poll selects nothing, so the CPU step is the fetched instruction and the end of its step. -/
theorem stepRunsDecoded : Obligations.StepRunsDecoded := by
  unfold Obligations.StepRunsDecoded
  refine ⟨fun s s' i hh hn hi hf => ?_, fun s i rest h0 h1 h2 hd => fetch_of_decode h0 h1 h2 hd⟩
  have hstep : cpuStep s = finishStep (exec i s') := by
    rw [cpuStep_eq_executeOne hh (poll_none hn hi), executeOne, hf]
  rw [step, schedulerPass, hstep]
  cases exec i s' <;> rfl

end Sys2Proof.Machine

end

section
/-! Proofs for the family 40_load_store: the loads are operand reads and the stores are bus writes at the effective
address, by the effect of the operation. -/

namespace Sys2Proof.Machine

/-- Settles O10: each load is an operand read whose effect is the load of one register, with N and Z from it (R201-R203). -/
theorem loadResult : Obligations.LoadResult := by
  unfold Obligations.LoadResult
  intro i s m p
  refine ⟨fun h => ?lda, fun h => ?ldx, fun h => ?ldy⟩
  case lda => exact exec_of_operand (f := loadA) (congrArg Operation.effect h) s
  case ldx => exact exec_of_operand (f := loadX) (congrArg Operation.effect h) s
  case ldy => exact exec_of_operand (f := loadY) (congrArg Operation.effect h) s

/-- Settles O11: each store is one write of its register, made once PC is past the instruction (R204-R206). -/
theorem storeResult : Obligations.StoreResult := by
  unfold Obligations.StoreResult
  intro i s
  rw [located_st]
  refine ⟨fun h => ?sta, fun h => ?stx, fun h => ?sty⟩
  case sta => exact exec_of_store (reg := Cpu.a) (congrArg Operation.effect h) s
  case stx => exact exec_of_store (reg := Cpu.x) (congrArg Operation.effect h) s
  case sty => exact exec_of_store (reg := Cpu.y) (congrArg Operation.effect h) s

end Sys2Proof.Machine

end

section
/-! Proofs for the family 41_transfer_stack: the transfers are updates of the CPU record; the stack instructions each push
or pull one byte of RAM in the stack page. -/

namespace Sys2Proof.Machine

/-! ### Transfers (R231-R236) -/

/-- Settles O12: each transfer is an update of the CPU record, a load of one register from another or, for TXS, a plain
write of SP. -/
theorem transferResult : Obligations.TransferResult := by
  unfold Obligations.TransferResult
  intro s nz
  refine ⟨?tax, ?tay, ?txa, ?tya, ?tsx, ?txs⟩
  case tax => exact exec_of_update (f := transferAX) rfl s
  case tay => exact exec_of_update (f := transferAY) rfl s
  case txa => exact exec_of_update (f := transferXA) rfl s
  case tya => exact exec_of_update (f := transferYA) rfl s
  case tsx => exact exec_of_update (f := transferSX) rfl s
  case txs => exact exec_of_update (f := transferXS) rfl s

/-! ### The stack (R237-R240) -/

/-- The bits of a packed P from bit 7 down (10_state R44). -/
theorem packP_bits (b : Bool) (p : Flags) :
    [7, 6, 5, 4, 3, 2, 1, 0].map (packP b p).getLsbD = [p.n, p.v, true, b, p.d, p.i, p.z, p.c] := by
  obtain ⟨c, z, i, d, v, n⟩ := p
  revert b c z i d v n
  decide

/-- Settles O13: a push and a pull each access one slot of the stack page, and PC and the cycles follow the row. -/
theorem pushPullResult : Obligations.PushPullResult := by
  unfold Obligations.PushPullResult
  refine ⟨fun s => ⟨?pha, ?php, ?pla, ?plp⟩, packP_bits⟩
  case pha =>
    rw [exec, execPha, push_eq]
    rfl
  case php =>
    rw [exec, execPhp, push_eq]
    rfl
  case pla =>
    rw [exec, execPla, pull_eq]
    rfl
  case plp =>
    rw [exec, execPlp, pullP_eq]
    rfl

end Sys2Proof.Machine

end

section
/-! Proofs for the family 42_arithmetic_logic: every operation here reads one operand and updates the CPU record from it,
so each result is the effect of the operation (`exec_of_operand`), with its flags as the rules write them. -/

namespace Sys2Proof.Machine

/-! ### Arithmetic (R261, R262) -/

/-- Settles O14: each form is an operand read whose effect is the sum, for SBC with the complement of the operand. -/
theorem addSubtractResult : Obligations.AddSubtractResult := by
  unfold Obligations.AddSubtractResult
  intro i s added
  refine ⟨fun h => ?adc, fun h => ?sbc⟩
  case adc => exact exec_of_operand (f := addA) (congrArg Operation.effect h) s
  case sbc => exact exec_of_operand (f := subA) (congrArg Operation.effect h) s

/-! ### Logic (R263-R266) -/

/-- Settles O16: each form is an operand read whose effect loads A with the bitwise result, with N and Z from it. -/
theorem logicResult : Obligations.LogicResult := by
  unfold Obligations.LogicResult
  intro i s m result
  refine ⟨fun h => ?and, fun h => ?ora, fun h => ?eor⟩
  case and => exact exec_of_operand (f := andA) (congrArg Operation.effect h) s
  case ora => exact exec_of_operand (f := orA) (congrArg Operation.effect h) s
  case eor => exact exec_of_operand (f := eorA) (congrArg Operation.effect h) s

/-- Settles O17: both forms are an operand read whose effect is the bit test, which writes flags alone. -/
theorem bitResult : Obligations.BitResult := by
  unfold Obligations.BitResult
  intro i s h m
  exact exec_of_operand (f := bitA) (congrArg Operation.effect h) s

/-! ### Compare (R267-R270) -/

/-- The byte difference of a compare is the integer difference taken modulo 256 (R270). -/
theorem sub_eq_ofInt (r m : Byte) : r - m = BitVec.ofInt 8 ((r.toNat : Int) - m.toNat) := by
  apply BitVec.eq_of_toNat_eq
  rw [BitVec.toNat_sub, BitVec.toNat_ofInt]
  omega

/-- The flags of a compare, with N as bit 7 of the integer difference (R270). -/
theorem Flags.compare_eq (r m : Byte) (p : Flags) :
    Flags.compare r m p =
      { p with
        c := decide (r.toNat ≥ m.toNat), z := decide (r = m),
        n := (BitVec.ofInt 8 ((r.toNat : Int) - m.toNat)).getLsbD 7 } := by
  rw [Flags.compare, sub_eq_ofInt]

/-- Settles O18: each form is an operand read whose effect is the compare of one register, which writes flags alone. -/
theorem compareResult : Obligations.CompareResult := by
  unfold Obligations.CompareResult
  intro i s m compared
  have hcompared (r : Byte) : s.cpu.setP (Flags.compare r m s.cpu.p) = compared r := by
    rw [Flags.compare_eq]
    rfl
  simp only [← hcompared]
  refine ⟨fun h => ?cmp, fun h => ?cpx, fun h => ?cpy⟩
  case cmp => exact exec_of_operand (f := cmpA) (congrArg Operation.effect h) s
  case cpx => exact exec_of_operand (f := cmpX) (congrArg Operation.effect h) s
  case cpy => exact exec_of_operand (f := cmpY) (congrArg Operation.effect h) s

end Sys2Proof.Machine

end

section
/-! Proofs for the family 43_inc_dec_shift: each operation here replaces a byte, the accumulator or the one at the effective
address, or updates X or Y, so each result is the effect of the operation, with the byte as the rules write it. -/

namespace Sys2Proof.Machine

/-! ### Increments and decrements (R301-R306) -/

/-- INC and DEC have memory forms alone. -/
theorem not_onAccumulator_of_inc_or_dec {i : Instr} (h : i.op = .inc ∨ i.op = .dec) : i.onAccumulator = false := by
  rw [Instr.onAccumulator, decide_eq_false_iff_not]
  intro ha
  cases i <;> cases ha
  case aslAcc | lsrAcc | rolAcc | rorAcc => obtain h | h := h <;> cases h

/-- Settles O19: INC and DEC replace the byte at the effective address; INX, INY, DEX and DEY are loads of X or Y from the
register's successor or predecessor. -/
theorem incDecResult : Obligations.IncDecResult := by
  unfold Obligations.IncDecResult
  intro i s m nz
  refine ⟨fun h => ?inc, fun h => ?dec, ?inx, ?iny, ?dex, ?dey⟩
  case inc =>
    exact exec_of_modify (f := incModify) (congrArg Operation.effect h) (not_onAccumulator_of_inc_or_dec (.inl h)) s
  case dec =>
    exact exec_of_modify (f := decModify) (congrArg Operation.effect h) (not_onAccumulator_of_inc_or_dec (.inr h)) s
  case inx => exact exec_of_update (f := incX) rfl s
  case iny => exact exec_of_update (f := incY) rfl s
  case dex => exact exec_of_update (f := decX) rfl s
  case dey => exact exec_of_update (f := decY) rfl s

/-! ### Shifts and rotates (R307-R310) -/

/-- The operand of an accumulator form is A (30_encoding R132). -/
theorem operand_onAccumulator {i : Instr} (h : i.onAccumulator = true) (s : State) : (i.operand s).1 = s.cpu.a := by
  rw [Instr.operand, of_decide_eq_true h]

/-- An operation that replaces a byte, in either kind of form, from the operand `m` of its row. -/
theorem exec_of_modify_operand {i : Instr} {f : Byte → Flags → Modified} (h : i.op.effect = .modify f) (s : State) :
    let m := (i.operand s).1
    exec i s =
      if i.onAccumulator then .next (i.leaves s s ((s.cpu.setA (f m s.cpu.p).r).setP (f m s.cpu.p).p))
      else .next (i.writes s (i.operand s).2 (f m s.cpu.p).r (s.cpu.setP (f m s.cpu.p).p)) := by
  cases ha : i.onAccumulator with
  | true => rw [operand_onAccumulator ha]; exact exec_of_modify_accumulator h ha s
  | false => exact exec_of_modify h ha s

/-- Settles O20: each form replaces its operand, in A or in memory; the model's concatenations of bits are the shifts of
the rules. -/
theorem shiftResult : Obligations.ShiftResult := by
  unfold Obligations.ShiftResult
  intro i s m carry shifted
  have hrol : m <<< 1 ||| carry = rolByte m s.cpu.p.c := (rolByte_eq m s.cpu.p.c).symm
  have hror : carry <<< 7 ||| m >>> 1 = rorByte m s.cpu.p.c := (rorByte_eq m s.cpu.p.c).symm
  rw [hrol, hror, ← aslByte_eq, ← lsrByte_eq]
  refine ⟨fun h => ?asl, fun h => ?lsr, fun h => ?rol, fun h => ?ror⟩
  case asl => exact exec_of_modify_operand (f := aslModify) (congrArg Operation.effect h) s
  case lsr => exact exec_of_modify_operand (f := lsrModify) (congrArg Operation.effect h) s
  case rol => exact exec_of_modify_operand (f := rolModify) (congrArg Operation.effect h) s
  case ror => exact exec_of_modify_operand (f := rorModify) (congrArg Operation.effect h) s

end Sys2Proof.Machine

end

section
/-! Proofs for the family 44_control_flow: jumps, calls and branches in full, and a return after an entry or a call. The
return reads back what was pushed because different stack slots are different bytes of RAM, for every SP. -/

namespace Sys2Proof.Machine

/-! ### Jumps, calls and returns (R331-R333, 45_flags_system R379) -/

theorem exec_jmpAbs (a : Word) (s : State) :
    exec (.jmpAbs a) s = .next { s with cpu := { s.cpu with pc := a, cycles := s.cpu.cycles + 3 } } := rfl

/-- JMP (ind) keeps the side effects of its two pointer reads, which touch no register of the CPU. -/
theorem exec_jmpInd (a : Word) (s : State) :
    let target := indirectTarget a (advancePc 3 s)
    exec (.jmpInd a) s =
      .next { target.2 with cpu := { s.cpu with pc := target.1, cycles := s.cpu.cycles + 5 } } := by
  have hcpu : (indirectTarget a (advancePc 3 s)).2.cpu = (advancePc 3 s).cpu := by
    simp only [indirectTarget, busRead_cpu]
  rw [exec, execJmpInd, spend, State.mapCpu, State.mapCpu, hcpu]
  rfl

/-- JSR pushes the address of its last byte, one before the instruction after it. -/
theorem exec_jsr (a : Word) (s : State) :
    let ret := s.cpu.pc + 2
    exec (.jsr a) s = .next
      { s with
        ram := (s.ram.write (0x100 + s.cpu.sp.toNat) (hiByte ret)).write (0x100 + (s.cpu.sp - 1).toNat) (loByte ret)
        cpu := { s.cpu with sp := s.cpu.sp - 2, pc := a, cycles := s.cpu.cycles + 6 } } := by
  have hret : (advancePc 3 s).cpu.pc - 1 = s.cpu.pc + 2 := by
    rw [advancePc_cpu, Cpu.setPc_pc]
    bv_omega
  rw [exec, execJsr, hret, pushWord_eq]
  rfl

theorem exec_rts (s : State) :
    let ret := wordOf (s.ram.read (0x100 + (s.cpu.sp + 1).toNat)) (s.ram.read (0x100 + (s.cpu.sp + 2).toNat))
    exec .rts s =
      .next { s with cpu := { s.cpu with sp := s.cpu.sp + 2, pc := ret + 1, cycles := s.cpu.cycles + 6 } } := by
  rw [exec, execRts, pullWord_eq]
  rfl

theorem exec_rti (s : State) :
    exec .rti s = .next
      { s with
        cpu := { s.cpu with
          sp := s.cpu.sp + 3
          p := unpackP (s.ram.read (0x100 + (s.cpu.sp + 1).toNat))
          pc := wordOf (s.ram.read (0x100 + (s.cpu.sp + 2).toNat)) (s.ram.read (0x100 + (s.cpu.sp + 3).toNat))
          cycles := s.cpu.cycles + 6 } } := by
  rw [exec, execRti, returnFromException_eq]
  rfl

/-- Settles O21, instruction by instruction: the model's words are the concatenations of bytes that the rules write. -/
theorem jumpAndCallResult : Obligations.JumpAndCallResult := by
  unfold Obligations.JumpAndCallResult
  intro a s
  exact ⟨exec_jmpAbs a s, exec_jmpInd a s, exec_jsr a s, exec_rts s⟩

/-! ### Branches (R330, R334-R341) -/

/-- Settles O22: what has a displacement for its operand runs as a branch on its operation's condition. -/
theorem branchResult : Obligations.BranchResult := by
  unfold Obligations.BranchResult
  intro i d s h
  obtain ⟨hexec, -, -⟩ := relative_row h
  rw [hexec]
  exact branchClass_eq i.op.taken d s

/-! ### A return undoes an entry or a call -/

/-- A pushed word reads back from its two slots, for every SP. -/
theorem wordOf_read_pushed {m : Memory} (h : m.wf) (p : Byte) (w : Word) :
    let pushed := (m.write (0x100 + p.toNat) (hiByte w)).write (0x100 + (p - 1).toNat) (loByte w)
    wordOf (pushed.read (0x100 + (p - 1).toNat)) (pushed.read (0x100 + p.toNat)) = w := by
  have hne : 0x100 + p.toNat ≠ 0x100 + (p - 1).toNat := by
    simpa using stack_slot_ne p (show (0 : Byte) ≠ 1 by decide)
  have hwf := Memory.wf_write (0x100 + p.toNat) (hiByte w) h
  intro pushed
  rw [Memory.read_write_same hwf, Memory.read_write_other hwf hne, Memory.read_write_same h, wordOf_bytes]

/-- RTI after an entry: the pushed P unpacks to the flags, and the pushed address lies in the two slots above it. -/
theorem exec_rti_enterException {vector : Word} (h1 : 0x8000 ≤ vector.toNat) (h2 : vector.toNat < 0xFFFF) (b : Bool)
    (ret : Word) {s : State} (hwf : s.ram.wf) :
    ∃ t, exec .rti (enterException vector b ret s) = .next t ∧
      t.cpu.pc = ret ∧ t.cpu.p = s.cpu.p ∧ t.cpu.sp = s.cpu.sp := by
  have hslot1 : s.cpu.sp - 3 + 1 = s.cpu.sp - 2 := by bv_omega
  have hslot2 : s.cpu.sp - 3 + 2 = s.cpu.sp - 1 := by bv_omega
  have hne1 : 0x100 + (s.cpu.sp - 1).toNat ≠ 0x100 + (s.cpu.sp - 2).toNat := stack_slot_ne _ (by decide)
  have hne0 : 0x100 + s.cpu.sp.toNat ≠ 0x100 + (s.cpu.sp - 2).toNat := by
    simpa using stack_slot_ne s.cpu.sp (show (0 : Byte) ≠ 2 by decide)
  have hpushed := Memory.wf_write (0x100 + (s.cpu.sp - 1).toNat) (loByte ret)
    (Memory.wf_write (0x100 + s.cpu.sp.toNat) (hiByte ret) hwf)
  rw [enterException_eq h1 h2, exec_rti]
  simp only [hslot1, hslot2, BitVec.sub_add_cancel]
  refine ⟨_, rfl, ?pc, ?flags, rfl⟩
  case pc =>
    dsimp only
    rw [Memory.read_write_other hpushed hne1, Memory.read_write_other hpushed hne0]
    exact wordOf_read_pushed hwf s.cpu.sp ret
  case flags =>
    dsimp only
    rw [Memory.read_write_same hpushed, unpackP_packP]

/-- RTS after JSR: the pulled address is the one pushed, and one past it is the instruction after the JSR. -/
theorem exec_rts_after_jsr (a : Word) {s : State} (hwf : s.ram.wf) :
    ∃ t u, exec (.jsr a) s = .next t ∧ t.cpu.pc = a ∧ exec .rts t = .next u ∧
      u.cpu.pc = s.cpu.pc + 3 ∧ u.cpu.sp = s.cpu.sp ∧ u.cpu.p = s.cpu.p := by
  have hslot : s.cpu.sp - 2 + 1 = s.cpu.sp - 1 := by bv_omega
  refine ⟨_, _, exec_jsr a s, rfl, exec_rts _, ?_, BitVec.sub_add_cancel _ _, rfl⟩
  simp only [hslot, BitVec.sub_add_cancel, wordOf_read_pushed hwf]
  bv_omega

/-- Settles O9: both vectors lie in PRG ROM, and RAM that is sized is canonical. -/
theorem entryThenReturn : Obligations.EntryThenReturn := by
  unfold Obligations.EntryThenReturn
  intro s hs
  obtain ⟨hwf, -⟩ := Memory.sized_iff.mp hs
  refine ⟨fun vector ret b hvector => ?_, fun a => exec_rts_after_jsr a hwf⟩
  have hprg : 0x8000 ≤ vector.toNat ∧ vector.toNat < 0xFFFF := by
    rcases hvector with rfl | rfl <;> decide
  exact exec_rti_enterException hprg.1 hprg.2 b ret hwf

end Sys2Proof.Machine

end

section
/-! Proofs for the family 45_flags_system: the flag instructions and NOP are updates of the CPU record; BRK is an exception
entry from the instruction's address + 2, and RTI the return from one. -/

namespace Sys2Proof.Machine

/-! ### The flag instructions and NOP (R371-R377, R380) -/

/-- Settles O23: each flag instruction is an update of the CPU record that sets one flag, and NOP is the identity on it. -/
theorem flagResult : Obligations.FlagResult := by
  unfold Obligations.FlagResult
  intro s p
  refine ⟨?clc, ?sec, ?cli, ?sei, ?cld, ?sed, ?clv, ?nop⟩
  case clc => exact exec_of_update (i := .clc) rfl s
  case sec => exact exec_of_update (i := .sec) rfl s
  case cli => exact exec_of_update (i := .cli) rfl s
  case sei => exact exec_of_update (i := .sei) rfl s
  case cld => exact exec_of_update (i := .cld) rfl s
  case sed => exact exec_of_update (i := .sed) rfl s
  case clv => exact exec_of_update (i := .clv) rfl s
  case nop => exact exec_of_update (i := .nop) rfl s

/-! ### BRK and RTI (R378, R379) -/

/-- BRK pushes the address after its padding byte, and P with B = 1, and goes through the IRQ vector, whatever I holds. -/
theorem exec_brk (s : State) :
    let ret := s.cpu.pc + 2
    exec .brk s = .next
      { s with
        ram := ((s.ram.write (0x100 + s.cpu.sp.toNat) (hiByte ret)).write (0x100 + (s.cpu.sp - 1).toNat)
          (loByte ret)).write (0x100 + (s.cpu.sp - 2).toNat) (packP true s.cpu.p)
        cpu := { s.cpu with
          sp := s.cpu.sp - 3, p := { s.cpu.p with i := true }, pc := s.vector irqVector,
          cycles := s.cpu.cycles + 7 } } := by
  have hret : (advancePc 1 s).cpu.pc + 1 = s.cpu.pc + 2 := by
    rw [advancePc_cpu, Cpu.setPc_pc]
    bv_omega
  rw [exec, execBrk, hret, enterException_eq (show 0x8000 ≤ irqVector.toNat by decide) (by decide)]
  rfl

/-- Settles O24, instruction by instruction: the pulled flags are the bits of `unpackP`, and the model's words are the
concatenations of bytes that the rules write. -/
theorem breakAndReturnResult : Obligations.BreakAndReturnResult := by
  unfold Obligations.BreakAndReturnResult
  intro s
  exact ⟨exec_brk s, exec_rti s⟩

end Sys2Proof.Machine

end

section
/-! Proofs for the family 60_exceptions: the decode fault, the state it leaves behind and the steps of a halted machine;
and the entry into NMI and IRQ as one update of the stack page and the CPU record. -/

namespace Sys2Proof.Machine

/-! ### The decode fault (R410, 67_io_scheduler_host R585) -/

/-- A pass of the scheduler hands on the CPU step's fault. -/
theorem step_of_cpuStep_fault {s : State} {r : Fault} (h : cpuStep s = .fault r) : step s = .fault r := by
  rw [step, schedulerPass, h]

/-- A halted machine repeats its report. -/
theorem step_of_halted {s : State} (h : s.cpu.halted = true) :
    step s = .fault (.decodeError s.cpu.faultPc s.cpu.faultOpcode) :=
  step_of_cpuStep_fault (by rw [cpuStep, if_pos h])

theorem cpuStep_of_fetch_illegal {s t : State} {op : Byte} (hh : s.cpu.halted = false) (hp : poll s = .none)
    (hf : fetch s = .illegal op t) : cpuStep s = .fault (.decodeError s.cpu.pc op) := by
  rw [cpuStep_eq_executeOne hh hp, executeOne, hf]

theorem haltedState_of_fetch_illegal {s t : State} {op : Byte} (hh : s.cpu.halted = false)
    (hf : fetch s = .illegal op t) : haltedState s = raiseDecodeError s.cpu.pc op t := by
  simp [haltedState, hh, hf]

/-- Settles O8: the fetch reads one byte and keeps the CPU record, and the state left behind holds the report, so its
steps are those of a halted machine. -/
theorem decodeErrorHalts : Obligations.DecodeErrorHalts := by
  unfold Obligations.DecodeErrorHalts
  intro s hh hp hop r
  have hf : fetch s = .illegal r.1 r.2 := fetch_illegal ((mem_illegalOpcodes_iff _).mp hop)
  have hfault := cpuStep_of_fetch_illegal hh hp hf
  obtain ⟨hhalted, hpc, hopcode⟩ := cpuStep_fault hfault
  refine ⟨step_of_cpuStep_fault hfault, ?left, ?again⟩
  case left => rw [haltedState_of_fetch_illegal hh hf, raiseDecodeError, State.mapCpu, busRead_cpu]
  case again => rw [step_of_halted hhalted, hpc, hopcode]

/-! ### Interrupt entry (R402, R403, 35_execution R170, R171) -/

/-- The state after an interrupt entry through a vector: PC and P with B = 0 on the stack, I set, PC
from the vector, no NMI pending, 7 cycles on. -/
def State.entered (vector : Word) (s : State) : State :=
  { s with
    ram := ((s.ram.write (0x100 + s.cpu.sp.toNat) (hiByte s.cpu.pc)).write (0x100 + (s.cpu.sp - 1).toNat)
      (loByte s.cpu.pc)).write (0x100 + (s.cpu.sp - 2).toNat) (packP false s.cpu.p)
    cpu := { s.cpu with
      sp := s.cpu.sp - 3, p := { s.cpu.p with i := true }, pc := s.vector vector, nmiPending := false,
      cycles := s.cpu.cycles + 7 } }

theorem enterNmi_eq (s : State) : enterNmi s = s.entered nmiVector := by
  rw [enterNmi, enterException_eq (by decide) (by decide)]
  rfl

/-- IRQ entry leaves the NMI latch, which is clear where the poll selects IRQ. -/
theorem enterIrq_eq {s : State} (hn : s.cpu.nmiPending = false) : enterIrq s = s.entered irqVector := by
  rw [enterIrq, enterException_eq (by decide) (by decide), State.entered, ← hn]
  rfl

theorem endStep_of_no_dma {s : State} (h : s.cpu.oamDmaStarted = false) : endStep s = s := by
  simp [endStep, h]

theorem poll_nmi {s : State} (hn : s.cpu.nmiPending = true) : poll s = .nmi := by
  simp [poll, hn]

theorem poll_irq {s : State} (hn : s.cpu.nmiPending = false) (hirq : s.apu.frameIrq = true ∨ s.apu.dmcIrq = true)
    (hi : s.cpu.p.i = false) : poll s = .irq := by
  simp [poll, hn, Apu.irqRequest, hirq, hi]

/-- Settles O7: the poll selects the entry, and the end of the step adds nothing to it, since no OAM DMA has started. -/
theorem interruptEntry : Obligations.InterruptEntry := by
  unfold Obligations.InterruptEntry
  intro s hh hdma entered
  have hend (vector : Word) : endStep (s.entered vector) = s.entered vector := endStep_of_no_dma hdma
  refine ⟨fun hn => ?nmi, fun hn hirq hi => ?irq⟩
  case nmi =>
    have hstep : cpuStep s = .next (endStep (enterNmi s)) := by simp [cpuStep, hh, poll_nmi hn]
    rw [hstep, enterNmi_eq, hend]
    rfl
  case irq =>
    have hstep : cpuStep s = .next (endStep (enterIrq s)) := by simp [cpuStep, hh, poll_irq hn hirq hi]
    rw [hstep, enterIrq_eq hn, hend]
    rfl

end Sys2Proof.Machine

end

section
/-! Proofs for the family 65_ppu: the registers at every mirror, PPUDATA and the mirrors of the PPU's address space, OAM
DMA, and what one dot does. -/

namespace Sys2Proof.Machine

/-! ### The registers at their mirrors (R450-R457) -/

theorem busWrite_ppuReg {a : Word} (h1 : 0x2000 ≤ a.toNat) (h2 : a.toNat < 0x4000) (d : Byte) (s : State) :
    busWrite a d s = ppuRegWrite (ppuRegOf (a.toNat % 8)) d s := by
  simp only [busWrite, busTarget_ppu h1 h2]

theorem busRead_ppuReg {a : Word} (h1 : 0x2000 ≤ a.toNat) (h2 : a.toNat < 0x4000) (s : State) :
    busRead a s = ppuRegRead (ppuRegOf (a.toNat % 8)) a s := by
  simp only [busRead, busTarget_ppu h1 h2]

/-- Settles O34: each write is the register's own update of the PPU, and its bits of `t` are known. -/
theorem ppuRegisterWrites : Obligations.PpuRegisterWrites := by
  intro s a d h1 h2
  dsimp only
  rw [busWrite_ppuReg h1 h2]
  have written {p q : Ppu} (h : p = q) : s.mapPpu (fun _ => p) = { s with ppu := q } := by rw [h, State.mapPpu]
  refine ⟨fun h => ?ctrl, fun h hw => ?scroll1, fun h hw => ?scroll2, fun h hw => ?addr1, fun h hw => ?addr2⟩ <;>
    rw [h]
  case ctrl => exact ⟨rfl, fun _ hk => writeCtrl_t_bit s.ppu d hk⟩
  case scroll1 => exact ⟨written (writeScroll_first hw d), fun _ hk => writeScroll_first_t_bit hw d hk⟩
  case scroll2 => exact ⟨written (writeScroll_second hw d), fun _ hk => writeScroll_second_t_bit hw d hk⟩
  case addr1 => exact ⟨written (writeAddr_first hw d), fun _ hk => writeAddr_first_t_bit hw d hk⟩
  case addr2 => exact ⟨written (writeAddr_second hw d), fun _ hk => writeAddr_second_t_bit hw d hk⟩

/-- Settles O35: each access is the register's own update or read, at every mirror. -/
theorem ppuPlainRegisters : Obligations.PpuPlainRegisters := by
  intro s a d h1 h2
  dsimp only
  rw [busWrite_ppuReg h1 h2, busRead_ppuReg h1 h2]
  refine ⟨fun h => ?_, fun h => ?_, fun h => ?_, fun h => ?_⟩ <;> rw [h]
  · rfl
  · rfl
  · rfl
  · exact ⟨rfl, rfl⟩

theorem bit1_getLsbD (b : Bool) (i : Nat) : (bit1 b).getLsbD i = (decide (i = 0) && b) := BitVec.getLsbD_ofBool b i

@[simp] theorem bit1_getElem_zero (b : Bool) : (bit1 b)[0] = b := by cases b <;> rfl

theorem statusByte_bit (ob : Byte) (p : Ppu) {k : Nat} (hk : k < 8) :
    (p.statusByte ob).getLsbD k =
      if k < 5 then ob.getLsbD k else if k = 5 then p.overflow else if k = 6 then p.sprite0 else p.vblank := by
  unfold Ppu.statusByte
  rw [BitVec.getLsbD_append, BitVec.getLsbD_append, BitVec.getLsbD_append]
  simp only [BitVec.getLsbD_extractLsb, bit1_getLsbD]
  have : k < 5 ∨ k = 5 ∨ k = 6 ∨ k = 7 := by omega
  rcases this with h | rfl | rfl | rfl
  · simp [h]
  · simp
  · simp
  · simp

/-- Settles O36: the byte by bits, and VBlank and the write toggle cleared. -/
theorem ppuStatusRead : Obligations.PpuStatusRead := by
  intro s a h1 h2 h
  dsimp only
  rw [busRead_ppuReg h1 h2, h]
  have hbit {k : Nat} (hk : k < 8) := statusByte_bit (Config.openBus 0x2002 s.openBusReads) s.ppu hk
  exact ⟨hbit (by decide), hbit (by decide), hbit (by decide), fun k hk => (hbit (by omega)).trans (if_pos hk), rfl⟩

/-! ### PPUDATA (R458, R459, R463) -/

theorem paletteByte_bit (c : Cartridge) (ob : Byte) (p : Ppu) {k : Nat} (hk : k < 8) :
    (p.paletteByte c ob).getLsbD k = if k < 6 then (ppuRead c p p.dataAddr).getLsbD k else ob.getLsbD k := by
  unfold Ppu.paletteByte
  rw [BitVec.getLsbD_append]
  simp only [BitVec.getLsbD_extractLsb]
  by_cases h : k < 6
  · simp [h]
  · simp [h, show k - 6 < 2 by omega, show 6 + (k - 6) = k by omega]

/-- A PPUDATA read below the palette gives the read buffer and refills it. -/
theorem ppuRegRead_ppudata_low (a : Word) {s : State} (h : s.ppu.dataAddr.toNat < 0x3F00) :
    ppuRegRead .ppudata a s =
      (s.ppu.readBuffer, s.mapPpu fun p => { p with readBuffer := ppuRead s.cart p p.dataAddr }.bumpV) := by
  have hp : s.ppu.dataIsPalette = false := decide_eq_false (by omega)
  simp [ppuRegRead, hp, State.mapPpu, Ppu.afterDataRead, Ppu.dataRefill]

/-- A PPUDATA read of the palette gives the cell at once and refills the buffer from beneath. -/
theorem ppuRegRead_ppudata_palette (a : Word) {s : State} (h : 0x3F00 ≤ s.ppu.dataAddr.toNat) :
    ppuRegRead .ppudata a s =
      (s.ppu.paletteByte s.cart (Config.openBus 0x2007 s.openBusReads),
        (undrivenRead 0x2007 s).2.mapPpu fun p =>
          { p with readBuffer := ppuRead s.cart p (p.dataAddr - 0x1000) }.bumpV) := by
  have hp : s.ppu.dataIsPalette = true := decide_eq_true h
  simp [ppuRegRead, hp, State.mapPpu, Ppu.afterDataRead, Ppu.dataRefill]

/-- The memories a write of the PPU's address space leaves alone. -/
theorem ppuWrite_frame (a : BitVec 14) (d : Byte) (s : State) :
    (0x2000 ≤ a.toNat ∨ s.cart.chrIsRam = false → (ppuWrite a d s).cart.chr = s.cart.chr) ∧
      (a.toNat < 0x2000 ∨ 0x3F00 ≤ a.toNat → (ppuWrite a d s).ppu.vram = s.ppu.vram) ∧
      (a.toNat < 0x3F00 → (ppuWrite a d s).ppu.palette = s.ppu.palette) ∧
      ∀ k : Nat, k ≠ palIndex a.toNat → (ppuWrite a d s).ppu.palette[k]? = s.ppu.palette[k]? := by
  unfold ppuWrite
  split
  · split
    · next ha hr =>
      refine ⟨?_, fun _ => rfl, fun _ => rfl, fun _ _ => rfl⟩
      rintro (h | h)
      · omega
      · exact absurd (hr.symm.trans h) (by decide)
    · exact ⟨fun _ => rfl, fun _ => rfl, fun _ => rfl, fun _ _ => rfl⟩
  · split
    · exact ⟨fun _ => rfl, fun _ => by omega, fun _ => rfl, fun _ _ => rfl⟩
    · exact ⟨fun _ => rfl, fun _ => rfl, fun _ => by omega, fun k hk => by simp [hk.symm]⟩

/-- Settles O37: the read by the address it uses, the write by the laws of `ppuWrite`. -/
theorem ppuDataAccess : Obligations.PpuDataAccess := by
  intro s a d hs h1 h2 h
  dsimp only
  rw [busRead_ppuReg h1 h2, busWrite_ppuReg h1 h2, h]
  obtain ⟨hchr, hvram, hpalette, hcell⟩ := ppuWrite_frame s.ppu.dataAddr d s
  refine ⟨fun ha => ppuRegRead_ppudata_low a ha, fun ha => ?palette, fun b => ?written,
    congrArg (State.mapPpu Ppu.bumpV) (ppuWrite_eq s.ppu.dataAddr d s), hchr, hvram, hpalette, hcell⟩
  case palette =>
    rw [show ppuRegOf 7 = .ppudata from rfl, ppuRegRead_ppudata_palette a ha]
    refine ⟨fun k hk => ?_, fun k h6 h8 => ?_, rfl⟩
    · exact (paletteByte_bit _ _ _ (by omega)).trans (if_pos hk)
    · exact (paletteByte_bit _ _ _ h8).trans (if_neg (by omega))
  case written =>
    exact ppuRead_ppuWrite (Memory.sized_iff.mp hs.memories.chr).1
      (Memory.sized_iff.mp ((Ppu.inRange_iff _).mp hs.ppu).1).1 s.ppu.dataAddr b d

/-! ### Mirrors of the PPU's address space (R464, R465) -/

theorem palIndex_mod (a : Nat) : palIndex (a % 0x20) = palIndex a := by
  simp only [palIndex, Nat.mod_mod, Nat.mod_mod_of_dvd a (show 4 ∣ 0x20 by decide)]

theorem color_congr (p : Ppu) {a b : Nat} (h : a % 0x20 = b % 0x20) : p.color a = p.color b := by
  rw [Ppu.color, Ppu.color, ← palIndex_mod a, h, palIndex_mod]

/-- The four aliases (R465). -/
theorem palIndex_alias {k : Nat} (hk : k < 4) : palIndex (0x3F10 + 4 * k) = palIndex (0x3F00 + 4 * k) := by
  unfold palIndex
  rw [if_pos (by omega), if_neg (by omega)]
  omega

theorem palIndex_cell : ∀ k < 0x20,
    palIndex (0x3F00 + k) = if k ∈ [0x10, 0x14, 0x18, 0x1C] then k - 0x10 else k := by
  decide

/-- Settles O38: the nametable indices by arithmetic, the 32 palette indices one by one. -/
theorem ppuMirrors : Obligations.PpuMirrors := by
  refine ⟨fun m off hoff => ⟨?vertical, ?horizontal, fun a h1 h2 => ?fold⟩, palIndex_cell,
    fun k l hk hl hk' hl' h => ?cells, fun p k hk => ?aliases, fun p a _ _ => color_congr p (by omega),
    fun s a b d h => ppuWrite_color h b d s⟩
  case vertical =>
    rintro rfl
    simp only [ntIndex]
    omega
  case horizontal =>
    rintro rfl
    simp only [ntIndex]
    omega
  case fold => cases m <;> simp only [ntIndex] <;> omega
  case cells => rwa [palIndex_cell k hk, if_neg hk', palIndex_cell l hl, if_neg hl'] at h
  case aliases => rw [Ppu.color, palIndex_alias hk, Ppu.color]

/-! ### OAM DMA (R470) -/

/-- Settles O39: reads of a memory page have no side effect, and 256 offsets are all of OAM. -/
theorem oamDmaCopy : Obligations.OamDmaCopy := by
  intro s d hs hd
  obtain ⟨m, hm, -, hread⟩ := oamDma_memory hd (Memory.sized_iff.mp hs).1 256 (Nat.le_refl _)
  have ht : busWrite 0x4014 d s =
      { s with ppu := { s.ppu with oam := m }, cpu := { s.cpu with oamDmaStarted := true } } := by
    rw [busWrite_of_oamDma (busTarget_oamDma rfl), oamDma, hm]
    rfl
  dsimp only
  rw [ht]
  exact ⟨fun k => hread k k.isLt, rfl, rfl, rfl, rfl, rfl⟩

/-! ### One dot by its stages (R480) -/

/-- The PPU as sprite evaluation finds it: after the flag stages and the background pipeline. -/
def Ppu.beforeEvaluation (c : Cartridge) (p : Ppu) : Ppu := p.preRenderStage.vblankStage.backgroundStage c

/-- The PPU as the pixel stage finds it. -/
def Ppu.beforePixel (c : Cartridge) (p : Ppu) : Ppu := (p.beforeEvaluation c).evaluateStage.loadStage c

theorem stepDot_stages (s : State) : (stepDot s).ppu = (s.ppu.beforePixel s.cart).pixelStage.advance := stepDot_ppu s

/-- The three status flags after the first two stages. -/
theorem flagStages_eq (p : Ppu) :
    p.preRenderStage.vblankStage =
      { p with
        vblank := p.atVblankStart || p.vblank && !p.atPreRenderStart
        sprite0 := p.sprite0 && !p.atPreRenderStart
        overflow := p.overflow && !p.atPreRenderStart } := by
  have hv : p.preRenderStage.atVblankStart = p.atVblankStart := by
    unfold Ppu.preRenderStage
    split <;> rfl
  unfold Ppu.vblankStage
  rw [hv]
  unfold Ppu.preRenderStage
  by_cases h1 : p.atPreRenderStart = true <;> by_cases h2 : p.atVblankStart = true <;> simp [h1, h2]

theorem beforeEvaluation_workKeeps (c : Cartridge) (p : Ppu) : Ppu.WorkKeeps p (p.beforeEvaluation c) :=
  ((preRenderStage_keeps p).trans (vblankStage_keeps _)).trans (backgroundStage_keeps c _)

/-- What the stages before sprite evaluation leave of the status flags and the sprites of the line. -/
theorem beforeEvaluation_keeps (c : Cartridge) (p : Ppu) :
    let q := p.beforeEvaluation c
    q.vblank = (p.atVblankStart || p.vblank && !p.atPreRenderStart) ∧
      q.sprite0 = (p.sprite0 && !p.atPreRenderStart) ∧ q.overflow = (p.overflow && !p.atPreRenderStart) ∧
      q.units = p.units ∧ q.sprite0Line = p.sprite0Line := by
  obtain ⟨_, _, _, _, _, _, _, _, _, e⟩ := backgroundStage_eq c p.preRenderStage.vblankStage
  dsimp only
  rw [Ppu.beforeEvaluation, e, flagStages_eq]
  exact ⟨rfl, rfl, rfl, rfl, rfl⟩

/-- What a dot leaves as the background pipeline left it. -/
theorem stepDot_background (s : State) :
    let q := s.ppu.beforeEvaluation s.cart
    (stepDot s).ppu.v = q.v ∧ (stepDot s).ppu.vblank = q.vblank := by
  obtain ⟨_, _, _, _, e1⟩ := evaluateStage_eq (s.ppu.beforeEvaluation s.cart)
  obtain ⟨_, _, e2⟩ := loadStage_eq s.cart (s.ppu.beforeEvaluation s.cart).evaluateStage
  obtain ⟨_, _, e3⟩ := pixelStage_eq (s.ppu.beforePixel s.cart)
  obtain ⟨_, _, _, _, e4⟩ := advance_eq (s.ppu.beforePixel s.cart).pixelStage
  rw [stepDot_stages, e4, e3, Ppu.beforePixel, e2, e1]
  exact ⟨rfl, rfl⟩

/-- What a dot leaves as sprite evaluation left it. -/
theorem stepDot_evaluation (s : State) :
    let q := (s.ppu.beforeEvaluation s.cart).evaluateStage
    (stepDot s).ppu.soam = q.soam ∧ (stepDot s).ppu.soamCount = q.soamCount ∧
      (stepDot s).ppu.sprite0Next = q.sprite0Next ∧ (stepDot s).ppu.overflow = q.overflow := by
  obtain ⟨_, _, e1⟩ := loadStage_eq s.cart (s.ppu.beforeEvaluation s.cart).evaluateStage
  obtain ⟨_, _, e2⟩ := pixelStage_eq (s.ppu.beforePixel s.cart)
  obtain ⟨_, _, _, _, e3⟩ := advance_eq (s.ppu.beforePixel s.cart).pixelStage
  rw [stepDot_stages, e3, e2, Ppu.beforePixel, e1]
  exact ⟨rfl, rfl, rfl, rfl⟩

theorem Ppu.rendering_iff (p : Ppu) : p.rendering = true ↔ p.mask.getLsbD 3 = true ∨ p.mask.getLsbD 4 = true := by
  simp [Ppu.rendering, Ppu.showBg, Ppu.showSp]

theorem Ppu.WorkKeeps.rendering {p q : Ppu} (h : Ppu.WorkKeeps p q) : q.rendering = p.rendering := by
  rw [Ppu.rendering, Ppu.rendering, Ppu.showBg, Ppu.showBg, Ppu.showSp, Ppu.showSp, h.mask]

theorem not_atPreRenderStart {p : Ppu} (h : p.scanline ≤ 239) : p.atPreRenderStart = false := by
  simp only [Ppu.atPreRenderStart, Bool.and_eq_false_iff, decide_eq_false_iff_not]
  omega

/-! ### VBlank and the position (R480, R485, R488) -/

theorem stepDot_vblank (s : State) :
    (stepDot s).ppu.vblank = (s.ppu.atVblankStart || s.ppu.vblank && !s.ppu.atPreRenderStart) :=
  (stepDot_background s).2.trans (beforeEvaluation_keeps s.cart s.ppu).1

/-- Settles O40: only the first two stages write the flag, and only the start of VBlank raises NMI. -/
theorem vblankAndNmi : Obligations.VblankAndNmi := by
  intro s
  dsimp only
  refine ⟨?_, ?_, by rw [stepDot_eq]⟩
  · rw [stepDot_vblank]
    simp [Ppu.atVblankStart, Ppu.atPreRenderStart, imp_iff_not_or]
  · rw [stepDot_eq]
    simp [Ppu.atVblankStart, Ppu.nmiEnable]

theorem Ppu.position_lt {p : Ppu} (h : p.inFrame) : p.position < dotsPerFrame := by
  obtain ⟨h1, h2⟩ := h
  simp only [Ppu.position, dotsPerFrame]
  omega

theorem dots_position : ∀ (n : Nat) {s : State}, s.ppu.inFrame →
    (dots n s).ppu.inFrame ∧ (dots n s).ppu.position = (s.ppu.position + n) % dotsPerFrame ∧
      ((dots n s).ppu.frameComplete = true ↔ s.ppu.frameComplete = true ∨ dotsPerFrame ≤ s.ppu.position + n)
  | 0, s, h => by
    have hp := Ppu.position_lt h
    exact ⟨h, (Nat.mod_eq_of_lt hp).symm, by simpa [dots] using fun h => absurd hp (Nat.not_lt.mpr h)⟩
  | n + 1, s, h => by
    have hp := Ppu.position_lt h
    obtain ⟨h1, h2, h3⟩ := stepDot_position h
    obtain ⟨k1, k2, k3⟩ := dots_position n h1
    refine ⟨k1, ?_, ?_⟩
    · rw [dots, k2, h2, Nat.mod_add_mod, Nat.add_right_comm, Nat.add_assoc]
    · rw [dots, k3, h2, h3]
      by_cases hw : s.ppu.position + 1 = dotsPerFrame
      · simp [hw]
        omega
      · rw [Nat.mod_eq_of_lt (by omega), Nat.add_right_comm, Nat.add_assoc]
        simp [hw]

/-- Settles O41, by induction on the dots. -/
theorem dotsMoveThePosition : Obligations.DotsMoveThePosition := fun n _ h => dots_position n h

/-! ### Sprite evaluation (R483) -/

/-- At dot 65 of a visible line with rendering on, evaluation is the scan of OAM into cleared secondary OAM. -/
theorem evaluateStage_scan {p q : Ppu} (k : Ppu.WorkKeeps p q) (hl : p.scanline ≤ 239) (hd : p.dot = 65)
    (hr : p.rendering = true) : q.evaluateStage = scanSprites p.scanline (List.range 64) q.clearSoam := by
  rw [Ppu.evaluateStage, if_pos ⟨k.scanline ▸ hl, k.dot.trans hd, k.rendering.trans hr⟩, k.scanline]

theorem spriteInRange_eq (p : Ppu) (s i : Nat) :
    p.spriteInRange s i =
      decide ((p.oamByte i 0).toNat ≤ s ∧ s < (p.oamByte i 0).toNat + if p.ctrl.getLsbD 5 then 16 else 8) := by
  rw [Ppu.spriteInRange, ← Bool.decide_and, Ppu.spriteHeight, Ppu.spSize]
  exact decide_eq_decide.mpr (by omega)

theorem zero_mem_take_filter_range (f : Nat → Bool) (n k : Nat) :
    0 ∈ ((List.range (n + 1)).filter f).take (k + 1) ↔ 0 ∈ (List.range (n + 1)).filter f := by
  refine ⟨List.mem_of_mem_take, fun h => ?_⟩
  rw [List.range_succ_eq_map, List.filter_cons_of_pos (List.mem_filter.mp h).2, List.take_succ_cons]
  exact List.mem_cons_self

/-- Settles O42: the sprites found are those the scan puts into secondary OAM, which it finds cleared. -/
theorem spriteEvaluation : Obligations.SpriteEvaluation := by
  intro s hl hd hm height oam found q
  have k := beforeEvaluation_workKeeps s.cart s.ppu
  obtain ⟨-, -, hover, -⟩ := beforeEvaluation_keeps s.cart s.ppu
  obtain ⟨hsoam, hcount, hzero, hoverflow⟩ := stepDot_evaluation s
  rw [not_atPreRenderStart hl, Bool.not_false, Bool.and_true] at hover
  rw [evaluateStage_scan k hl hd ((Ppu.rendering_iff _).mpr hm)] at hsoam hcount hzero hoverflow
  generalize s.ppu.beforeEvaluation s.cart = p at *
  obtain ⟨h1, h2, h3, -, h5⟩ := scanSprites_spec s.ppu.scanline (List.range 64) p.clearSoam (Nat.zero_le _)
  obtain ⟨-, hrest⟩ := scanSprites_rest s.ppu.scanline (List.range 64) p.clearSoam
  have hbyte : p.clearSoam.oamByte = oam := funext fun i => funext fun j => congrArg (Memory.read · (4 * i + j)) k.oam
  have hfound : (List.range 64).filter (p.clearSoam.spriteInRange s.ppu.scanline) = found := by
    refine congrArg (List.filter · _) (funext fun i => ?_)
    rw [spriteInRange_eq, hbyte, show p.clearSoam.ctrl = s.ppu.ctrl from k.ctrl]
  have hempty : p.clearSoam.soamCount = 0 ∧ p.clearSoam.sprite0Next = false ∧
      p.clearSoam.overflow = s.ppu.overflow := ⟨rfl, rfl, hover⟩
  simp only [hfound, hbyte, hempty, ← hsoam, ← hcount, ← hzero, ← hoverflow, Nat.zero_add, Bool.false_eq_true,
    false_or] at h1 h2 h3 h5 hrest
  refine ⟨h1, h2, h3.trans (zero_mem_take_filter_range _ 63 7), h5, fun m hm hm32 => ?_⟩
  rw [hrest m (h1 ▸ hm)]
  simp [Ppu.clearSoam, hm32]

/-! ### Scroll steps (R481) -/

/-- The column of tiles that `v` or `t` addresses, and its horizontal nametable bit. -/
def scrollColumn (w : BitVec 15) : Nat × Bool := ((w.extractLsb 4 0).toNat, w.getLsbD 10)

/-- The row of pixels that `v` or `t` addresses, and its vertical nametable bit. -/
def scrollRow (w : BitVec 15) : Nat × Bool :=
  (8 * (w.extractLsb 9 5).toNat + (w.extractLsb 14 12).toNat, w.getLsbD 11)

/-- The next column: past the last of the 32, the first of the other nametable. -/
def nextColumn (c : Nat × Bool) : Nat × Bool := ((c.1 + 1) % 32, c.2 != decide (c.1 = 31))

/-- The next row: past row 239 the first of the nametable below, past row 255 the first of this one. -/
def nextRow (r : Nat × Bool) : Nat × Bool :=
  (if r.1 = 239 ∨ r.1 = 255 then 0 else r.1 + 1, r.2 != decide (r.1 = 239))

theorem scrollColumn_eq (w : BitVec 15) :
    scrollColumn w = (w.toNat % 32, decide (w.toNat / 1024 % 2 = 1)) := by
  simp [scrollColumn, BitVec.getLsbD, Nat.testBit_eq_decide_div_mod_eq]

theorem scrollRow_eq (w : BitVec 15) :
    scrollRow w = (8 * (w.toNat / 32 % 32) + w.toNat / 4096, decide (w.toNat / 2048 % 2 = 1)) := by
  have := w.isLt
  simp [scrollRow, BitVec.getLsbD, Nat.testBit_eq_decide_div_mod_eq, Nat.shiftRight_eq_div_pow]
  omega

theorem scrollColumn_congr {v w : BitVec 15} (h1 : v.toNat % 32 = w.toNat % 32)
    (h2 : v.toNat / 1024 % 2 = w.toNat / 1024 % 2) : scrollColumn v = scrollColumn w := by
  rw [scrollColumn_eq, scrollColumn_eq, h1, h2]

theorem scrollRow_congr {v w : BitVec 15} (h1 : v.toNat / 32 % 32 = w.toNat / 32 % 32)
    (h2 : v.toNat / 4096 = w.toNat / 4096) (h3 : v.toNat / 2048 % 2 = w.toNat / 2048 % 2) :
    scrollRow v = scrollRow w := by
  rw [scrollRow_eq, scrollRow_eq, h1, h2, h3]

theorem toNat_append_eq_add {m n : Nat} (x : BitVec m) (y : BitVec n) : (x ++ y).toNat = x.toNat * 2 ^ n + y.toNat := by
  rw [BitVec.toNat_append, ← Nat.shiftLeft_add_eq_or_of_lt y.isLt, Nat.shiftLeft_eq]

theorem incCoarseX_toNat (v : BitVec 15) :
    (incCoarseX v).toNat =
      if v.toNat % 32 = 31 then
        if v.toNat / 1024 % 2 = 1 then v.toNat - 1024 - 31 else v.toNat + 1024 - 31
      else v.toNat + 1 := by
  have hv := v.isLt
  have hcoarse : v.extractLsb 4 0 = 31 ↔ v.toNat % 32 = 31 := by
    rw [← BitVec.toNat_inj]
    simp
  simp only [incCoarseX, hcoarse]
  split
  · simp only [toNat_append_eq_add]
    simp [BitVec.toNat_not, Nat.shiftRight_eq_div_pow]
    split <;> omega
  · rw [toNat_append_eq_add]
    simp [Nat.shiftRight_eq_div_pow]
    omega

theorem incCoarseX_column (v : BitVec 15) : scrollColumn (incCoarseX v) = nextColumn (scrollColumn v) := by
  rw [scrollColumn_eq, scrollColumn_eq, incCoarseX_toNat]
  by_cases h : v.toNat % 32 = 31 <;> by_cases h' : v.toNat / 1024 % 2 = 1 <;> simp [nextColumn, h, h'] <;> omega

theorem incCoarseX_row (v : BitVec 15) : scrollRow (incCoarseX v) = scrollRow v := by
  have hv := v.isLt
  refine scrollRow_congr ?_ ?_ ?_ <;> rw [incCoarseX_toNat] <;> split_ifs <;> omega

theorem incFineY_toNat (v : BitVec 15) :
    (incFineY v).toNat =
      if v.toNat / 4096 = 7 then
        if v.toNat / 32 % 32 = 29 then
          if v.toNat / 2048 % 2 = 1 then v.toNat - 7 * 4096 - 29 * 32 - 2048 else v.toNat - 7 * 4096 - 29 * 32 + 2048
        else if v.toNat / 32 % 32 = 31 then v.toNat - 7 * 4096 - 31 * 32
        else v.toNat - 7 * 4096 + 32
      else v.toNat + 4096 := by
  have hv := v.isLt
  have hfine : (v.extractLsb 14 12).toNat = v.toNat / 4096 := by
    simp [Nat.shiftRight_eq_div_pow]
    omega
  have hcoarse : (v.extractLsb 9 5).toNat = v.toNat / 32 % 32 := by simp [Nat.shiftRight_eq_div_pow]
  have h7 : v.extractLsb 14 12 = 7 ↔ v.toNat / 4096 = 7 := by rw [← BitVec.toNat_inj, hfine]; rfl
  have h29 : v.extractLsb 9 5 = 29 ↔ v.toNat / 32 % 32 = 29 := by rw [← BitVec.toNat_inj, hcoarse]; rfl
  have h31 : v.extractLsb 9 5 = 31 ↔ v.toNat / 32 % 32 = 31 := by rw [← BitVec.toNat_inj, hcoarse]; rfl
  simp only [incFineY, ne_eq, ite_not, h7, h29, h31]
  split
  · split
    · simp only [toNat_append_eq_add]
      simp [Nat.shiftRight_eq_div_pow, BitVec.toNat_not]
      split <;> omega
    split
    · simp only [toNat_append_eq_add]
      simp [Nat.shiftRight_eq_div_pow]
      omega
    · rw [toNat_append_eq_add, toNat_append_eq_add, toNat_append_eq_add]
      simp [Nat.shiftRight_eq_div_pow]
      omega
  · rw [toNat_append_eq_add]
    simp [Nat.shiftRight_eq_div_pow]
    omega

theorem incFineY_column (v : BitVec 15) : scrollColumn (incFineY v) = scrollColumn v := by
  have hv := v.isLt
  refine scrollColumn_congr ?_ ?_ <;> rw [incFineY_toNat] <;> split_ifs <;> omega

theorem incFineY_row (v : BitVec 15) : scrollRow (incFineY v) = nextRow (scrollRow v) := by
  have hv := v.isLt
  have hbit (b c : Prop) [Decidable b] [Decidable c] : (decide b != decide c) = decide ¬(b ↔ c) := by
    by_cases hb : b <;> by_cases hc : c <;> simp [hb, hc]
  rw [scrollRow_eq, scrollRow_eq, nextRow, hbit, Prod.mk.injEq, decide_eq_decide, incFineY_toNat]
  split_ifs <;> omega

theorem copyX_toNat (t v : BitVec 15) :
    (copyX t v).toNat =
      v.toNat / 2048 * 2048 + t.toNat / 1024 % 2 * 1024 + v.toNat / 32 % 32 * 32 + t.toNat % 32 := by
  have := v.isLt
  simp only [copyX, toNat_append_eq_add]
  simp [Nat.shiftRight_eq_div_pow]
  omega

theorem copyX_column (t v : BitVec 15) : scrollColumn (copyX t v) = scrollColumn t := by
  refine scrollColumn_congr ?_ ?_ <;> rw [copyX_toNat] <;> omega

theorem copyX_row (t v : BitVec 15) : scrollRow (copyX t v) = scrollRow v := by
  refine scrollRow_congr ?_ ?_ ?_ <;> rw [copyX_toNat] <;> omega

/-- Copying the row of `t` is keeping the column of `v`. -/
theorem copyY_eq_copyX (t v : BitVec 15) : copyY t v = copyX v t := rfl

theorem scrollStage_v (p : Ppu) :
    p.scrollStage.v =
      if p.dot = 256 then incFineY p.v
      else if p.dot = 257 then copyX p.t p.v
      else if p.scanline = 261 ∧ 280 ≤ p.dot ∧ p.dot ≤ 304 then copyY p.t p.v
      else p.v := by
  rw [Ppu.scrollStage, apply_ite Ppu.v, apply_ite Ppu.v, apply_ite Ppu.v]

/-- The dots of a render line that end the fetches of a tile. -/
abbrev tileEnds (d : Nat) : Prop := 8 ≤ d ∧ d ≤ 256 ∧ d % 8 = 0 ∨ d = 328 ∨ d = 336

theorem tileEnds_iff (d : Nat) : tileEnds d ↔ fetchesAt d = true ∧ (d - 1) % 8 = 7 := by
  simp only [tileEnds, fetchesAt, Bool.or_eq_true, Bool.and_eq_true, decide_eq_true_eq]
  omega

theorem fetchStage_v (c : Cartridge) (p : Ppu) :
    (p.fetchStage c).v = if tileEnds p.dot then incCoarseX p.v else p.v := by
  simp only [tileEnds_iff, Ppu.fetchStage]
  by_cases hf : fetchesAt p.dot = true
  · rw [if_pos hf]
    split
    case h_4 h => rw [if_pos ⟨hf, h⟩]
    case h_5 h => rw [if_neg fun h' => h h'.2]
    all_goals rw [if_neg (by omega)]
  · rw [if_neg hf, if_neg (fun h => hf h.1)]

/-- `v` after a dot of a render line with rendering on: the step of a tile's end, then the scroll stage. -/
theorem stepDot_v {s : State} (hl : s.ppu.renderLine = true) (hr : s.ppu.rendering = true) :
    let d := s.ppu.dot
    let v := if tileEnds d then incCoarseX s.ppu.v else s.ppu.v
    (stepDot s).ppu.v =
      if d = 256 then incFineY v
      else if d = 257 then copyX s.ppu.t v
      else if s.ppu.scanline = 261 ∧ 280 ≤ d ∧ d ≤ 304 then copyY s.ppu.t v
      else v := by
  rw [(stepDot_background s).1, Ppu.beforeEvaluation, flagStages_eq]
  generalize hp : ({ s.ppu with vblank := _, sprite0 := _, overflow := _ } : Ppu) = p
  have hb : (p.renderLine && p.rendering) = true := by
    rw [← hp, Bool.and_eq_true]
    exact ⟨hl, hr⟩
  obtain ⟨_, _, _, _, hshift⟩ := shiftStage_eq p
  obtain ⟨_, _, _, _, hreload⟩ := reloadStage_eq p.shiftStage
  have hkeeps := fetchStage_keeps s.cart p.shiftStage.reloadStage
  rw [Ppu.backgroundStage, if_pos hb, scrollStage_v, hkeeps.dot, hkeeps.t, hkeeps.scanline, fetchStage_v, hreload,
    hshift, ← hp]

/-- The scroll steps by columns and rows: a tile's end meets no copy, and only dot 256 meets both steps. -/
theorem stepDot_scroll {s : State} (hl : s.ppu.renderLine = true) (hr : s.ppu.rendering = true) :
    let d := s.ppu.dot
    let v := s.ppu.v
    let t := s.ppu.t
    scrollColumn (stepDot s).ppu.v =
      (if tileEnds d then nextColumn (scrollColumn v) else if d = 257 then scrollColumn t else scrollColumn v) ∧
    scrollRow (stepDot s).ppu.v =
      (if d = 256 then nextRow (scrollRow v)
      else if s.ppu.scanline = 261 ∧ 280 ≤ d ∧ d ≤ 304 then scrollRow t else scrollRow v) := by
  have hv := stepDot_v hl hr
  dsimp only at hv ⊢
  rw [hv]
  by_cases htile : tileEnds s.ppu.dot
  · have h257 : s.ppu.dot ≠ 257 := by omega
    have hcopy : ¬(s.ppu.scanline = 261 ∧ 280 ≤ s.ppu.dot ∧ s.ppu.dot ≤ 304) := by omega
    simp only [if_pos htile, if_neg h257, if_neg hcopy]
    split
    · exact ⟨by rw [incFineY_column, incCoarseX_column], by rw [incFineY_row, incCoarseX_row]⟩
    · exact ⟨incCoarseX_column _, incCoarseX_row _⟩
  · have h256 : s.ppu.dot ≠ 256 := by omega
    simp only [if_neg htile, if_neg h256]
    split
    · next h257 =>
      rw [if_neg (by omega)]
      exact ⟨copyX_column _ _, copyX_row _ _⟩
    split
    · rw [copyY_eq_copyX]
      exact ⟨copyX_column _ _, copyX_row _ _⟩
    · exact ⟨rfl, rfl⟩

/-- Settles O43: the scroll steps of `stepDot_scroll`, whose columns and rows are those of the statement. -/
theorem scrollSteps : Obligations.ScrollSteps := fun _ hl hm =>
  stepDot_scroll (by simpa [Ppu.renderLine] using hl) ((Ppu.rendering_iff _).mpr hm)

/-! ### Pixels (R486, R487) -/

theorem twoBits_toNat (hi lo : Bool) : (bit1 hi ++ bit1 lo).toNat = 2 * hi.toNat + lo.toNat := by
  cases hi <;> cases lo <;> rfl

theorem extractLsb_low_toNat (b : Byte) :
    (b.extractLsb 1 0).toNat = 2 * (b.getLsbD 1).toNat + (b.getLsbD 0).toNat := by
  revert b
  decide

theorem toNat_ne_zero_iff (w : BitVec 2) : w.toNat ≠ 0 ↔ w ≠ 0 := (BitVec.toNat_inj (y := 0)).not

/-- The background is shown at column `px`: the layer is on and the left-column mask lets the column through. -/
abbrev Ppu.BgShown (p : Ppu) (px : Nat) : Prop := p.mask.getLsbD 3 = true ∧ (8 ≤ px ∨ p.mask.getLsbD 1 = true)

/-- Sprites are shown at column `px`. -/
abbrev Ppu.SpShown (p : Ppu) (px : Nat) : Prop := p.mask.getLsbD 4 = true ∧ (8 ≤ px ∨ p.mask.getLsbD 2 = true)

theorem SpriteUnit.pixel_toNat (u : SpriteUnit) (px : Nat) :
    (u.pixel px).toNat =
      if u.valid = true ∧ u.xpos.toNat ≤ px ∧ px ≤ u.xpos.toNat + 7 then
        2 * (u.hi.getLsbD (7 - (px - u.xpos.toNat))).toNat + (u.lo.getLsbD (7 - (px - u.xpos.toNat))).toNat
      else 0 := by
  simp only [SpriteUnit.pixel, Bool.and_eq_true, decide_eq_true_eq, and_assoc]
  split
  · exact twoBits_toNat _ _
  · rfl

theorem bgPixel_toNat (p : Ppu) (px : Nat) :
    (p.bgPixel px).bg.toNat = (if p.BgShown px then
        2 * (p.bgHi.getLsbD (15 - p.x.toNat)).toNat + (p.bgLo.getLsbD (15 - p.x.toNat)).toNat else 0) ∧
      (p.bgPixel px).pal.toNat = if p.BgShown px then
        2 * (p.atHi.getLsbD (15 - p.x.toNat)).toNat + (p.atLo.getLsbD (15 - p.x.toNat)).toNat else 0 := by
  simp only [Ppu.bgPixel, Ppu.showBg, Ppu.bgLeft, Bool.and_eq_true, Bool.or_eq_true, decide_eq_true_eq]
  split
  · exact ⟨twoBits_toNat _ _, twoBits_toNat _ _⟩
  · exact ⟨rfl, rfl⟩

/-- A background pixel comes from the background layer. -/
theorem bgPixel_shown {p : Ppu} {px : Nat} (h : (p.bgPixel px).bg.toNat ≠ 0) : p.BgShown px := by
  rw [(bgPixel_toNat p px).1] at h
  exact by_contra fun hs => h (if_neg hs)

/-- The unit of index `k`. -/
def Ppu.unitAt (p : Ppu) (k : Nat) : SpriteUnit := (p.units[k]?).getD SpriteUnit.empty

theorem unitAt_zero (p : Ppu) : p.unitAt 0 = p.units[0] := by simp [Ppu.unitAt]

theorem units_toList (p : Ppu) : p.units.toList = (List.range 8).map p.unitAt := by
  refine List.ext_getElem? fun k => ?_
  by_cases hk : k < 8
  · simp [Ppu.unitAt, hk]
  · simp [hk]

/-- The first unit with a pixel at column `px`, if sprites are shown there. -/
def Ppu.shownUnit (p : Ppu) (px : Nat) : Option SpriteUnit :=
  if p.SpShown px then p.units.toList.find? (fun u => decide ((u.pixel px).toNat ≠ 0)) else none

theorem pixel_of_shownUnit {p : Ppu} {px : Nat} {u : SpriteUnit} (h : p.shownUnit px = some u) :
    p.SpShown px ∧ (u.pixel px).toNat ≠ 0 := by
  unfold Ppu.shownUnit at h
  split at h
  · next hs => exact ⟨hs, by simpa using List.find?_some h⟩
  · cases h

theorem pixel_of_shownUnit_none {p : Ppu} {px : Nat} (h : p.shownUnit px = none) (hs : p.SpShown px) :
    (p.units[0].pixel px).toNat = 0 := by
  rw [Ppu.shownUnit, if_pos hs] at h
  simpa using List.find?_eq_none.mp h p.units[0] (by simp)

/-- The sprite pixel that a unit gives; it is sprite 0's if unit 0 has a pixel there, for then unit 0 comes first. -/
def Ppu.pixelOfUnit (p : Ppu) (px : Nat) (u : SpriteUnit) : SpPixel :=
  ⟨u.pixel px, u.attr.extractLsb 1 0, !u.attr.getLsbD 5,
    decide ((p.units[0].pixel px).toNat ≠ 0) && p.sprite0Line⟩

theorem firstUnit_eq (p : Ppu) (px : Nat) (l : List Nat) :
    p.firstUnit px l = match l.find? fun k => decide ((p.unitAt k).pixel px ≠ 0) with
      | none => ⟨0, 0, false, false⟩
      | some k => ⟨(p.unitAt k).pixel px, (p.unitAt k).attr.extractLsb 1 0, !(p.unitAt k).attr.getLsbD 5,
          decide (k = 0) && p.sprite0Line⟩ := by
  induction l with
  | nil => rfl
  | cons k rest ih =>
    rw [Ppu.firstUnit, List.find?_cons]
    by_cases h : (p.unitAt k).pixel px ≠ 0
    · rw [decide_eq_true h]
      exact if_pos h
    · rw [decide_eq_false h]
      exact (if_neg h).trans ih

/-- The sprite pixel is that of the first unit with a pixel there. -/
theorem firstUnit_range (p : Ppu) (px : Nat) :
    p.firstUnit px (List.range 8) = match p.units.toList.find? fun u => decide (u.pixel px ≠ 0) with
      | none => ⟨0, 0, false, false⟩
      | some u => p.pixelOfUnit px u := by
  rw [firstUnit_eq, units_toList, List.find?_map, Function.comp_def]
  cases hf : (List.range 8).find? fun k => decide ((p.unitAt k).pixel px ≠ 0) with
  | none => rfl
  | some k =>
    have hk : (p.unitAt k).pixel px ≠ 0 := by simpa using List.find?_some hf
    have hfirst : k = 0 ↔ (p.unitAt 0).pixel px ≠ 0 := by
      refine ⟨fun h => h ▸ hk, fun h0 => ?_⟩
      rw [List.range_succ_eq_map, List.find?_cons, decide_eq_true h0] at hf
      exact (Option.some.inj hf).symm
    simp only [Option.map_some, Ppu.pixelOfUnit, ← unitAt_zero, toNat_ne_zero_iff, hfirst]

theorem spPixel_eq (p : Ppu) (px : Nat) :
    p.spPixel px = match p.shownUnit px with
      | none => ⟨0, 0, false, false⟩
      | some u => p.pixelOfUnit px u := by
  simp only [Ppu.spPixel, Ppu.shownUnit, Ppu.showSp, Ppu.spLeft, Bool.and_eq_true, Bool.or_eq_true, decide_eq_true_eq,
    toNat_ne_zero_iff]
  split
  · exact firstUnit_range p px
  · rfl

/-- The colour of the composed pixel: the backdrop, the background's or the sprite's. -/
theorem pixelColor_eq (p : Ppu) (px : Nat) :
    let b := p.bgPixel px
    let bgColor := if b.bg.toNat = 0 then p.color 0x3F00 else p.color (0x3F00 + 4 * b.pal.toNat + b.bg.toNat)
    p.pixelColor px = match p.shownUnit px with
      | none => bgColor
      | some u =>
        if b.bg.toNat = 0 ∨ u.attr.getLsbD 5 = false then
          p.color (0x3F10 + 4 * (2 * (u.attr.getLsbD 1).toNat + (u.attr.getLsbD 0).toNat) + (u.pixel px).toNat)
        else bgColor := by
  dsimp only
  have hb : (p.bgPixel px).bg = 0 ↔ (p.bgPixel px).bg.toNat = 0 := BitVec.toNat_inj.symm
  rw [Ppu.pixelColor, spPixel_eq]
  simp only [hb]
  cases hf : p.shownUnit px with
  | none => by_cases h0 : (p.bgPixel px).bg.toNat = 0 <;> simp [h0]
  | some u =>
    have hu : u.pixel px ≠ 0 := (toNat_ne_zero_iff _).mp (pixel_of_shownUnit hf).2
    simp only [Ppu.pixelOfUnit, hu, extractLsb_low_toNat, and_false, if_false, Bool.not_eq_true']
    by_cases h0 : (p.bgPixel px).bg.toNat = 0
    · rw [if_pos h0, if_pos (.inl h0)]
    · simp only [h0, false_or, if_false]

/-- Sprite 0 is hit where its own pixel and a background pixel coincide, both shown, left of column 255. -/
theorem spriteZeroHit_iff (p : Ppu) (px : Nat) :
    p.spriteZeroHit px = true ↔
      (p.bgPixel px).bg.toNat ≠ 0 ∧ p.SpShown px ∧ p.sprite0Line = true ∧ (p.units[0].pixel px).toNat ≠ 0 ∧
        px ≠ 255 := by
  simp only [Ppu.spriteZeroHit, Bool.and_eq_true, decide_eq_true_eq, ← toNat_ne_zero_iff, Ppu.showBg, Ppu.showSp,
    spPixel_eq]
  cases hf : p.shownUnit px with
  | none =>
    refine iff_of_false (by simp) ?_
    rintro ⟨-, hs, -, hpix, -⟩
    exact hpix (pixel_of_shownUnit_none hf hs)
  | some u =>
    obtain ⟨hs, hu⟩ := pixel_of_shownUnit hf
    simp only [Ppu.pixelOfUnit, Bool.and_eq_true, decide_eq_true_eq]
    constructor
    · rintro ⟨⟨⟨⟨⟨⟨hpix, hline⟩, hbg⟩, -⟩, -⟩, -⟩, h255⟩
      exact ⟨hbg, hs, hline, hpix, h255⟩
    · rintro ⟨hbg, -, hline, hpix, h255⟩
      exact ⟨⟨⟨⟨⟨⟨hpix, hline⟩, hbg⟩, hu⟩, (bgPixel_shown hbg).1⟩, hs.1⟩, h255⟩

/-- The PPU whose pixel stage a dot runs: its registers are the old ones, away from dot 257 so are its sprite units,
and its background shift registers are those the dot leaves. -/
structure DrawsFrom (s : State) (p : Ppu) : Prop where
  keeps : Ppu.WorkKeeps s.ppu p
  units : s.ppu.dot ≠ 257 → p.units = s.ppu.units ∧ p.sprite0Line = s.ppu.sprite0Line
  oldFlag : p.sprite0 = (s.ppu.sprite0 && !s.ppu.atPreRenderStart)
  bgLo : (stepDot s).ppu.bgLo = p.bgLo
  bgHi : (stepDot s).ppu.bgHi = p.bgHi
  atLo : (stepDot s).ppu.atLo = p.atLo
  atHi : (stepDot s).ppu.atHi = p.atHi
  flag : (stepDot s).ppu.sprite0 = p.pixelStage.sprite0
  screen : (stepDot s).ppu.framebuffer = p.pixelStage.framebuffer

theorem stepDot_drawsFrom (s : State) : DrawsFrom s (s.ppu.beforePixel s.cart) := by
  have kb := beforeEvaluation_workKeeps s.cart s.ppu
  obtain ⟨-, hzero, -, hunits, hline⟩ := beforeEvaluation_keeps s.cart s.ppu
  have hstages := stepDot_stages s
  unfold Ppu.beforePixel at hstages ⊢
  generalize s.ppu.beforeEvaluation s.cart = b at *
  have ke := kb.trans (evaluateStage_keeps b)
  obtain ⟨_, _, _, _, he⟩ := evaluateStage_eq b
  obtain ⟨_, _, hload⟩ := loadStage_eq s.cart b.evaluateStage
  obtain ⟨_, _, hpix⟩ := pixelStage_eq (b.evaluateStage.loadStage s.cart)
  obtain ⟨_, _, _, _, hadv⟩ := advance_eq (b.evaluateStage.loadStage s.cart).pixelStage
  have hsp : (b.evaluateStage.loadStage s.cart).sprite0 = b.sprite0 := by rw [hload, he]
  refine ⟨ke.trans (loadStage_keeps _ _), fun hd => ?_, hsp.trans hzero, ?_, ?_, ?_, ?_, ?_, ?_⟩
  · rw [Ppu.loadStage, if_neg fun h => hd (ke.dot.symm.trans h.2), he]
    exact ⟨hunits, hline⟩
  all_goals rw [hstages, hadv]
  all_goals rw [hpix]

theorem Screen.set_getElem {screen : Screen} {l px : Nat} (hl : l < 240) (hp : px < 256) (c : Rgb) :
    ((Screen.set screen l px c)[l])[px]? = some c := by
  simp [Screen.set, hl, hp]

theorem pixelIndex_eq (p : Ppu) (px : Nat) :
    p.pixelIndex px =
      if p.mask.getLsbD 0 then (if p.rendering then p.pixelColor px else p.color 0x3F00) &&& 0x30
      else if p.rendering then p.pixelColor px else p.color 0x3F00 := rfl

/-- A visible dot draws its pixel and may set the sprite-zero flag. -/
theorem pixelStage_visible {p : Ppu} {l d : Nat} (hpl : p.scanline = l) (hpd : p.dot = d) (hl : l < 240) (h1 : 1 ≤ d)
    (h2 : d ≤ 256) :
    p.pixelStage.sprite0 = (p.sprite0 || (p.rendering && p.spriteZeroHit (d - 1))) ∧
      (p.pixelStage.framebuffer[l])[d - 1]? = some (Config.paletteRgb (p.pixelIndex (d - 1))) := by
  subst hpl hpd
  rw [Ppu.pixelStage, if_pos ⟨by omega, h1, h2⟩]
  exact ⟨rfl, Screen.set_getElem hl (by omega) _⟩

theorem color_of_workKeeps {p q : Ppu} (h : Ppu.WorkKeeps p q) (a : Nat) : q.color a = p.color a := by
  rw [Ppu.color, h.palette, Ppu.color]

/-- Settles O44: the pixel stage draws `pixelColor` and sets the flag by `spriteZeroHit`, on the registers of
`DrawsFrom`. -/
theorem pixelComposition : Obligations.PixelComposition := by
  intro s hl h1 h2 hm p q px k bits bgShown spShown bg bgPal pixelOf bgColor color
  have draws := stepDot_drawsFrom s
  generalize s.ppu.beforePixel s.cart = r at draws
  have kr := draws.keeps
  obtain ⟨hunits, hline⟩ := draws.units (by omega)
  obtain ⟨hhit, hdrawn⟩ := pixelStage_visible kr.scanline kr.dot hl h1 h2
  have hr : r.rendering = true := kr.rendering.trans ((Ppu.rendering_iff _).mpr hm)
  have hpix : pixelOf = fun u => (u.pixel px).toNat := funext fun u => (u.pixel_toNat px).symm
  have hbg : bg = (r.bgPixel px).bg.toNat := by
    rw [(bgPixel_toNat r px).1]
    simp only [Ppu.BgShown, kr.mask, kr.x, ← draws.bgLo, ← draws.bgHi]
    rfl
  have hpal : bgPal = (r.bgPixel px).pal.toNat := by
    rw [(bgPixel_toNat r px).2]
    simp only [Ppu.BgShown, kr.mask, kr.x, ← draws.atLo, ← draws.atHi]
    rfl
  constructor
  · have hcolor := pixelColor_eq r px
    simp only [color_of_workKeeps kr, ← hbg, ← hpal, Ppu.shownUnit, Ppu.SpShown, kr.mask, hunits] at hcolor
    rw [← draws.screen, pixelIndex_eq, if_pos hr, kr.mask, hcolor] at hdrawn
    clear_value pixelOf
    subst hpix
    exact hdrawn
  · rw [draws.flag, hhit, draws.oldFlag, hr, not_atPreRenderStart (by omega), Bool.not_false, Bool.and_true,
      Bool.true_and, Bool.or_eq_true, spriteZeroHit_iff, ← hbg, Ppu.SpShown, kr.mask, hline, hpix]
    simp only [hunits]
    rfl

theorem stepDot_sprite0 {s : State} (h : (stepDot s).ppu.sprite0 = true) :
    s.ppu.sprite0 = true ∨
      s.ppu.scanline ≤ 239 ∧ 1 ≤ s.ppu.dot ∧ s.ppu.dot ≤ 255 ∧ s.ppu.mask.getLsbD 3 = true ∧
        s.ppu.mask.getLsbD 4 = true ∧ s.ppu.sprite0Line = true := by
  have draws := stepDot_drawsFrom s
  generalize s.ppu.beforePixel s.cart = r at draws
  have kr := draws.keeps
  have hold (h : r.sprite0 = true) : s.ppu.sprite0 = true := by
    rw [draws.oldFlag, Bool.and_eq_true] at h
    exact h.1
  rw [draws.flag] at h
  by_cases hv : s.ppu.scanline ≤ 239 ∧ 1 ≤ s.ppu.dot ∧ s.ppu.dot ≤ 256
  · obtain ⟨hl, h1, h2⟩ := hv
    rw [(pixelStage_visible kr.scanline kr.dot (Nat.lt_succ_of_le hl) h1 h2).1, Bool.or_eq_true, Bool.and_eq_true,
      spriteZeroHit_iff] at h
    rcases h with h | ⟨-, hbg, hsp, hline, -, h255⟩
    · exact .inl (hold h)
    · exact .inr ⟨hl, h1, by omega, kr.mask ▸ (bgPixel_shown hbg).1, kr.mask ▸ hsp.1,
        (draws.units (by omega)).2 ▸ hline⟩
  · rw [Ppu.pixelStage, if_neg (by rw [kr.scanline, kr.dot]; exact hv)] at h
    exact .inl (hold h)

/-- What a dot leaves with rendering off (R489). -/
theorem stepDot_off {s : State} (h : s.ppu.rendering = false) :
    (stepDot s).ppu.v = s.ppu.v ∧ (stepDot s).ppu.overflow = (s.ppu.overflow && !s.ppu.atPreRenderStart) ∧
      (stepDot s).ppu.soam = s.ppu.soam ∧ (stepDot s).ppu.soamCount = s.ppu.soamCount := by
  obtain ⟨hv, -⟩ := stepDot_background s
  obtain ⟨hsoam, hcount, -, hover⟩ := stepDot_evaluation s
  have hr := (beforeEvaluation_workKeeps s.cart s.ppu).rendering.trans h
  rw [Ppu.evaluateStage, if_neg (by simp [hr])] at hsoam hcount hover
  rw [hv, hsoam, hcount, hover, Ppu.beforeEvaluation, flagStages_eq, Ppu.backgroundStage, if_neg]
  · exact ⟨rfl, rfl, rfl, rfl⟩
  · rw [Bool.and_eq_true]
    exact fun hb => absurd (h.symm.trans hb.2) (by decide)

/-- Settles O45: the flag by `stepDot_sprite0`, and with rendering off the stages but the pixel stage do nothing. -/
theorem spriteZeroAndRenderingOff : Obligations.SpriteZeroAndRenderingOff := by
  intro s
  refine ⟨stepDot_sprite0, fun h3 h4 => ?_⟩
  have hr : s.ppu.rendering = false := by
    rw [Bool.eq_false_iff, ne_eq, Ppu.rendering_iff, h3, h4]
    simp
  obtain ⟨hv, hover, hsoam, hcount⟩ := stepDot_off hr
  refine ⟨hv, fun h => ?sprite0, fun h => ?overflow, hsoam, hcount, fun hl h1 h2 => ?backdrop⟩
  case sprite0 =>
    rcases stepDot_sprite0 h with h | ⟨-, -, -, hbg, -⟩
    · exact h
    · exact absurd (h3.symm.trans hbg) (by decide)
  case overflow =>
    rw [hover, Bool.and_eq_true] at h
    exact h.1
  case backdrop =>
    have draws := stepDot_drawsFrom s
    have kr := draws.keeps
    have hdrawn := (pixelStage_visible kr.scanline kr.dot hl h1 h2).2
    rw [← draws.screen, pixelIndex_eq, kr.rendering.trans hr, kr.mask, color_of_workKeeps kr] at hdrawn
    exact hdrawn

end Sys2Proof.Machine
end

section
/-! Proofs for the family 66_apu: the register writes, the status register, the frame sequencer, the mixer's range, the
sample stream and the DMC's reader. -/

namespace Sys2Proof.Machine

/-! ### Register writes (R521-R533) -/

theorem loadedLength_eq (d : Byte) : loadedLength d = lengthTable[d.toNat / 8]?.getD 0 := by
  have h : (d.extractLsb 7 3).toNat = d.toNat / 8 := by
    have := d.isLt
    simp [BitVec.extractLsb_toNat, Nat.shiftRight_eq_div_pow]
    omega
  rw [loadedLength, entry, h]

theorem writeAddr_eq (d : Byte) (c : Dmc) : c.writeAddr d = { c with sampleAddr := 0xC000 + 64 * d.setWidth 16 } := by
  have : BitVec.ofNat 16 (0xC000 + 64 * d.toNat) = 0xC000 + 64 * d.setWidth 16 := by bv_omega
  rw [Dmc.writeAddr, this]

theorem writeLen_eq (d : Byte) (c : Dmc) : c.writeLen d = { c with sampleLen := 16 * d.setWidth 12 + 1 } := by
  have : BitVec.ofNat 12 (16 * d.toNat + 1) = 16 * d.setWidth 12 + 1 := by bv_omega
  rw [Dmc.writeLen, this]

theorem and_eq_ite_false (b c : Bool) : (b && c) = if c then b else false := by cases c <;> simp

/-- Settles O46: each write is the register's own update of its channel. -/
theorem apuRegisterWrites : Obligations.ApuRegisterWrites := by
  intro s d u written low high length volume sweep load
  have hlength (e : Bool) (old : Nat) : length e old = if e then loadedLength d else old := by
    rw [loadedLength_eq]
  have reg (r : Fin 0x14) {a : Word} {v : Apu} (ha : a.toNat = 0x4000 + r) (hv : u.writeReg r d = v) :
      written a v := (busWrite_apuReg ha r.isLt d s).trans (by rw [hv])
  simp only [load, hlength]
  clear_value length
  refine ⟨reg 0 rfl rfl, reg 4 rfl rfl, reg 1 rfl rfl, reg 5 rfl rfl, reg 2 rfl rfl, reg 6 rfl rfl, reg 3 rfl rfl,
    reg 7 rfl rfl, reg 8 rfl rfl, reg 9 rfl rfl, reg 0xD rfl rfl, reg 0xA rfl rfl, reg 0xB rfl rfl, reg 0xC rfl rfl,
    reg 0xE rfl rfl, reg 0xF rfl rfl, reg 0x10 rfl ?control, reg 0x11 rfl rfl, reg 0x12 rfl ?address,
    reg 0x13 rfl ?size, ?frameCounter⟩
  case control =>
    rw [← and_eq_ite_false]
    rfl
  case address =>
    rw [← writeAddr_eq]
    rfl
  case size =>
    rw [← writeLen_eq]
    rfl
  case frameCounter =>
    have hflag : (u.frameIrq && !d.getLsbD 6) = if d.getLsbD 6 then false else u.frameIrq := by
      cases d.getLsbD 6 <;> simp
    rw [← hflag]
    rfl

/-! ### The status register (R532) -/

theorem apuStatusByte_bits (ob : Byte) (u : Apu) :
    [7, 6, 5, 4, 3, 2, 1, 0].map (u.statusByte ob).getLsbD =
      [u.dmcIrq, u.frameIrq, ob.getLsbD 5, decide (u.dmc.remaining ≠ 0),
        decide (u.noise.length ≠ 0), decide (u.triangle.length ≠ 0), decide (u.pulse2.length ≠ 0),
        decide (u.pulse1.length ≠ 0)] := by
  simp only [List.map_cons, List.map_nil, Apu.statusByte, Nat.pos_iff_ne_zero]
  repeat rw [BitVec.getLsbD_append]
  simp

/-- Settles O47: the byte by bits, and the write channel by channel, where `Dmc.enable` splits on its own bit. -/
theorem apuStatus : Obligations.ApuStatus := by
  intro s d
  refine ⟨apuStatusByte_bits _ _, rfl, ?_⟩
  have hd (c : Dmc) : c.enable (d.getLsbD 4) =
      if d.getLsbD 4 = false then { c with remaining := 0 }
      else if c.remaining = 0 then { c with curAddr := c.sampleAddr, remaining := c.sampleLen } else c := by
    unfold Dmc.enable
    cases d.getLsbD 4 <;> simp
  rw [← hd]
  rfl

/-! ### The frame sequencer (R541-R544) -/

theorem sweepTarget_eq (first : Bool) (p : Pulse) :
    p.sweepTarget first =
      if p.sweepNeg = true then p.timerPer.toNat - (p.timerPer.toNat : Int) / 2 ^ p.sweepShift.toNat - first.toNat
      else p.timerPer.toNat + (p.timerPer.toNat : Int) / 2 ^ p.sweepShift.toNat := by
  have h : ((p.timerPer >>> p.sweepShift.toNat).toNat : Int) = (p.timerPer.toNat : Int) / 2 ^ p.sweepShift.toNat := by
    rw [BitVec.toNat_ushiftRight, Nat.shiftRight_eq_div_pow]
    push_cast
    rfl
  rw [Pulse.sweepTarget, h]
  cases first <;> rfl

/-- The target of a sweep that shifts is never below 0: pulse 1 subtracts one more, but at least half the period is
left. -/
theorem sweepTarget_nonneg (first : Bool) {p : Pulse} (ht : 8 ≤ p.timerPer.toNat) (hs : p.sweepShift ≠ 0) :
    0 ≤ p.sweepTarget first := by
  have hpow : 2 ≤ 2 ^ p.sweepShift.toNat :=
    Nat.le_self_pow (fun h => hs (BitVec.eq_of_toNat_eq h)) 2
  have hhalf : p.timerPer.toNat / 2 ^ p.sweepShift.toNat ≤ p.timerPer.toNat / 2 :=
    Nat.div_le_div_left hpow (by decide)
  have hfirst : first.toNat ≤ 1 := Bool.toNat_le first
  have hcast : (p.timerPer.toNat : Int) / 2 ^ p.sweepShift.toNat =
      (p.timerPer.toNat / 2 ^ p.sweepShift.toNat : Nat) := by
    push_cast
    rfl
  rw [sweepTarget_eq, hcast]
  generalize p.timerPer.toNat / 2 ^ p.sweepShift.toNat = change at hhalf
  split <;> omega

/-- The period after a sweep clock, over the integers. -/
theorem sweptPeriod_toNat (first : Bool) (p : Pulse) :
    ((p.sweptPeriod first).toNat : Int) =
      if p.sweepDiv = 0 ∧ p.sweepEn = true ∧ p.sweepShift ≠ 0 ∧ 8 ≤ p.timerPer.toNat ∧
          p.sweepTarget first ≤ 0x7FF then
        p.sweepTarget first
      else p.timerPer.toNat := by
  have hmuted : p.muted first = false ↔ 8 ≤ p.timerPer.toNat ∧ p.sweepTarget first ≤ 0x7FF := by
    simp [Pulse.muted]
  simp only [Pulse.sweptPeriod, hmuted]
  split
  · next h =>
    obtain ⟨-, -, hs, ht, hle⟩ := h
    have := sweepTarget_nonneg first ht hs
    rw [BitVec.toNat_ofInt]
    omega
  · rfl

theorem lengthClock_eq (halt : Bool) (n : Nat) : lengthClock halt n = if halt = true ∨ n = 0 then n else n - 1 := by
  cases halt
  · simp only [lengthClock, Bool.false_eq_true, if_false, false_or]
    split <;> omega
  · simp [lengthClock]

theorem sweepClock_eq (first : Bool) (p : Pulse) :
    p.sweepClock first =
      { p with
        timerPer := p.sweptPeriod first, sweepReload := false
        sweepDiv := if p.sweepDiv = 0 ∨ p.sweepReload = true then p.sweepPer else p.sweepDiv - 1 } := by
  unfold Pulse.sweepClock
  split
  · rfl
  · next h =>
    have : p.sweepReload = false := by simpa using fun hr => h (.inr hr)
    rw [← this]

theorem half_eq (first : Bool) (p : Pulse) :
    p.half first =
      { p with
        length := if p.halt = true ∨ p.length = 0 then p.length else p.length - 1
        timerPer := p.sweptPeriod first, sweepReload := false
        sweepDiv := if p.sweepDiv = 0 ∨ p.sweepReload = true then p.sweepPer else p.sweepDiv - 1 } := by
  rw [Pulse.half, sweepClock_eq, lengthClock_eq]
  rfl

theorem Envelope.clock_eq (vol : BitVec 4) (halt : Bool) (e : Envelope) :
    e.clock vol halt =
      if e.start = true then { start := false, decay := 15, div := vol }
      else if e.div ≠ 0 then { e with div := e.div - 1 }
      else { e with div := vol, decay := if e.decay ≠ 0 then e.decay - 1 else if halt = true then 15 else 0 } := by
  simp only [Envelope.clock, ne_eq, ite_not]

theorem quarterFrame_eq (u : Apu) :
    u.quarterFrame =
      { u with
        pulse1 := { u.pulse1 with env := u.pulse1.env.clock u.pulse1.vol u.pulse1.halt }
        pulse2 := { u.pulse2 with env := u.pulse2.env.clock u.pulse2.vol u.pulse2.halt }
        noise := { u.noise with env := u.noise.env.clock u.noise.vol u.noise.halt }
        triangle := { u.triangle with
          lin :=
            if u.triangle.linReload = true then u.triangle.linReloadVal
            else if u.triangle.lin = 0 then 0 else u.triangle.lin - 1
          linReload := if u.triangle.ctrlHalt = false then false else u.triangle.linReload } } := by
  have hr (a b : Bool) : (a && b) = if b = false then false else a := by cases b <;> simp
  simp only [Apu.quarterFrame, Triangle.linearClock, ne_eq, ite_not, ← hr]
  rfl

/-- The clocks of an event: both, the quarter frame's alone, or none. -/
def Apu.clocked (half quarter : Prop) [Decidable half] [Decidable quarter] (u : Apu) : Apu :=
  if half then u.quarterFrame.halfFrame else if quarter then u.quarterFrame else u

theorem clocked_countCycle (half quarter : Prop) [Decidable half] [Decidable quarter] (u : Apu) :
    u.countCycle.clocked half quarter = { u.clocked half quarter with fsCycle := u.fsCycle + 1 } := by
  unfold Apu.clocked
  split
  · rfl
  split
  · rfl
  · rfl

theorem fourStep_eq (u : Apu) :
    u.fourStep =
      { u.clocked (u.fsCycle = 14913 ∨ u.fsCycle = 29829) (u.fsCycle = 7457 ∨ u.fsCycle = 22371) with
        frameIrq := u.frameIrq || (!u.fsInhibit && decide (u.fsCycle = 29829))
        fsCycle := if u.fsCycle = 29830 then 0 else u.fsCycle } := by
  have quiet (h : u.fsCycle ≠ 29829) : (u.frameIrq || (!u.fsInhibit && decide (u.fsCycle = 29829))) = u.frameIrq := by
    rw [decide_eq_false h, Bool.and_false, Bool.or_false]
  unfold Apu.fourStep Apu.clocked
  split
  · rw [if_neg (by omega), if_pos (by omega), if_neg (by omega), quiet (by omega)]
    rfl
  split
  · rw [if_pos (by omega), if_neg (by omega), quiet (by omega)]
    rfl
  split
  · rw [if_neg (by omega), if_pos (by omega), if_neg (by omega), quiet (by omega)]
    rfl
  split
  · next h =>
    rw [if_pos (by omega), if_neg (by omega), decide_eq_true h, Bool.and_true]
    rfl
  · rw [quiet (by omega), if_neg (c := _ ∨ _) (by omega), if_neg (c := _ ∨ _) (by omega)]
    split <;> rfl

theorem fiveStep_eq (u : Apu) :
    u.fiveStep =
      { u.clocked (u.fsCycle = 14913 ∨ u.fsCycle = 37281) (u.fsCycle = 7457 ∨ u.fsCycle = 22371) with
        frameIrq := u.frameIrq
        fsCycle := if u.fsCycle = 37282 then 0 else u.fsCycle } := by
  unfold Apu.fiveStep Apu.clocked
  split
  · rw [if_neg (by omega), if_pos (by omega), if_neg (by omega)]
    rfl
  split
  · rw [if_pos (by omega), if_neg (by omega)]
    rfl
  split
  · rw [if_neg (by omega), if_pos (by omega), if_neg (by omega)]
    rfl
  split
  · rw [if_pos (by omega), if_neg (by omega)]
    rfl
  · rw [if_neg (c := _ ∨ _) (by omega), if_neg (c := _ ∨ _) (by omega)]
    split <;> rfl

/-- One cycle of the sequencer, in either mode. -/
theorem sequencerTick_eq (u : Apu) :
    let n := u.fsCycle + 1
    u.sequencerTick =
      { u.clocked (n = 14913 ∨ (u.fsMode = false ∧ n = 29829) ∨ (u.fsMode = true ∧ n = 37281))
          (n = 7457 ∨ n = 22371) with
        frameIrq := u.frameIrq || (!u.fsMode && (!u.fsInhibit && decide (n = 29829)))
        fsCycle := if n = (if u.fsMode then 37282 else 29830) then 0 else n } := by
  have hn : u.countCycle.fsCycle = u.fsCycle + 1 := rfl
  have hirq : u.countCycle.frameIrq = u.frameIrq ∧ u.countCycle.fsInhibit = u.fsInhibit := ⟨rfl, rfl⟩
  dsimp only
  rw [Apu.sequencerTick, fourStep_eq, fiveStep_eq, hn, hirq.1, hirq.2, clocked_countCycle, clocked_countCycle]
  cases hm : u.fsMode <;> simp

/-- Settles O48: the two clocks written out, and the sequencer's events as one record in both modes. -/
theorem frameSequencer : Obligations.FrameSequencer := by
  intro u envelope counted sweepStep n half quarter t
  have ht : t = _ := sequencerTick_eq u
  have hsweep (first : Bool) (p : Pulse) : sweepStep first p (p.half first) := by
    have hperiod := sweptPeriod_toNat first p
    rw [sweepTarget_eq] at hperiod
    rw [half_eq]
    exact ⟨hperiod, rfl⟩
  refine ⟨?quarterFrame, hsweep true u.pulse1, hsweep false u.pulse2, ?halfFrame, fun _ hh => ?both,
    fun hq hh => ?quarterOnly, fun hq => ?none, ?interrupt, ?wrap⟩
  case quarterFrame =>
    rw [quarterFrame_eq]
    simp only [Envelope.clock_eq]
    rfl
  case halfFrame => rw [Apu.halfFrame, lengthClock_eq, lengthClock_eq]
  case both => rw [ht, Apu.clocked, if_pos hh]
  case quarterOnly => rw [ht, Apu.clocked, if_neg hh, if_pos (hq.resolve_left hh)]
  case none => rw [ht, Apu.clocked, if_neg (fun h => hq (.inl h)), if_neg (fun h => hq (.inr h))]
  case interrupt =>
    rw [ht]
    simp only [Bool.or_eq_true, Bool.and_eq_true, Bool.not_eq_true', decide_eq_true_eq]
    rfl
  case wrap => rw [ht]

/-! ### The mixer (R565) -/

theorem envelopeOut_le (const : Bool) (vol : BitVec 4) (e : Envelope) : envelopeOut const vol e ≤ 15 := by
  have := vol.isLt
  have := e.decay.isLt
  unfold envelopeOut
  split <;> omega

theorem pulse_out_le (first : Bool) (p : Pulse) : p.out first ≤ 15 := by
  unfold Pulse.out
  split
  · omega
  · exact envelopeOut_le _ _ _

theorem noise_out_le (n : Noise) : n.out ≤ 15 := by
  unfold Noise.out
  split
  · omega
  · exact envelopeOut_le _ _ _

theorem triangle_out_le (t : Triangle) : t.out ≤ 15 := by
  have h : ∀ k : BitVec 5, entry triSeq k.toNat ≤ 15 := by decide
  exact h t.seq

/-- The bound is the pulse part of the mixer at its greatest sum, 30. -/
theorem pulseMix_bounds {p1 p2 : Nat} (h1 : p1 ≤ 15) (h2 : p2 ≤ 15) :
    0 ≤ pulseMix p1 p2 ∧ pulseMix p1 p2 ≤ (9588 / 100) / (8128 / 30 + 100) := by
  unfold pulseMix
  split
  · norm_num
  · next h =>
    have hpos : (0 : Rat) < (p1 + p2 : Nat) := by exact_mod_cast Nat.pos_of_ne_zero h
    have hle : ((p1 + p2 : Nat) : Rat) ≤ 30 := by exact_mod_cast (by omega : p1 + p2 ≤ 30)
    exact ⟨by positivity, by gcongr⟩

/-- The bound is `tnd_mix` at the channels' greatest outputs: it grows with each of them. -/
theorem tndMix_bounds {t n d : Nat} (ht : t ≤ 15) (hn : n ≤ 15) (hd : d ≤ 127) :
    0 ≤ tndMix t n d ∧ tndMix t n d ≤ (15979 / 100) / (1 / (15 / 8227 + 15 / 12241 + 127 / 22638) + 100) := by
  unfold tndMix
  split
  · norm_num
  · next h =>
    have ht' : (t : Rat) ≤ 15 := by exact_mod_cast ht
    have hn' : (n : Rat) ≤ 15 := by exact_mod_cast hn
    have hd' : (d : Rat) ≤ 127 := by exact_mod_cast hd
    have hpos : (0 : Rat) < t / 8227 + n / 12241 + d / 22638 := by
      have h : 0 < t ∨ 0 < n ∨ 0 < d := by omega
      rcases h with h | h | h
      · have : (0 : Rat) < t := by exact_mod_cast h
        positivity
      · have : (0 : Rat) < n := by exact_mod_cast h
        positivity
      · have : (0 : Rat) < d := by exact_mod_cast h
        positivity
    exact ⟨by positivity, by gcongr⟩

/-- Settles O49: both parts are greatest at the channels' greatest outputs, and there their sum is below 1. -/
theorem mixIsNormalized : Obligations.MixIsNormalized := by
  intro u
  obtain ⟨hp0, hp1⟩ := pulseMix_bounds (pulse_out_le true u.pulse1) (pulse_out_le false u.pulse2)
  obtain ⟨ht0, ht1⟩ := tndMix_bounds (triangle_out_le u.triangle) (noise_out_le u.noise)
    (Nat.le_of_lt_succ u.dmc.level.isLt)
  refine ⟨add_nonneg hp0 ht0, (add_le_add hp1 ht1).trans_lt ?_⟩
  norm_num

/-! ### The sample stream (R566) -/

theorem sequencerTick_samples (u : Apu) :
    u.sequencerTick.sampleAcc = u.sampleAcc ∧ u.sequencerTick.samples = u.samples := by
  rw [sequencerTick_eq]
  unfold Apu.clocked
  split
  · exact ⟨rfl, rfl⟩
  split <;> exact ⟨rfl, rfl⟩

theorem dmcReaderTick_samples (s : State) :
    (dmcReaderTick s).apu.sampleAcc = s.apu.sampleAcc ∧ (dmcReaderTick s).apu.samples = s.apu.samples := by
  unfold dmcReaderTick
  split
  · obtain ⟨_, h⟩ := busRead_apu s.apu.dmc.curAddr
      (s.mapCpu fun c => { c with stall := c.stall + Config.dmcStallCycles })
    simp only [State.mapApu_apu, h]
    exact ⟨rfl, rfl⟩
  · exact ⟨rfl, rfl⟩

/-- The sample rate is added, and a sample is taken where the sum reaches `CPU_HZ`, which is then taken away. -/
theorem sampleTick_spec (u : Apu) :
    ∃ k : Nat, u.sampleTick.samples.length = u.samples.length + k ∧
      u.sampleTick.sampleAcc + k * Config.cpuHz = u.sampleAcc + Config.sampleRate ∧
      (0 ≤ u.sampleAcc → u.sampleAcc < Config.cpuHz →
        0 ≤ u.sampleTick.sampleAcc ∧ u.sampleTick.sampleAcc < Config.cpuHz) := by
  have hpos := sampleRate_pos
  have hlt := sampleRate_lt
  by_cases hdue : Config.cpuHz ≤ u.sampleAcc + Config.sampleRate
  · have hacc : u.sampleTick.sampleAcc = u.sampleAcc + Config.sampleRate - Config.cpuHz := by
      simp [Apu.sampleTick, Apu.sampleDue, hdue]
    refine ⟨1, by simp [Apu.sampleTick, Apu.sampleDue, hdue], ?_, fun h0 h1 => ⟨?_, ?_⟩⟩ <;> rw [hacc]
    · push_cast
      ring
    · linarith
    · linarith
  · have hacc : u.sampleTick.sampleAcc = u.sampleAcc + Config.sampleRate := by
      simp [Apu.sampleTick, Apu.sampleDue, hdue]
    refine ⟨0, by simp [Apu.sampleTick, Apu.sampleDue, hdue], ?_, fun h0 h1 => ⟨?_, ?_⟩⟩ <;> rw [hacc]
    · push_cast
      ring
    · linarith
    · exact not_le.mp hdue

/-- An APU cycle takes one step of the sample stream: nothing else in it touches the accumulator or the samples. -/
theorem stepCycle_samples (s : State) :
    ∃ k : Nat, (stepCycle s).apu.samples.length = s.apu.samples.length + k ∧
      (stepCycle s).apu.sampleAcc + k * Config.cpuHz = s.apu.sampleAcc + Config.sampleRate ∧
      (0 ≤ s.apu.sampleAcc → s.apu.sampleAcc < Config.cpuHz →
        0 ≤ (stepCycle s).apu.sampleAcc ∧ (stepCycle s).apu.sampleAcc < Config.cpuHz) := by
  have hreader := dmcReaderTick_samples (s.mapApu fun u => u.sequencerTick.timersTick)
  have hsequencer := sequencerTick_samples s.apu
  have h := sampleTick_spec (dmcReaderTick (s.mapApu fun u => u.sequencerTick.timersTick)).apu
  rw [hreader.1, hreader.2] at h
  simp only [State.mapApu_apu, Apu.timersTick, hsequencer] at h
  exact h

/-- Settles O50, by induction on the cycles. -/
theorem sampleStream : Obligations.SampleStream := by
  intro n
  induction n with
  | zero => exact fun s h0 h1 => ⟨0, by simp [apuCycles], by simp [apuCycles], h0, h1⟩
  | succ n ih =>
    intro s h0 h1
    obtain ⟨j, hj, hacc, hrange⟩ := stepCycle_samples s
    obtain ⟨h0', h1'⟩ := hrange h0 h1
    obtain ⟨k, hk, hacck, hrest⟩ := ih (stepCycle s) h0' h1'
    refine ⟨j + k, by rw [apuCycles, hk, hj, Nat.add_assoc], ?_, hrest⟩
    rw [apuCycles]
    push_cast
    linarith

/-! ### The DMC's reader (R560) -/

theorem dmc_take_eq (b : Byte) (c : Dmc) :
    c.take b = { c with
      buffer := b
      bufferFull := true
      curAddr :=
        if c.remaining = 1 ∧ c.loop = true then c.sampleAddr
        else if c.curAddr = 0xFFFF then 0x8000 else c.curAddr + 1
      remaining := if c.remaining = 1 ∧ c.loop = true then c.sampleLen else c.remaining - 1 } := by
  by_cases h : c.remaining = 1 ∧ c.loop = true
  · simp only [Dmc.take, if_pos h]
  · simp only [Dmc.take, if_neg h]

/-- Settles O51: the fetch reads PRG ROM, which has no side effect. -/
theorem dmcReader : Obligations.DmcReader := by
  intro s ha
  refine ⟨fun h => if_neg ?_, fun h1 h2 => ?_⟩
  · rintro ⟨h1, h2⟩
    rcases h with h | h
    · exact absurd (h1.symm.trans h) (by decide)
    · exact h2 h
  · rw [dmcReaderTick, if_pos ⟨h1, h2⟩]
    simp only [busRead_prg ha, dmc_take_eq]
    rfl

end Sys2Proof.Machine
end

section
/-! Proofs for the family 67_io_scheduler_host: what a step keeps and how far it moves the PPU; the frame step; the
controller ports; the snapshot. -/

namespace Sys2Proof.Machine

/-! ### One step (R585-R587) -/

/-- A step leaves no stall, and no OAM DMA marked as just started (10_state R48). -/
theorem step_settled {s u : State} (h : step s = .next u) : u.cpu.stall = 0 ∧ u.cpu.oamDmaStarted = false := by
  obtain ⟨t, ht, rfl⟩ := schedulerPass_cases h
  refine ⟨applyStall_stall _, ?_⟩
  obtain ⟨_, rfl, -⟩ := cpuStep_cases ht
  obtain ⟨_, _, _, hcpu⟩ := distribute_cpu s (endStep _)
  rw [hcpu]
  exact endStep_dma _

/-- Settles O59: the CPU step keeps the ranges, and so do the ticks and the stall cycles after it. -/
theorem stepKeepsInv : Obligations.StepKeepsInv := by
  intro s u hs h
  obtain ⟨hstall, hdma⟩ := step_settled h
  obtain ⟨t, ht, rfl⟩ := schedulerPass_cases h
  exact ⟨distribute_inRange (cpuStep_inRange hs.inRange ht), hstall, hdma⟩

/-- Settles O58: the CPU step counts at least two cycles and moves no dot; each of its ticks, and each stall cycle,
moves the position by three dots. -/
theorem threeDotsPerCycle : Obligations.ThreeDotsPerCycle := by
  intro s u hs h
  obtain ⟨hstall, hdma⟩ := step_settled h
  obtain ⟨t, ht, rfl⟩ := schedulerPass_cases h
  have hcycles := cpuStep_cycles ht
  obtain ⟨hline, hdot, -⟩ := cpuStep_position ht
  have htf : t.ppu.inFrame := by simpa only [Ppu.inFrame, hline, hdot] using hs
  have htp : t.ppu.position = s.ppu.position := by simp only [Ppu.position, hline, hdot]
  obtain ⟨hvf, hvp⟩ := ticks_position (t.cpu.cycles - s.cpu.cycles) htf
  obtain ⟨_, _, hvcpu⟩ := ticks_cpu (t.cpu.cycles - s.cpu.cycles) t
  obtain ⟨huf, hle, hup⟩ := applyStall_position hvf
  simp only [hvcpu] at hle hup
  refine ⟨hcycles.trans hle, huf, ?_, hstall, hdma⟩
  rw [distribute, hup, hvp, htp, Nat.mod_add_mod]
  congr 1
  omega

/-! ### The frame step (R585) -/

/-- From inside a frame, enough passes reach a fault or the end of the frame: each moves at least six dots. -/
theorem frameLoop_ends : ∀ (fuel : Nat) {s : State}, s.ppu.inFrame → s.ppu.frameComplete = false →
    dotsPerFrame ≤ s.ppu.position + 6 * fuel →
    ∃ r t, frameLoop fuel s = some (r, t) ∧
      ((r = .fault t.cpu.faultPc t.cpu.faultOpcode ∧ t.cpu.halted = true) ∨
        (r = .frame t.ppu.frameOut t.apu.samples ∧ t.ppu.frameComplete = true))
  | 0, s, hf, _, h => absurd h (Nat.not_le.mpr (Ppu.position_lt hf))
  | fuel + 1, s, hf, hc, h => by
    rcases cpuStep_outcome s with ⟨u, hu⟩ | ⟨pc, op, hu⟩
    · have hpass : schedulerPass s = .next (distribute s u) := by simp [schedulerPass, hu]
      obtain ⟨hf', hmoved⟩ := schedulerPass_frame hf hpass
      simp only [frameLoop, hpass]
      cases hdone : (distribute s u).ppu.frameComplete
      · rw [hdone] at hmoved
        obtain ⟨-, hp⟩ := hmoved.resolve_left (by decide)
        exact frameLoop_ends fuel hf' hdone (by omega)
      · exact ⟨_, _, rfl, .inr ⟨rfl, hdone⟩⟩
    · obtain ⟨hhalt, hpc, hop⟩ := cpuStep_fault hu
      have hpass : schedulerPass s = .fault (.decodeError pc op) := by simp [schedulerPass, hu]
      refine ⟨.fault pc op, haltedState s, by simp [frameLoop, hpass], .inl ⟨?_, hhalt⟩⟩
      rw [hpc, hop]

/-- Settles O57: a halted machine reports its fault at once; for the others the model's fuel is enough passes. -/
theorem frameStepEnds : Obligations.FrameStepEnds := by
  intro s hs
  unfold runFrame
  split
  · next hhalted => exact ⟨_, _, rfl, .inl ⟨rfl, hhalted⟩⟩
  · exact frameLoop_ends frameFuel hs rfl (by simp only [dotsPerFrame, frameFuel]; omega)

/-! ### The controller ports (R580, R581) -/

theorem padByte_bit (ob : Byte) (b : Bool) : (padByte ob b).getLsbD 0 = b := by
  unfold padByte
  rw [BitVec.getLsbD_append]
  simp

/-- The reads of port 1 shift its register and nothing else of the ports. -/
theorem afterReads_port1 : ∀ (n : Nat) (s : State),
    (afterReads 0x4016 n s).pads =
      { s.pads with shift1 := (padShift s.pads.strobe s.pads.buttons1)^[n] s.pads.shift1 }
  | 0, _ => rfl
  | n + 1, s => afterReads_port1 n (busRead 0x4016 s).2

/-- The reads of port 2 shift its register and nothing else of the ports. -/
theorem afterReads_port2 : ∀ (n : Nat) (s : State),
    (afterReads 0x4017 n s).pads =
      { s.pads with shift2 := (padShift s.pads.strobe s.pads.buttons2)^[n] s.pads.shift2 }
  | 0, _ => rfl
  | n + 1, s => afterReads_port2 n (busRead 0x4017 s).2

/-- While the strobe is 0 each read shifts the register down, a 1 entering at the top. -/
theorem padShift_bit (buttons shift : Byte) {k : Nat} (hk : k < 8) :
    (padShift false buttons shift).getLsbD k = if k + 1 < 8 then shift.getLsbD (k + 1) else true := by
  have h80 : (0x80 : Byte).getLsbD k = decide (k = 7) := by
    revert k
    decide
  have h : (padShift false buttons shift).getLsbD k = (shift.getLsbD (1 + k) || decide (k = 7)) := by
    rw [← h80]
    simp [padShift]
  rw [h, Nat.add_comm 1 k]
  split
  · rw [decide_eq_false (by omega), Bool.or_false]
  · rw [decide_eq_true (by omega), Bool.or_true]

theorem padShift_iterate_bit (buttons : Byte) : ∀ (n : Nat) (shift : Byte) {k : Nat}, k < 8 →
    ((padShift false buttons)^[n] shift).getLsbD k = if k + n < 8 then shift.getLsbD (k + n) else true
  | 0, shift, k, hk => by simp [hk]
  | n + 1, shift, k, hk => by
    rw [Function.iterate_succ_apply, padShift_iterate_bit buttons n _ hk]
    by_cases h : k + n < 8
    · rw [if_pos h, padShift_bit _ _ h, Nat.add_assoc]
    · rw [if_neg h, if_neg (by omega)]

/-- The `n`-th bit a port gives. -/
theorem padShift_iterate_low (buttons : Byte) (n : Nat) (shift : Byte) :
    ((padShift false buttons)^[n] shift).getLsbD 0 = if n < 8 then shift.getLsbD n else true := by
  rw [padShift_iterate_bit buttons n shift (by decide), Nat.zero_add]

/-- Settles O52: while the strobe is 1 the register is never looked at; after it, the reads shift the buttons out. -/
theorem controllerShift : Obligations.ControllerShift := by
  intro s d1 d0 n h1 h0
  have hon : (busWrite 0x4016 d1 s).pads =
      { s.pads with strobe := true, shift1 := s.pads.buttons1, shift2 := s.pads.buttons2 } := if_pos h1
  have hoff : (busWrite 0x4016 d0 (busWrite 0x4016 d1 s)).pads =
      { s.pads with strobe := false, shift1 := s.pads.buttons1, shift2 := s.pads.buttons2 } := by
    refine (if_neg (by rw [h0]; decide)).trans ?_
    rw [hon]
  have read1 (t : State) : (busRead 0x4016 t).1.getLsbD 0 = t.pads.bit1 := padByte_bit _ _
  have read2 (t : State) : (busRead 0x4017 t).1.getLsbD 0 = t.pads.bit2 := padByte_bit _ _
  refine ⟨?_, ?_, ?_, ?_⟩
  · rw [read1, afterReads_port1, hon]
    rfl
  · rw [read2, afterReads_port2, hon]
    rfl
  · rw [read1, afterReads_port1, hoff]
    exact padShift_iterate_low _ n _
  · rw [read2, afterReads_port2, hoff]
    exact padShift_iterate_low _ n _

/-! ### The snapshot (R592-R594) -/

/-- A restore of a capture asks whether the snapshot is well formed for the cartridge now loaded. -/
theorem restore_capture {Blob : Type} (wire : WireFormat Blob) (s u : State) :
    restore wire (capture wire s) u =
      if (snapshot s).wellFormed u.cart = true then .ok (overwrite (snapshot s) u) else .error .saveStateFormat := by
  have htag : (snapshot s).tag = Config.saveTag := rfl
  unfold restore capture
  rw [wire.decode_encode]
  simp only [htag, true_and]

theorem snapshot_chr (s : State) : (snapshot s).chrRam.getD s.cart.chr = s.cart.chr := by
  simp only [snapshot]
  split <;> rfl

theorem overwrite_snapshot (s u : State) :
    overwrite (snapshot s) u =
      { s with
        cart := { u.cart with chr := (snapshot s).chrRam.getD u.cart.chr }
        openBusReads := u.openBusReads } := rfl

theorem snapshot_wellFormed {s : State} (h : s.InRange) (cart : Cartridge) :
    (snapshot s).wellFormed cart = chrFits cart (snapshot s).chrRam := by
  rw [SaveState.wellFormed, show (snapshot s).ram = s.ram from rfl, show (snapshot s).ppu = s.ppu from rfl,
    show (snapshot s).apu = s.apu from rfl, h.memories.ram, h.ppu, h.apu]
  rfl

theorem snapshot_fits {s : State} (h : s.InRange) {cart : Cartridge} (hc : cart.chrIsRam = s.cart.chrIsRam) :
    chrFits cart (snapshot s).chrRam = true := by
  unfold snapshot
  cases hr : s.cart.chrIsRam
  · rfl
  · simp [chrFits, hc, hr, h.memories.chr]

/-- Settles O56: the restore asks whether the snapshot is well formed for the cartridge, which for a captured one is
that its CHR RAM fits; then it overwrites all that the snapshot holds. -/
theorem restoreCapture : Obligations.RestoreCapture := by
  intro Blob wire s u hs
  refine ⟨?same, fun hcart hchr => ?other, fun hram hrom => ?refused⟩
  case same =>
    rw [restore_capture, if_pos, overwrite_snapshot, snapshot_chr]
    rw [snapshot_wellFormed hs, snapshot_fits hs rfl]
  case other =>
    have hmode : u.cart.chrIsRam = s.cart.chrIsRam := by rw [hcart]
    have hcell : (snapshot s).chrRam.getD u.cart.chr = s.cart.chr := by
      unfold snapshot
      cases hr : s.cart.chrIsRam
      · exact hchr hr
      · rfl
    rw [restore_capture, if_pos, overwrite_snapshot, hcell]
    · rw [hcart]
    · rw [snapshot_wellFormed hs, snapshot_fits hs hmode]
  case refused =>
    rw [restore_capture, if_neg]
    rw [snapshot_wellFormed hs]
    simp [snapshot, hram, chrFits, hrom]

end Sys2Proof.Machine
end

section
/-! Proofs for the family 70_reset_and_hazards: the reset sequence, the state after reset, and power-on. -/

namespace Sys2Proof.Machine

/-! ### The reset sequence (R610) -/

/-- Settles O53: the sequence reads the vector from PRG ROM; the rest are the RESET values. -/
theorem hostReset_holds : Obligations.HostReset := by
  intro s
  rw [hostReset, resetSequence_eq]
  rfl

/-! ### The power-on values (R611) -/

theorem apu_powerOn_good : Apu.powerOn.Good := by
  constructor
  case accHigh => exact cpuHz_pos
  all_goals decide

theorem ppu_powerOn_inRange {draw : Draw} (hv : draw.vram.sized 0x800 = true) (ho : draw.oam.sized 0x100 = true) :
    (Ppu.powerOn draw).inRange = true :=
  (Ppu.inRange_iff _).mpr ⟨hv, ho, Nat.zero_le _, Nat.zero_le _, Nat.zero_le _⟩

/-- Settles O60: its memories list nothing, and its devices have their power-on values. -/
theorem resetMeetsInv : Obligations.ResetMeetsInv where
  inRange := (State.inRange_iff _).mpr ⟨⟨rfl, rfl, rfl⟩, ppu_powerOn_inRange rfl rfl, apu_powerOn_good⟩
  stall := rfl
  dma := rfl

/-! ### Power-on (67_io_scheduler_host R590, 20_memory R81) -/

theorem powerOn_ok {rom : List Byte} {draw : Draw} {s t : State} (h : powerOn rom draw s = .ok t) :
    romAccepted rom = true ∧ t = resetSequence (powerOnState (cartridgeOf draw rom) draw s.openBusReads) := by
  unfold powerOn at h
  split at h
  · next ha => exact ⟨ha, (Except.ok.inj h).symm⟩
  · cases h

/-- A part of the file, as the memory loaded from it reads. -/
theorem read_ofBytes_slice (rom : List Byte) (start n : Nat) {k : Nat} (hk : k < n) :
    (Memory.ofBytes 0 ((rom.drop start).take n)).read k = fileByte rom (start + k) := by
  have h := Memory.read_ofBytes 0 k ((rom.drop start).take n)
  rw [Nat.zero_add] at h
  rw [h, List.getElem?_take_of_lt hk, List.getElem?_drop]
  rfl

theorem sized_ofBytes_slice (rom : List Byte) (start : Nat) {n size : Nat} (h : n ≤ size) :
    (Memory.ofBytes 0 ((rom.drop start).take n)).sized size = true :=
  Memory.sized_ofBytes ((List.length_take_le _ _).trans h)

theorem cartridgeOf_prgSize {rom : List Byte} (draw : Draw) (h : fileByte rom 4 = 1 ∨ fileByte rom 4 = 2) :
    fileByte rom 4 = 1 ∧ (cartridgeOf draw rom).prgSize = .k16 ∨
      fileByte rom 4 = 2 ∧ (cartridgeOf draw rom).prgSize = .k32 := by
  rcases h with h | h
  · exact .inl ⟨h, if_pos h⟩
  · exact .inr ⟨h, if_neg (by rw [h]; decide)⟩

theorem cartridgeOf_prg_sized {rom : List Byte} (draw : Draw) (h : fileByte rom 4 = 1 ∨ fileByte rom 4 = 2) :
    (cartridgeOf draw rom).prg.sized (cartridgeOf draw rom).prgSize.bytes = true := by
  rcases cartridgeOf_prgSize draw h with ⟨h4, hs⟩ | ⟨h4, hs⟩
  · rw [hs]
    exact sized_ofBytes_slice rom _ (by rw [prgLength, h4]; decide)
  · rw [hs]
    exact sized_ofBytes_slice rom _ (by rw [prgLength, h4]; decide)

/-- CHR ROM is one bank of the file; without it CHR RAM is drawn. -/
theorem cartridgeOf_chr {rom : List Byte} (draw : Draw) (h : (fileByte rom 5).toNat ≤ 1) :
    fileByte rom 5 = 1 ∧ (cartridgeOf draw rom).chrIsRam = false ∧
        (cartridgeOf draw rom).chr = Memory.ofBytes 0 ((rom.drop (prgStart rom + prgLength rom)).take 0x2000) ∨
      fileByte rom 5 = 0 ∧ (cartridgeOf draw rom).chrIsRam = true ∧ (cartridgeOf draw rom).chr = draw.chrRam := by
  have h01 : fileByte rom 5 = 1 ∨ fileByte rom 5 = 0 := by bv_omega
  rcases h01 with h5 | h5
  · exact .inl ⟨h5, by simp [cartridgeOf, h5], by simp [cartridgeOf, h5, chrLength]⟩
  · exact .inr ⟨h5, by simp [cartridgeOf, h5], by simp [cartridgeOf, h5]⟩

theorem empty_units_invalid : ∀ u ∈ (Vector.replicate 8 SpriteUnit.empty).toList, u.valid = false := by decide

/-- Settles O54: the loader's checks leave one or two banks of PRG ROM and at most one of CHR ROM; the reset sequence
writes the CPU record alone. -/
theorem powerOnState_holds : Obligations.PowerOnState := by
  intro rom draw s t h byte prgAt prgBytes silent
  obtain ⟨haccepted, ht⟩ := powerOn_ok h
  obtain ⟨-, -, -, -, h4, h5, -⟩ := (romAccepted_iff rom).mp haccepted
  rw [resetSequence_eq] at ht
  have hcart : t.cart = cartridgeOf draw rom := by rw [ht]; rfl
  have hchr := cartridgeOf_chr draw h5
  refine ⟨?_, fun k hk => ?_, ?_, ?_, ?_, ?_, ?_, ?_, ?_, ?_, fun hram hchrRam hvram hoam => ?_⟩
  · rw [hcart]
    exact cartridgeOf_prgSize draw h4
  · rw [hcart]
    exact read_ofBytes_slice rom prgAt prgBytes hk
  · rw [hcart]
    refine hchr.imp (fun ⟨h1, h2, h3⟩ => ⟨h1, h2, fun k hk => ?_⟩) id
    rw [h3]
    exact read_ofBytes_slice rom _ _ hk
  · rw [hcart]
    rfl
  · rw [ht]
    rfl
  · rw [ht]
    rfl
  · rw [ht]
    rfl
  · rw [ht]
    exact empty_units_invalid
  · rw [ht]
    rfl
  · rw [ht]
    rfl
  · have hmemories : t.MemoriesSized := by
      refine ⟨by rw [ht]; exact hram, by rw [hcart]; exact cartridgeOf_prg_sized draw h4, ?_⟩
      rw [hcart]
      rcases hchr with ⟨-, -, h3⟩ | ⟨-, -, h3⟩
      · rw [h3]
        exact sized_ofBytes_slice rom _ (Nat.le_refl _)
      · rw [h3]
        exact hchrRam
    have hppu : t.ppu = Ppu.powerOn draw := by rw [ht]; rfl
    have hapu : t.apu = Apu.powerOn := by rw [ht]; rfl
    refine ⟨(State.inRange_iff t).mpr ⟨hmemories, ?_, ?_⟩, by rw [ht]; rfl, by rw [ht]; rfl⟩
    · rw [hppu]
      exact ppu_powerOn_inRange hvram hoam
    · rw [hapu]
      exact apu_powerOn_good

end Sys2Proof.Machine
end
